-- ==== Sys2Proof/Word.lean ====
section
/-! DEFINITION. The word types of the block (spec R17, R70): the 32-bit event or command word, the byte, the
16-bit timer sample and channel pattern, and the 4-bit A field. -/

namespace Sys2Proof

/-- One event or command word (R70). -/
abbrev Word := BitVec 32

/-- A received byte, a ChannelOrder value or an 8-bit counter (u8 of R17). -/
abbrev Byte := BitVec 8

/-- A timer sample, a timer delta or a RAW pattern (u16 of R17). One count is 400 ns (R93). -/
abbrev Tick := BitVec 16

/-- The A field of a word: pin, wire index or logical channel (R70). -/
abbrev Nibble := BitVec 4

end Sys2Proof
end

