-- ==== Sys2Proof/Config.lean ====
section
/-! DEFINITION. What an implementation fixes: the parameters of spec R7–R16, their constraints, the constants the
spec gives for every implementation, and the example set EP of R183. -/

namespace Sys2Proof

/-- A scale `NUM/DEN` of an affine transform (R14). -/
structure Ratio where
  num : Nat
  den : Nat
  deriving DecidableEq, Repr

/-- The S-Bus end-marker sub-variants (R15). -/
inductive SbusEnd where
  /-- the end byte is 0x00 -/
  | exact00
  /-- the end byte is 4 modulo 0xCF -/
  | modCfEq4
  deriving DecidableEq, Repr

/-- The wire formats that have an affine transform (R14, R182). -/
inductive Codec where
  | xtreme | sbus | spk10 | spk11
  deriving DecidableEq, Repr

/-- The implementation parameters of R8–R16, fixed for a run (R213, R264). -/
structure Params where
  /-- `N_CH`, the number of logical channels (R8). -/
  nCh : Nat
  /-- `N_PWM`, the number of discrete PWM inputs (R9). -/
  nPwm : Nat
  /-- `PWM_FRAME_CH`, the PWM input whose fall completes a frame (R9). -/
  pwmFrameCh : Nat
  /-- `SYNC_TICKS`, the CPPM sync threshold (R10). -/
  syncTicks : Nat
  /-- `MIN_PULSE_TICKS`, the CPPM minimum pulse width (R10). -/
  minPulseTicks : Nat
  /-- `BUF_CAP`, the receive buffer's capacity in bytes (R12). -/
  bufCap : Nat
  /-- `SILENCE_TICKS[XTREME]` (R13). -/
  silenceXtreme : Nat
  /-- `SILENCE_TICKS[SBUS]` (R13). -/
  silenceSbus : Nat
  /-- `SILENCE_TICKS[SPEKTRUM]` (R13). -/
  silenceSpektrum : Nat
  /-- `NUM/DEN` of Xtreme (R14). -/
  ratioXtreme : Ratio
  /-- `NUM/DEN` of S-Bus (R14). -/
  ratioSbus : Ratio
  /-- `NUM/DEN` of 10-bit Spektrum (R14). -/
  ratioSpk10 : Ratio
  /-- `NUM/DEN` of 11-bit Spektrum (R14). -/
  ratioSpk11 : Ratio
  /-- `SBUS_END` (R15). -/
  sbusEnd : SbusEnd
  /-- `DEFAULT_FILL[c]`, c < N_CH (R16). -/
  defaultFill : List Tick
  deriving DecidableEq, Repr

/-- `NUM >= 1` and `DEN >= 1` (R187). -/
abbrev Ratio.Valid (r : Ratio) : Prop := 1 ≤ r.num ∧ 1 ≤ r.den

/-- The constraints the spec puts on the parameters (R8, R9, R12, R13, R16, R187). -/
structure Params.Valid (p : Params) : Prop where
  nCh_ge : 8 ≤ p.nCh
  nCh_le : p.nCh ≤ 16
  nPwm_ge : 1 ≤ p.nPwm
  nPwm_le : p.nPwm ≤ p.nCh
  pwmFrameCh_lt : p.pwmFrameCh < p.nPwm
  bufCap_ge : 37 ≤ p.bufCap
  silenceXtreme_le : p.silenceXtreme ≤ 65535
  silenceSbus_le : p.silenceSbus ≤ 65535
  silenceSpektrum_le : p.silenceSpektrum ≤ 65535
  ratioXtreme_valid : p.ratioXtreme.Valid
  ratioSbus_valid : p.ratioSbus.Valid
  ratioSpk10_valid : p.ratioSpk10.Valid
  ratioSpk11_valid : p.ratioSpk11.Valid
  defaultFill_length : p.defaultFill.length = p.nCh

namespace Config

/-- `C_OUT`, the output centre of every transform (R14). -/
def cOut : Nat := 3750

/-- `C_IN[p]`, the input centre of each transform (R14, R182). -/
def cIn : Codec → Nat
  | .xtreme => 1500
  | .sbus => 1024
  | .spk10 => 512
  | .spk11 => 1024

/-- The ChannelOrder value for an unmapped wire index (R25). -/
def unmapped : Byte := 0xFF

/-- What an entry of BUF that the memory does not list reads as. The spec says any value (R40, R260, I8). DESIGN CHOICE
(log 5): 0x00; unsafe for a claim about the byte itself. Reset states of any other contents are `State.resetWith`'s,
and no operation's outcome depends on them (R54). -/
def bufUnlisted : Byte := 0x00

/-- The example set EP with the defaults of R8–R16 (R183). DESIGN CHOICE (log 2): it is what `State.reset` is
built from. Unsafe for a claim about that one state; every statement of this package holds for all parameters. -/
def exampleParams : Params where
  nCh := 8
  nPwm := 8
  pwmFrameCh := 7
  syncTicks := 6750
  minPulseTicks := 750
  bufCap := 40
  silenceXtreme := 5000
  silenceSbus := 5000
  silenceSpektrum := 5000
  ratioXtreme := ⟨5, 2⟩
  ratioSbus := ⟨25, 16⟩
  ratioSpk10 := ⟨5, 2⟩
  ratioSpk11 := ⟨5, 4⟩
  sbusEnd := .exact00
  defaultFill := List.replicate 8 3750

end Config
end Sys2Proof
end

