-- ==== Sys2Proof/Syntax.lean ====
section
/-! DEFINITION. The operations of the block: one constructor of `Instr` per row of spec/opcode_table.json
(R73–R75), with the operands each one uses (R71, R72). -/

namespace Sys2Proof

/-- The active receiver input source, register PROTO (R24). Codes 6 and 7 are never held. -/
inductive Proto where
  | disabled | pwm | cppm | xtreme | sbus | spektrum
  deriving DecidableEq, Repr

/-- The three serial protocols, which share the frame assembler (R120). -/
inductive SerialProto where
  | xtreme | sbus | spektrum
  deriving DecidableEq, Repr

/-- The event and command words (R73–R75). Operands are the fields the operation uses; the others are ignored (R72). -/
inductive Instr where
  /-- `PWM_RISE ch, t` (R101). -/
  | pwmRise (ch : Nibble) (t : Tick)
  /-- `PWM_FALL ch, t` (R102). -/
  | pwmFall (ch : Nibble) (t : Tick)
  /-- `CPPM_EDGE t` (R105). -/
  | cppmEdge (t : Tick)
  /-- `RX_BYTE b, t` (R120). -/
  | rxByte (b : Byte) (t : Tick)
  /-- `TMR_RD t` (R92). -/
  | tmrRd (t : Tick)
  /-- `CFG p` (R203). -/
  | cfg (p : Proto)
  /-- `ORD_WR w, c` (R205). -/
  | ordWr (w : Nibble) (c : Byte)
  /-- `ORD_RD w` (R206). -/
  | ordRd (w : Nibble)
  /-- `FR_CLR` (R207). -/
  | frClr
  /-- `OVERDUE` (R208). -/
  | overdue
  /-- `CH_RD c` (R209). -/
  | chRd (c : Nibble)
  /-- `ST_RD` (R210). -/
  | stRd
  deriving DecidableEq, Repr

end Sys2Proof
end

