-- ==== Sys2Proof/Decode.lean ====
section
/-! DEFINITION. The decoder and the encoder of format E (spec R70–R82), each written from R73–R75 and R82. The
decoder is total: every one of the 2^32 words gives an operation or a refusal by name (R76). The value checks
against N_PWM and N_CH (R78(a), (b)) need the parameters and stand in the meanings (Machine/Operands.lean). -/

namespace Sys2Proof

/-- Why a word spells no operation, whatever the parameters (R77, R78(c)). -/
inductive DecodeError where
  /-- A reserved OP: 0x0, 0x6, 0x7 or 0xF (R77). Safe: the run stops as refused (R79). -/
  | reservedOp (op : Nibble)
  /-- `CFG` with a protocol code of 6 or more (R78(c)). Safe: the run stops as refused (R79). -/
  | reservedProtocol (code : Nibble)
  deriving DecidableEq, Repr

/-- Field OP, bits 31:28 (R70). -/
def Word.op (w : Word) : Nibble := w.extractLsb' 28 4

/-- Field A, bits 27:24 (R70). -/
def Word.fieldA (w : Word) : Nibble := w.extractLsb' 24 4

/-- Field D, bits 23:16 (R70). -/
def Word.fieldD (w : Word) : Byte := w.extractLsb' 16 8

/-- Field T, bits 15:0 (R70). -/
def Word.fieldT (w : Word) : Tick := w.extractLsb' 0 16

/-- The protocol a code names (R24); codes 6 and above name none. -/
def Proto.ofCode? (c : Nibble) : Option Proto :=
  match c.toNat with
  | 0 => some .disabled
  | 1 => some .pwm
  | 2 => some .cppm
  | 3 => some .xtreme
  | 4 => some .sbus
  | 5 => some .spektrum
  | _ => none

/-- The code of a protocol (R24). -/
def Proto.code : Proto → BitVec 3
  | .disabled => 0
  | .pwm => 1
  | .cppm => 2
  | .xtreme => 3
  | .sbus => 4
  | .spektrum => 5

/-- `CFG` with A as its protocol code (R203), refused for a reserved code (R78(c)). -/
def decodeCfg (a : Nibble) : Except DecodeError Instr :=
  match Proto.ofCode? a with
  | some p => .ok (.cfg p)
  | none => .error (.reservedProtocol a)

/-- The opcode map of R73–R75 with the reserved values of R77. -/
def decode (w : Word) : Except DecodeError Instr :=
  match w.op.toNat with
  | 0x1 => .ok (.pwmRise w.fieldA w.fieldT)
  | 0x2 => .ok (.pwmFall w.fieldA w.fieldT)
  | 0x3 => .ok (.cppmEdge w.fieldT)
  | 0x4 => .ok (.rxByte w.fieldD w.fieldT)
  | 0x5 => .ok (.tmrRd w.fieldT)
  | 0x8 => decodeCfg w.fieldA
  | 0x9 => .ok (.ordWr w.fieldA w.fieldD)
  | 0xA => .ok (.ordRd w.fieldA)
  | 0xB => .ok .frClr
  | 0xC => .ok .overdue
  | 0xD => .ok (.chRd w.fieldA)
  | 0xE => .ok .stRd
  | _ => .error (.reservedOp w.op)

/-- The word whose bits are `w`, `nbits` of them, every bit above them 0, as the decoder reads it. A word is
presented to the block whole (R50, R70), so there is no byte order to lay it out in. -/
def decodeTableWord (nbits w : Nat) : Option Instr :=
  match decode (BitVec.ofNat 32 (w % 2 ^ nbits)) with
  | .ok i => some i
  | .error _ => none

/-- Fields OP, A, D and T side by side (the "·" of R82). -/
def formatE (op a : Nibble) (d : Byte) (t : Tick) : Word := (op ++ a ++ d ++ t).setWidth 32

/-- The 4-bit A field of a protocol code (R82). -/
def Proto.fieldA (p : Proto) : Nibble := p.code.setWidth 4

/-- The word of an operation, unused fields zero (R82). -/
def encode : Instr → Word
  | .pwmRise ch t => formatE 0x1 ch 0x00 t
  | .pwmFall ch t => formatE 0x2 ch 0x00 t
  | .cppmEdge t => formatE 0x3 0 0x00 t
  | .rxByte b t => formatE 0x4 0 b t
  | .tmrRd t => formatE 0x5 0 0x00 t
  | .cfg p => formatE 0x8 p.fieldA 0x00 0x0000
  | .ordWr w c => formatE 0x9 w c 0x0000
  | .ordRd w => formatE 0xA w 0x00 0x0000
  | .frClr => formatE 0xB 0 0x00 0x0000
  | .overdue => formatE 0xC 0 0x00 0x0000
  | .chRd c => formatE 0xD c 0x00 0x0000
  | .stRd => formatE 0xE 0 0x00 0x0000

/-- The bits of a word that its operation reads: OP, and the fields used of R73–R75. -/
def usedBits : Instr → Word
  | .pwmRise _ _ => 0xFF00FFFF
  | .pwmFall _ _ => 0xFF00FFFF
  | .cppmEdge _ => 0xF000FFFF
  | .rxByte _ _ => 0xF0FFFFFF
  | .tmrRd _ => 0xF000FFFF
  | .cfg _ => 0xFF000000
  | .ordWr _ _ => 0xFFFF0000
  | .ordRd _ => 0xFF000000
  | .frClr => 0xF0000000
  | .overdue => 0xF0000000
  | .chRd _ => 0xFF000000
  | .stRd => 0xF0000000

/-- The OP field of each operation (R73–R75). -/
def Instr.opcode : Instr → Nibble
  | .pwmRise _ _ => 0x1
  | .pwmFall _ _ => 0x2
  | .cppmEdge _ => 0x3
  | .rxByte _ _ => 0x4
  | .tmrRd _ => 0x5
  | .cfg _ => 0x8
  | .ordWr _ _ => 0x9
  | .ordRd _ => 0xA
  | .frClr => 0xB
  | .overdue => 0xC
  | .chRd _ => 0xD
  | .stRd => 0xE

/-- The assembler's name of a protocol (R82). -/
def Proto.asm : Proto → String
  | .disabled => "DISABLED"
  | .pwm => "PWM"
  | .cppm => "CPPM"
  | .xtreme => "XTREME"
  | .sbus => "SBUS"
  | .spektrum => "SPEKTRUM"

/-- The assembler's spelling of a ChannelOrder value: `UNMAPPED` stands for 0xFF (R82). -/
def asmOrder (c : Byte) : String := if c = 0xFF then "UNMAPPED" else c.toNat.repr

/-- One line of assembler text (R82), numbers in decimal (log 16). -/
def Instr.asm : Instr → String
  | .pwmRise ch t => "PWM_RISE " ++ ch.toNat.repr ++ ", " ++ t.toNat.repr
  | .pwmFall ch t => "PWM_FALL " ++ ch.toNat.repr ++ ", " ++ t.toNat.repr
  | .cppmEdge t => "CPPM_EDGE " ++ t.toNat.repr
  | .rxByte b t => "RX_BYTE " ++ b.toNat.repr ++ ", " ++ t.toNat.repr
  | .tmrRd t => "TMR_RD " ++ t.toNat.repr
  | .cfg p => "CFG " ++ p.asm
  | .ordWr w c => "ORD_WR " ++ w.toNat.repr ++ ", " ++ asmOrder c
  | .ordRd w => "ORD_RD " ++ w.toNat.repr
  | .frClr => "FR_CLR"
  | .overdue => "OVERDUE"
  | .chRd c => "CH_RD " ++ c.toNat.repr
  | .stRd => "ST_RD"

end Sys2Proof
end

