-- ==== Sys2Proof/Machine/State.lean ====
section
/-! DEFINITION. The state of the block (spec 10_state.md R20–R45) as plain data, the output record of a step (R84),
the outcome tags (R231), the ways a step can stop, and the state after power-on reset (R260). -/

namespace Sys2Proof.Machine

/-- The outcome tags of R231, diagnostic only. -/
inductive Tag where
  | ignored | pwmStart | pwmWidth | cppmSync | cppmSlot | cppmLearn | cppmRelearn | cppmSaturated
  | frameStart | byteDropped | rejXtPoison | rejXtMask | rejXtChecksum | rejSbEnd | discSbLost
  | discSpEmpty | spDropSeen | commit | cfgOk | cfgBad | ordOk | ordDropped
  deriving DecidableEq, Repr

/-- The value a read returns (R84): 16 bits for TMR_RD, ORD_RD and CH_RD, 32 bits for ST_RD (R56). -/
inductive Ret where
  | half (v : BitVec 16)
  | full (v : BitVec 32)
  deriving DecidableEq, Repr

/-- The output record `(ret, tags, strobe)` of one step (R84). -/
structure Output where
  /-- The value returned, present only for the four reads. -/
  ret : Option Ret
  /-- The tags the step emitted, in order. -/
  tags : List Tag
  /-- The commit strobe: set exactly when the step called Commit (R186). -/
  strobe : Bool
  deriving DecidableEq, Repr

/-- A step that returned nothing, emitted nothing and did not commit. -/
def Output.empty : Output := ⟨none, [], false⟩

/-- The faults of the model. The block itself has none (R230, R236). -/
inductive Fault where
  /-- Raised by a parser's BufRead at an index at or above BUF_CAP, where there is no entry. R53 permits it and R54 says
  no rule reaches it; no state that satisfies `Inv` (Safety.lean) does. Safe. -/
  | bufOutOfRange
  deriving DecidableEq, Repr

/-- The refusals of R77–R79 and R235: the word cannot occur, the block takes no step for it. All are safe. -/
inductive Refusal where
  /-- Raised by `exec` for an instruction the model gives no meaning (there is none). Safe. -/
  | notModelled (mnemonic : String)
  /-- Raised by `step` for a reserved OP or a reserved protocol code (R77, R78(c)). Safe. -/
  | undecodable (e : DecodeError)
  /-- Raised by PWM_RISE and PWM_FALL with A >= N_PWM: no such input pin (R78(a)). Safe. -/
  | noSuchPin
  /-- Raised by CH_RD with A >= N_CH: no such channel (R78(b)). Safe. -/
  | noSuchChannel
  deriving DecidableEq, Repr

/-- SerialReceiveBuffer: the entries of BUF as (index, byte) cells, indices strictly rising (R40, R53). An index that is
not listed reads as `Config.bufUnlisted`, and no cell holds that byte, so equal contents are equal lists (log 5,
log 18). -/
abbrev Memory := List Host.Cell

/-- The whole state. Every field but `par`, `input` and `out` is a piece of state the spec names; see INVENTORY.md. -/
structure State where
  /-- The model's own: the implementation parameters of R7–R16, which no step writes. DESIGN CHOICE
  (log 1); safe. -/
  par : Params
  /-- `RAW[c]`, c < N_CH: RawChannelArray (R22). -/
  raw : List Tick
  /-- `PULSE_START[ch]`, ch < N_PWM (R23). -/
  pulseStart : List Tick
  /-- `PROTO` (R24). -/
  proto : Proto
  /-- `ORDER[w]`, w < 16: ChannelOrder (R25). -/
  order : Vector Byte 16
  /-- `FR`: FrameReadySignal (R27). -/
  fr : Bool
  /-- `SBUS_FS` (R28). -/
  sbusFs : Bool
  /-- `SPK_DROP` (R29). -/
  spkDrop : Bool
  /-- `SPK_RES11` (R30). -/
  spkRes11 : Bool
  /-- `OVERDUE_REQ` (R31). -/
  overdueReq : Bool
  /-- `CFG_ERR` (R32). -/
  cfgErr : Bool
  /-- `COMMIT_CNT` (R33). -/
  commitCnt : Byte
  /-- `CPPM_LAST` (R35). -/
  cppmLast : Tick
  /-- `CH_NUM` (R36). -/
  chNum : Byte
  /-- `MAX_CHAN` (R37). -/
  maxChan : Byte
  /-- `LAST_BYTE_T` (R38). -/
  lastByteT : Tick
  /-- `BYTE_COUNT` (R39). -/
  byteCount : Byte
  /-- `BUF`: SerialReceiveBuffer (R40). -/
  buf : Memory
  /-- `XT_SUM` (R41). -/
  xtSum : Byte
  /-- `XT_POISON` (R41). -/
  xtPoison : Bool
  /-- `XT_MASK` (R41). -/
  xtMask : BitVec 16
  /-- `XT_LEN` (R41). -/
  xtLen : Byte
  /-- `PARSE_DONE` (R41). -/
  parseDone : Bool
  /-- `SPK_PREV` (R42). -/
  spkPrev : Byte
  /-- `SPK_PREV_VALID` (R42). -/
  spkPrevValid : Bool
  /-- The model's own: the words the environment and the host present next, in their total order (R59).
  DESIGN CHOICE (log 3); safe. -/
  input : List Word
  /-- The model's own: the output record of the last step (R84); none when it took no word. DESIGN
  CHOICE (log 4); safe. -/
  out : Option Output
  deriving DecidableEq, Repr

/-- ORDER after reset: `w` for w < N_CH, unmapped above (R25). UNVERIFIED (log 12): the spec's own choice; unsafe. -/
def resetOrder (nCh : Nat) : Vector Byte 16 :=
  Vector.ofFn fun w : Fin 16 => if w.val < nCh then BitVec.ofNat 8 w.val else Config.unmapped

/-- The power-on reset state of a block with given parameters and given contents of BUF, which R40 and R260 leave at any
value (R260, R261). -/
def State.resetWith (p : Params) (contents : Memory) : State where
  par := p
  raw := p.defaultFill
  pulseStart := List.replicate p.nPwm 0x0000
  proto := .disabled
  order := resetOrder p.nCh
  fr := false
  sbusFs := false
  spkDrop := false
  spkRes11 := false
  overdueReq := false
  cfgErr := false
  commitCnt := 0
  cppmLast := 0x0000
  chNum := 0
  maxChan := 0
  lastByteT := 0x0000
  byteCount := 0
  buf := contents
  xtSum := 0
  xtPoison := false
  xtMask := 0
  xtLen := 0
  parseDone := false
  spkPrev := 0
  spkPrevValid := false
  input := []
  out := none

/-- The machine right after power-on reset (R260), for the parameter set and the contents of BUF that the log names.
DESIGN CHOICE (log 2, log 5); unsafe for a claim about this one state. -/
def State.reset : State := State.resetWith Config.exampleParams []

end Sys2Proof.Machine
end

