-- ==== Sys2Proof/Machine/Flags.lean ====
section
/-! DEFINITION. The output record, the tags' codes and the status flags: what a step emits (spec R84, R231) and the
STATUS view (R34). -/

namespace Sys2Proof.Machine

/-- The code of a tag (R231). -/
def Tag.code : Tag → Nat
  | .ignored => 1
  | .pwmStart => 2
  | .pwmWidth => 3
  | .cppmSync => 4
  | .cppmSlot => 5
  | .cppmLearn => 6
  | .cppmRelearn => 7
  | .cppmSaturated => 8
  | .frameStart => 9
  | .byteDropped => 10
  | .rejXtPoison => 11
  | .rejXtMask => 12
  | .rejXtChecksum => 13
  | .rejSbEnd => 14
  | .discSbLost => 15
  | .discSpEmpty => 16
  | .spDropSeen => 17
  | .commit => 18
  | .cfgOk => 19
  | .cfgBad => 20
  | .ordOk => 21
  | .ordDropped => 22

/-- The record the step under way has produced so far. -/
def State.record (s : State) : Output := s.out.getD Output.empty

/-- A step begins: nothing emitted, returned or committed yet (R84). -/
def State.begin (s : State) : State := { s with out := some Output.empty }

/-- `emit <Tag>` (R17): append a tag to the step's record. -/
def State.emit (t : Tag) (s : State) : State :=
  { s with out := some { s.record with tags := s.record.tags ++ [t] } }

/-- `ret <- v` (R84): the value a read returns. -/
def State.answer (v : Ret) (s : State) : State := { s with out := some { s.record with ret := some v } }

/-- `strobe <- 1` (R186). -/
def State.pulseStrobe (s : State) : State := { s with out := some { s.record with strobe := true } }

/-- The STATUS view (R34), from bit 31 down: MAX_CHAN, COMMIT_CNT, five zeros, PROTO, two zeros, CFG_ERR,
OVERDUE_REQ, SPK_RES11, SPK_DROP, SBUS_FS, FR. -/
def State.status (s : State) : BitVec 32 :=
  (s.maxChan ++ s.commitCnt ++ (0 : BitVec 5) ++ s.proto.code ++ (0 : BitVec 2) ++ BitVec.ofBool s.cfgErr ++
    BitVec.ofBool s.overdueReq ++ BitVec.ofBool s.spkRes11 ++ BitVec.ofBool s.spkDrop ++ BitVec.ofBool s.sbusFs ++
    BitVec.ofBool s.fr).setWidth 32

/-- `EndOk(b)`, the S-Bus end-marker check (R153). -/
def endOk (e : SbusEnd) (b : Byte) : Bool :=
  match e with
  | .exact00 => b = 0x00
  | .modCfEq4 => b.toNat % 207 = 4

/-- SPK_DROP's value at a structurally complete Spektrum frame with loss counter `loss` (R159). -/
def State.lossChanged (s : State) (loss : Byte) : Bool := s.spkPrevValid && loss != s.spkPrev

end Sys2Proof.Machine
end

