-- ==== Sys2Proof/Machine/Operands.lean ====
section
/-! DEFINITION. The operand forms: elapsed ticks (spec R91), pins, channels and wire indices (R78, R180), buffer
bytes and the three wire formats' fields (R51–R53, R161), and the affine transforms (R182). -/

namespace Sys2Proof.Machine

/-- Wraparound-safe subtraction `a -16 b` of a later and an earlier sample (R91). -/
def elapsed (later earlier : Tick) : Tick := later - earlier

/-- An 8-bit counter that counts up and stays at 255 (R36, R39): `min(n + 1, 255)`. -/
def satInc (n : Byte) : Byte := if n = 255 then 255 else n + 1

/-- `PULSE_START[ch]` of an existing pin, ch < N_PWM (R23, R78(a)). -/
def State.pulseStart? (s : State) (ch : Nat) : Option Tick :=
  if ch < s.par.nPwm then s.pulseStart[ch]? else none

/-- `RAW[c]` of an existing channel, c < N_CH (R22, R78(b)). -/
def State.raw? (s : State) (c : Nat) : Option Tick :=
  if c < s.par.nCh then s.raw[c]? else none

/-- A RAW pattern as the host reads it, signed (R22). -/
def signedChannel (v : Tick) : Int := v.toInt

/-- `ORDER[w]` for a wire index that fits the A field (R25). -/
def orderAt (order : Vector Byte 16) (w : Nibble) : Byte := order.get w.toFin

/-- `ORDER[w] <- c` (R205). -/
def setOrderAt (order : Vector Byte 16) (w : Nibble) (c : Byte) : Vector Byte 16 := order.set w.toNat c w.isLt

/-- `Remap(w)`: the logical channel of a wire index, none if unmapped or if w >= 16 (R180). -/
def remap (order : Vector Byte 16) (w : Nat) : Option Nat :=
  if h : w < 16 then
    if order[w] = Config.unmapped then none else some order[w].toNat
  else none

/-- ChannelOrder validity: no two wire indices map to one logical channel (R26). -/
abbrev OrderValid (order : Vector Byte 16) : Prop :=
  ∀ i j : Fin 16, i ≠ j →
    order[i] = Config.unmapped ∨ order[j] = Config.unmapped ∨ order[i] ≠ order[j]

/-- The serial protocol PROTO selects, if any (R120). -/
def serialOf : Proto → Option SerialProto
  | .disabled => none
  | .pwm => none
  | .cppm => none
  | .xtreme => some .xtreme
  | .sbus => some .sbus
  | .spektrum => some .spektrum

/-- `SILENCE_TICKS[p]` (R13). -/
def silenceTicks (par : Params) : SerialProto → Nat
  | .xtreme => par.silenceXtreme
  | .sbus => par.silenceSbus
  | .spektrum => par.silenceSpektrum

/-- `NUM[p]/DEN[p]` (R14). -/
def ratioOf (par : Params) : Codec → Ratio
  | .xtreme => par.ratioXtreme
  | .sbus => par.ratioSbus
  | .spk10 => par.ratioSpk10
  | .spk11 => par.ratioSpk11

/-- The transform's value before truncation, an unbounded integer (R182). `/` on `Int` is the floor for DEN >= 1. -/
def affine (par : Params) (p : Codec) (v : Nat) : Int :=
  Config.cOut + (((v : Int) - Config.cIn p) * (ratioOf par p).num) / (ratioOf par p).den

/-- `Transform(p, v)` (R182): `trunc16` of the affine value. UNVERIFIED (log 13): floor and truncation are the spec's
own choice; unsafe. -/
def transform (par : Params) (p : Codec) (v : Nat) : Tick := BitVec.ofInt 16 (affine par p v)

/-- The number of 1 bits of a channel mask (R17). -/
def popcount (m : BitVec 16) : Nat := (List.range 16).countP fun i => m.getLsbD i

/-- The byte of a memory at an index: the listed one, or what an unlisted index reads as (log 5). -/
def Memory.read : Memory → Nat → Byte
  | [], _ => Config.bufUnlisted
  | (a, b) :: m, i => if a = i then b else Memory.read m i

/-- `BufRead(i)` (R53): `BUF[i]` for i < BUF_CAP, whatever wrote it last; none at or above BUF_CAP, where there is no
entry (DEDUCED, log 6; safe). -/
def State.bufRead (s : State) (i : Nat) : Option Byte :=
  if i < s.par.bufCap then some (Memory.read s.buf i) else none

/-- `{BufRead(i), BufRead(i+1)}`, first byte high (R51, R161). UNVERIFIED for Spektrum (log 11); unsafe. -/
def State.bufWordBE (s : State) (i : Nat) : Option (BitVec 16) := do
  let hi ← s.bufRead i
  let lo ← s.bufRead (i + 1)
  pure (hi ++ lo)

/-- The `n` bytes of BUF from index `i` on, if all are below BUF_CAP. -/
def State.bufReadFrom (s : State) (i : Nat) : Nat → Option (List Byte)
  | 0 => some []
  | n + 1 => do
    let b ← s.bufRead i
    let bs ← State.bufReadFrom s (i + 1) n
    pure (b :: bs)

/-- S-Bus stream bit `i`: bit `i mod 8` of data byte `floor(i/8)`, the data bytes being BUF[1..22] (R52). -/
def sbusStreamBit (data : List Byte) (i : Nat) : Bool := (data.getD (i / 8) 0).getLsbD (i % 8)

/-- `field(j)`: the sum over b = 0..10 of stream bit `11j + b` shifted left by b (R52). -/
def sbusField (data : List Byte) (j : Nat) : Nat :=
  ((List.range 11).map fun b => (sbusStreamBit data (11 * j + b)).toNat <<< b).sum

/-- The channel number of a Spektrum word: w[14:11] at 11 bits, w[13:10] at 10 bits (R161). UNVERIFIED (log 11);
unsafe. -/
def spkChannel (res11 : Bool) (w : BitVec 16) : Nibble :=
  if res11 then w.extractLsb' 11 4 else w.extractLsb' 10 4

/-- The value of a Spektrum word: w[10:0] at 11 bits, w[9:0] at 10 bits (R161). -/
def spkValue (res11 : Bool) (w : BitVec 16) : Nat :=
  if res11 then (w.extractLsb' 0 11).toNat else (w.extractLsb' 0 10).toNat

/-- The transform of a Spektrum frame's resolution (R163). -/
def spkCodec (res11 : Bool) : Codec := if res11 then .spk11 else .spk10

end Sys2Proof.Machine
end

