-- ==== Sys2Proof/Machine/Ops.lean ====
section
/-! DEFINITION. The operations the instructions share: buffer writes (spec R53), staging (R181), Commit (R186),
Flush (R204) and the step of an event whose source is inactive (R232). The block takes no exception (R236), so
there is no exception entry and no return. -/

namespace Sys2Proof.Machine

/-- The outcome type of every meaning. -/
abbrev Result := Host.Outcome State Fault Refusal

/-- The cells of a memory that hold `b` at index `i` and above it the cells `m`. -/
def Memory.put (i : Nat) (b : Byte) (m : Memory) : Memory := if b = Config.bufUnlisted then m else (i, b) :: m

/-- A memory with the byte at one index replaced, the canonical form kept: writing what an unlisted index reads as
removes the cell. -/
def Memory.write : Memory → Nat → Byte → Memory
  | [], i, b => Memory.put i b []
  | (a, c) :: m, i, b =>
    if i < a then Memory.put i b ((a, c) :: m)
    else if i = a then Memory.put i b m
    else (a, c) :: Memory.write m i b

/-- A memory is canonical and every index of it is at or above `lo`. -/
def Memory.wfFrom : Nat → Memory → Bool
  | _, [] => true
  | lo, (a, b) :: m => decide (lo ≤ a) && decide (b ≠ Config.bufUnlisted) && Memory.wfFrom (a + 1) m

/-- The canonical form: indices strictly rising, and no cell holds what an unlisted index reads as. -/
def Memory.wf (m : Memory) : Bool := Memory.wfFrom 0 m

/-- `BufWrite(i, b)` (R53). The assembler calls it only with i < BUF_CAP (R123). -/
def State.bufWrite (i : Nat) (b : Byte) (s : State) : State := { s with buf := Memory.write s.buf i b }

/-- `RAW[c] <- v` (R22). -/
def State.writeRaw (c : Nat) (v : Tick) (s : State) : State := { s with raw := s.raw.set c v }

/-- The pending channel writes of one frame, a partial map from logical channel to value, local to a step (R181). -/
abbrev Stage := Nat → Option Tick

/-- No pending write (R181). -/
def Stage.empty : Stage := fun _ => none

/-- `stage[c] <- u` (R181). -/
def Stage.put (c : Nat) (u : Tick) (st : Stage) : Stage := fun d => if d = c then some u else st d

/-- `Stage(stage, w, u)` (R181): a wire index that is not mapped leaves the stage as it is. -/
def stageWire (order : Vector Byte 16) (w : Nat) (u : Tick) (st : Stage) : Stage :=
  match remap order w with
  | some c => st.put c u
  | none => st

/-- `Commit(stage)` (R186): publish the staged channels, set FR, count, strobe, emit COMMIT. -/
def State.commit (st : Stage) (s : State) : State :=
  State.emit .commit <| State.pulseStrobe
    { s with
      raw := s.raw.mapIdx fun c v => (st c).getD v
      fr := true
      commitCnt := s.commitCnt + 1 }

/-- Reset of the per-frame registers and of the write pointer: a frame boundary (R122) and part of Flush (R204). -/
def State.clearFrame (s : State) : State :=
  { s with
    byteCount := 0
    xtSum := 0
    xtPoison := false
    xtMask := 0
    xtLen := 0
    parseDone := false }

/-- `Flush()` (R204). RAW, FR, COMMIT_CNT, ORDER, PROTO, PULSE_START and the contents of BUF are kept. -/
def State.flush (s : State) : State :=
  { s.clearFrame with
    lastByteT := 0
    cppmLast := 0
    chNum := 0
    maxChan := 0
    overdueReq := false
    spkPrev := 0
    spkPrevValid := false
    sbusFs := false
    spkDrop := false
    spkRes11 := false }

/-- An event whose source PROTO does not select: no state changes, the step emits IGNORED (R80, R232). -/
def ignored (s : State) : Result := .next (s.begin.emit .ignored)

end Sys2Proof.Machine
end

