-- ==== Sys2Proof/Machine/Parsers.lean ====
section
/-! DEFINITION. The protocol parsers (spec 43_parsers.md). Each is called once per byte with the byte's index `k` and
the byte `b`, after the byte has been appended (R124, R140). The answer is none exactly where a BufRead is at or
above BUF_CAP, which R54 says no rule reaches. -/

namespace Sys2Proof.Machine

/-- Byte 0 with any of bits 7:5 set poisons the frame (R144). UNVERIFIED (log 11): that the "top bits" are these three
is the spec's general-knowledge reading; unsafe. -/
def xtPoisons (k b : Byte) : Bool := decide (k = 0) && decide (b.extractLsb' 5 3 ≠ 0)

/-- XT_MASK after a byte: byte 2 gives bits 15:8, byte 3 gives bits 7:0 (R145). -/
def xtMaskAfter (k b : Byte) (mask : BitVec 16) : BitVec 16 :=
  if k = 2 then b ++ mask.extractLsb' 0 8 else if k = 3 then mask.extractLsb' 8 8 ++ b else mask

/-- XT_LEN after a byte: byte 3 fixes the checksum's index (R143). -/
def xtLenAfter (k b : Byte) (mask : BitVec 16) (len : Byte) : Byte :=
  if k = 3 then BitVec.ofNat 8 (4 + 2 * popcount (xtMaskAfter k b mask)) else len

/-- The parts of R142 before the sum: flags byte, mask bytes, length. -/
def xtHeader (k b : Byte) (s : State) : State :=
  { s with
    xtPoison := s.xtPoison || xtPoisons k b
    xtMask := xtMaskAfter k b s.xtMask
    xtLen := xtLenAfter k b s.xtMask s.xtLen }

/-- The decode loop of R142 and R147 over the wire channels left, `n` values having been read: each set mask bit takes
the next big-endian value, under the bit's number as wire index. -/
def xtStage (s : State) : List Nat → Nat → Stage → Option Stage
  | [], _, st => some st
  | w :: ws, n, st =>
    if s.xtMask.getLsbD w then do
      let v ← s.bufWordBE (4 + 2 * n)
      xtStage s ws (n + 1) (stageWire s.order w (transform s.par .xtreme v.toNat) st)
    else xtStage s ws n st

/-- The completion of R142 at the checksum byte: poison, mask 0 and checksum are tested in that order (R148(d)). -/
def xtComplete (b : Byte) (s : State) : Option State :=
  if s.xtPoison then some (s.emit .rejXtPoison)
  else if s.xtMask = 0 then some (s.emit .rejXtMask)
  else if s.xtSum ≠ b then some (s.emit .rejXtChecksum)
  else do
    let st ← xtStage s (List.range 16) 0 Stage.empty
    pure (s.commit st)

/-- `Parse[XTREME](k, b)` (R142). DEDUCED (log 15): with k above XT_LEN, which no run reaches, the test is taken as the
pseudocode has it; safe. -/
def parseXtreme (k b : Byte) (s : State) : Option State :=
  if s.parseDone then some s
  else
    let h := xtHeader k b s
    if k.toNat ≤ 3 ∨ k.toNat < h.xtLen.toNat then some { h with xtSum := h.xtSum + b }
    else xtComplete b { h with parseDone := true }

/-- All sixteen S-Bus fields staged under their own numbers (R150, R155). -/
def sbusStage (s : State) (data : List Byte) : List Nat → Stage → Stage
  | [], st => st
  | j :: js, st => sbusStage s data js (stageWire s.order j (transform s.par .sbus (sbusField data j)) st)

/-- The completion of R150 at byte 24: end marker, then frame-lost bit 5 of byte 23, then the fields; SBUS_FS takes
bit 4 of byte 23 (R153, R154, R157). The start byte is not checked (R151). -/
def sbusComplete (b : Byte) (s : State) : Option State :=
  if endOk s.par.sbusEnd b then do
    let flags ← s.bufRead 23
    if flags.getLsbD 5 then pure (s.emit .discSbLost)
    else
      let data ← s.bufReadFrom 1 22
      pure (State.commit (sbusStage s data (List.range 16) Stage.empty) { s with sbusFs := flags.getLsbD 4 })
  else some (s.emit .rejSbEnd)

/-- `Parse[SBUS](k, b)` (R150). -/
def parseSbus (k b : Byte) (s : State) : Option State :=
  if s.parseDone ∨ k ≠ 24 then some s else sbusComplete b { s with parseDone := true }

/-- The loop of R158 over the words left: a word of channel 15 is skipped (R162), any other is staged (R163); the flag
says whether one was. UNVERIFIED (log 11): 15 as the invalid number is the spec's general-knowledge reading; unsafe. -/
def spkStage (s : State) (res11 : Bool) : List Nat → Stage → Bool → Option (Stage × Bool)
  | [], st, any => some (st, any)
  | i :: is, st, any => do
    let w ← s.bufWordBE (2 + 2 * i)
    if spkChannel res11 w = 15 then spkStage s res11 is st any
    else
      let u := transform s.par (spkCodec res11) (spkValue res11 w)
      spkStage s res11 is (stageWire s.order (spkChannel res11 w).toNat u st) true

/-- The loss counter's part of R158 (R159): SPK_DROP says whether byte 0 differs from the previous frame's. -/
def spkLoss (loss : Byte) (s : State) : State :=
  let counted := { s with spkDrop := s.lossChanged loss, spkPrev := loss, spkPrevValid := true }
  if s.lossChanged loss then counted.emit .spDropSeen else counted

/-- The completion of R158 at byte 15: loss counter, resolution bit 4 of byte 1 (R160), the seven words; a frame with
no valid word is discarded (R164). UNVERIFIED (log 11): that bit 4 set means 11-bit is the spec's general-knowledge
reading; unsafe. -/
def spkComplete (s : State) : Option State := do
  let loss ← s.bufRead 0
  let counted := spkLoss loss s
  let second ← s.bufRead 1
  let res11 := second.getLsbD 4
  let resolved := { counted with spkRes11 := res11 }
  let (st, any) ← spkStage resolved res11 (List.range 7) Stage.empty false
  pure (if any then resolved.commit st else resolved.emit .discSpEmpty)

/-- `Parse[SPEKTRUM](k, b)` (R158). -/
def parseSpektrum (k : Byte) (s : State) : Option State :=
  if s.parseDone ∨ k ≠ 15 then some s else spkComplete { s with parseDone := true }

/-- Dispatch to the active protocol's parser (R124). -/
def parse (p : SerialProto) (k b : Byte) (s : State) : Option State :=
  match p with
  | .xtreme => parseXtreme k b s
  | .sbus => parseSbus k b s
  | .spektrum => parseSpektrum k s

end Sys2Proof.Machine
end

