-- ==== Sys2Proof/Machine/Assembler.lean ====
section
/-! DEFINITION. The serial frame assembler (spec 42_serial_assembler.md). -/

namespace Sys2Proof.Machine

/-- The gap is taken and LAST_BYTE_T updated on every byte (R121); a gap strictly above the silence threshold starts a
new frame (R122, R128). -/
def frameGap (p : SerialProto) (t : Tick) (s : State) : State :=
  let stamped := { s with lastByteT := t }
  if silenceTicks s.par p < (elapsed t s.lastByteT).toNat then State.emit .frameStart stamped.clearFrame else stamped

/-- The append of R123: the byte goes to BUF[BYTE_COUNT] if capacity remains and is dropped otherwise. DEDUCED (log 7):
with BUF_CAP above 255 the saturated count writes BUF[255] again, as R120's pseudocode says; unsafe for BUF[255]. -/
def appendByte (b : Byte) (s : State) : State :=
  if s.byteCount.toNat < s.par.bufCap then s.bufWrite s.byteCount.toNat b else s.emit .byteDropped

/-- A byte in serial mode `p` (R120): gap and boundary, append, parser, and the increment last (R125). -/
def rxByte (p : SerialProto) (b : Byte) (t : Tick) (s : State) : Option State := do
  let framed := frameGap p t s
  let parsed ← parse p framed.byteCount b (appendByte b framed)
  pure { parsed with byteCount := satInc framed.byteCount }

/-- `RX_BYTE b, t` (R120). The fault is a BufRead at or above BUF_CAP, which R54 says no rule reaches. -/
def execRxByte (b : Byte) (t : Tick) (s : State) : Result :=
  match serialOf s.proto with
  | none => ignored s
  | some p =>
    match rxByte p b t s.begin with
    | some s' => .next s'
    | none => .fault .bufOutOfRange

end Sys2Proof.Machine
end

