-- ==== Sys2Proof/Machine/Capture.lean ====
section
/-! DEFINITION. Edge-triggered pulse capture: PWM and CPPM (spec 41_capture.md). -/

namespace Sys2Proof.Machine

/-- `PWM_RISE ch, t` (R101), refused for a pin that does not exist (R78(a)). -/
def execPwmRise (ch : Nibble) (t : Tick) (s : State) : Result :=
  match s.pulseStart? ch.toNat with
  | none => .refused .noSuchPin
  | some _ =>
    if s.proto = .pwm then
      .next (State.emit .pwmStart { s.begin with pulseStart := s.pulseStart.set ch.toNat t })
    else ignored s

/-- `PWM_FALL ch, t` (R102), refused for a pin that does not exist (R78(a)). ChannelOrder is not consulted (R104). -/
def execPwmFall (ch : Nibble) (t : Tick) (s : State) : Result :=
  match s.pulseStart? ch.toNat with
  | none => .refused .noSuchPin
  | some rise =>
    if s.proto = .pwm then
      let stored := (s.begin.writeRaw ch.toNat (elapsed t rise)).emit .pwmWidth
      .next (if ch.toNat = s.par.pwmFrameCh then stored.commit Stage.empty else stored)
    else ignored s

/-- A gap that starts a new CPPM frame: above SYNC_TICKS or below MIN_PULSE_TICKS, both strictly (R105, R106). -/
def isSyncGap (par : Params) (gap : Tick) : Bool :=
  decide (par.syncTicks < gap.toNat) || decide (gap.toNat < par.minPulseTicks)

/-- The first part of R105: a sync or glitch gap restarts the slot count; a valid gap is the width of slot CH_NUM − 1,
stored if that slot is mapped (R108). With CH_NUM = 0 there is no slot to store (R111(a)). -/
def cppmSlot (gap : Tick) (s : State) : State :=
  if isSyncGap s.par gap then State.emit .cppmSync { s with chNum := 0 }
  else if 1 ≤ s.chNum.toNat then
    match remap s.order (s.chNum.toNat - 1) with
    | some c => (s.writeRaw c gap).emit .cppmSlot
    | none => s
  else s

/-- The overdue check of R105 and R109: a pending report makes MAX_CHAN unknown and is consumed. -/
def cppmRelearn (s : State) : State :=
  if s.overdueReq then State.emit .cppmRelearn { s with maxChan := 0, overdueReq := false } else s

/-- The last part of R105: a saturated edge does nothing more (R111(b)), a new highest count is learned (R110), and
reaching the learned count of at least 2 completes the frame (R111(c)). DEDUCED (log 19): a frame with more channels
than learned passes the learned count on its way, so it commits there and then raises MAX_CHAN, as R105's pseudocode and
D21 have it, although the prose of R110 and R275 says that such a frame commits nothing; unsafe. -/
def cppmComplete (saturated : Bool) (s : State) : State :=
  if saturated then s.emit .cppmSaturated
  else if s.maxChan.toNat < s.chNum.toNat then State.emit .cppmLearn { s with maxChan := s.chNum }
  else if s.chNum = s.maxChan ∧ 2 ≤ s.maxChan.toNat then s.commit Stage.empty
  else s

/-- A CPPM falling edge in CPPM mode (R105): gap, slot, increment, overdue check, learn or complete, in that order. -/
def cppmEdge (t : Tick) (s : State) : State :=
  let slotted := cppmSlot (elapsed t s.cppmLast) { s with cppmLast := t }
  let counted := { slotted with chNum := satInc slotted.chNum }
  cppmComplete (decide (slotted.chNum = 255)) (cppmRelearn counted)

/-- `CPPM_EDGE t` (R105). -/
def execCppmEdge (t : Tick) (s : State) : Result :=
  if s.proto = .cppm then .next (cppmEdge t s.begin) else ignored s

end Sys2Proof.Machine
end

