-- ==== Sys2Proof/Machine/HostPort.lean ====
section
/-! DEFINITION. The host commands: configuration, handshake and reads (spec 45_host_interface.md). -/

namespace Sys2Proof.Machine

/-- `CFG p` (R203): with an invalid table an enabling CFG leaves the block disabled and reports CFG_ERR. -/
def execCfg (p : Proto) (s : State) : Result :=
  if p ≠ .disabled ∧ ¬ OrderValid s.order then
    .next (State.emit .cfgBad { ({ s.begin with proto := .disabled } : State).flush with cfgErr := true })
  else
    .next (State.emit .cfgOk { ({ s.begin with proto := p } : State).flush with cfgErr := false })

/-- A ChannelOrder value that may be written: a logical channel or unmapped (R205). -/
def orderValueLegal (par : Params) (c : Byte) : Bool := c = Config.unmapped || decide (c.toNat < par.nCh)

/-- `ORD_WR w, c` (R205): dropped, with CFG_ERR set, while a protocol is enabled or for an illegal value. -/
def execOrdWr (w : Nibble) (c : Byte) (s : State) : Result :=
  if s.proto ≠ .disabled ∨ orderValueLegal s.par c = false then
    .next (State.emit .ordDropped { s.begin with cfgErr := true })
  else
    .next (State.emit .ordOk { s.begin with order := setOrderAt s.order w c })

/-- `ORD_RD w` (R206): `ret <- zext_16(ORDER[w])`. -/
def execOrdRd (w : Nibble) (s : State) : Result :=
  .next (s.begin.answer (.half ((orderAt s.order w).setWidth 16)))

/-- `FR_CLR` (R207): `FR <- 0`. -/
def execFrClr (s : State) : Result := .next { s.begin with fr := false }

/-- `OVERDUE` (R208): `OVERDUE_REQ <- 1`. -/
def execOverdue (s : State) : Result := .next { s.begin with overdueReq := true }

/-- `CH_RD c` (R209): `ret <- RAW[c]`, refused for a channel that does not exist (R78(b)). -/
def execChRd (c : Nibble) (s : State) : Result :=
  match s.raw? c.toNat with
  | some v => .next (s.begin.answer (.half v))
  | none => .refused .noSuchChannel

/-- `ST_RD` (R210): `ret <- STATUS`. -/
def execStRd (s : State) : Result := .next (s.begin.answer (.full s.status))

end Sys2Proof.Machine
end

