-- ==== Sys2Proof/Machine/Timer.lean ====
section
/-! DEFINITION. The timer read (spec 40_timer.md). -/

namespace Sys2Proof.Machine

/-- `TMR_RD t` (R92): `ret <- T`. No state is written. -/
def execTmrRd (t : Tick) (s : State) : Result := .next (s.begin.answer (.half t))

end Sys2Proof.Machine
end

