-- ==== Sys2Proof/Machine/Dispatch.lean ====
section
/-! DEFINITION. One arm per constructor of `Instr` (spec R73–R75). -/

namespace Sys2Proof.Machine
open Sys2Proof

def exec (i : Instr) (s : State) : Host.Outcome State Fault Refusal :=
  match i with
  | .pwmRise ch t => Sys2Proof.Machine.execPwmRise ch t s
  | .pwmFall ch t => Sys2Proof.Machine.execPwmFall ch t s
  | .cppmEdge t => Sys2Proof.Machine.execCppmEdge t s
  | .rxByte b t => Sys2Proof.Machine.execRxByte b t s
  | .tmrRd t => Sys2Proof.Machine.execTmrRd t s
  | .cfg p => Sys2Proof.Machine.execCfg p s
  | .ordWr w c => Sys2Proof.Machine.execOrdWr w c s
  | .ordRd w => Sys2Proof.Machine.execOrdRd w s
  | .frClr => Sys2Proof.Machine.execFrClr s
  | .overdue => Sys2Proof.Machine.execOverdue s
  | .chRd c => Sys2Proof.Machine.execChRd c s
  | .stRd => Sys2Proof.Machine.execStRd s

end Sys2Proof.Machine
end

