-- ==== Sys2Proof/Machine/Step.lean ====
section
/-! DEFINITION. One step of the block: the next word the environment or the host presents (spec R59) is decoded (R76)
and its operation executed as one atomic step (R18). Also runs of several words. -/

namespace Sys2Proof.Machine

/-- The step that takes the word `w`: its operation, or a refusal for a word that spells none (R76–R79). -/
def stepWord (w : Word) (s : State) : Result :=
  match decode w with
  | .ok i => exec i s
  | .error e => .refused (.undecodable e)

/-- One step. With no word presented nothing happens: every piece of the block's state keeps its value (R247) and
there is no output record (log 3). -/
def step (s : State) : Host.Outcome State Fault Refusal :=
  match s.input with
  | [] => .next { s with out := none }
  | w :: rest => stepWord w { s with input := rest }

/-- `s` with the word of `nbits` bits `w`, every bit above them 0, presented as the next one. -/
def State.withFetchWord (s : State) (nbits w : Nat) : State :=
  { s with input := BitVec.ofNat 32 (w % 2 ^ nbits) :: s.input }

/-- Operations executed one after another, stopping at the first fault or refusal. -/
def execAll : List Instr → State → Result
  | [], s => .next s
  | i :: is, s =>
    match exec i s with
    | .next s' => execAll is s'
    | .fault f => .fault f
    | .refused r => .refused r

end Sys2Proof.Machine
end

