-- ==== Sys2Proof/Machine/Pseudo.lean ====
section
/-! DEFINITION. The pseudo-instructions and their expansions (spec R83). -/

namespace Sys2Proof.Machine

/-- The sixteen table writes of CONFIGURE (R83). -/
def orderWrites (o : Vector Byte 16) : List Instr :=
  (List.finRange 16).map fun w => .ordWr (BitVec.ofFin w) o[w]

/-- `CONFIGURE p, o0, …, o15` (R83, R201): disable, write the table, enable. -/
def configure (p : Proto) (o : Vector Byte 16) : List Instr := .cfg .disabled :: (orderWrites o ++ [.cfg p])

/-- `PWM_PULSE ch, t0, w` (R83). -/
def pwmPulse (ch : Nibble) (t0 w : Tick) : List Instr := [.pwmRise ch t0, .pwmFall ch (t0 + w)]

/-- `CPPM_TRAIN t0, w0, …` (R83): one more edge than there are widths. -/
def cppmTrain (t0 : Tick) : List Tick → List Instr
  | [] => [.cppmEdge t0]
  | w :: ws => .cppmEdge t0 :: cppmTrain (t0 + w) ws

/-- `RX_FRAME t0, dt, b0, …` (R83): one byte every `dt` ticks. -/
def rxFrame (t0 dt : Tick) : List Byte → List Instr
  | [] => []
  | b :: bs => .rxByte b t0 :: rxFrame (t0 + dt) dt bs

/-- `POLL` (R83). -/
def poll : List Instr := [.stRd]

/-- `ACK` (R83). -/
def ack : List Instr := [.frClr]

end Sys2Proof.Machine
end

