-- ==== Sys2Proof/Safety.lean ====
section
/-! DEFINITION. What counts as a sound state and a safe run of the block, in the terms the statements use. -/

namespace Sys2Proof.Machine

/-- The outcome is a next state. -/
def Completes (r : Result) : Prop := ∃ s', r = .next s'

/-- The outcome is a refusal (R79). -/
def IsRefused (r : Result) : Prop := ∃ why, r = .refused why

/-- The per-frame and first-interval registers of the serial side hold what Flush leaves (R204). -/
structure SerialIdle (s : State) : Prop where
  lastByteT : s.lastByteT = 0
  byteCount : s.byteCount = 0
  parseDone : s.parseDone = false

/-- The Xtreme registers hold what Flush leaves (R204). -/
structure XtremeIdle (s : State) : Prop where
  xtSum : s.xtSum = 0
  xtPoison : s.xtPoison = false
  xtMask : s.xtMask = 0
  xtLen : s.xtLen = 0

/-- The Spektrum registers hold what Flush leaves (R204). -/
structure SpektrumIdle (s : State) : Prop where
  spkPrev : s.spkPrev = 0
  spkPrevValid : s.spkPrevValid = false
  spkDrop : s.spkDrop = false
  spkRes11 : s.spkRes11 = false

/-- The CPPM registers hold what Flush leaves (R204). -/
structure CppmIdle (s : State) : Prop where
  cppmLast : s.cppmLast = 0
  chNum : s.chNum = 0
  maxChan : s.maxChan = 0

/-- Every register that only one input source writes is as Flush leaves it while another source is selected. -/
structure InactiveIdle (s : State) : Prop where
  serial : serialOf s.proto = none → SerialIdle s
  xtreme : s.proto ≠ .xtreme → XtremeIdle s
  sbus : s.proto ≠ .sbus → s.sbusFs = false
  spektrum : s.proto ≠ .spektrum → SpektrumIdle s
  cppm : s.proto ≠ .cppm → CppmIdle s

/-- Byte `i` of the frame in BUF. (From BUF_CAP on, where there is no entry, 0.) -/
def State.frameByte (s : State) (i : Nat) : Byte := (s.bufRead i).getD 0

/-- While an Xtreme frame is open, its registers are what the `BYTE_COUNT` bytes it has put into BUF so far give (R41,
R142–R146). -/
structure XtremeTracksFrame (s : State) : Prop where
  /-- XT_SUM is the sum of the bytes, modulo 256 (R146). -/
  sum : s.xtSum = ((List.range s.byteCount.toNat).map s.frameByte).sum
  /-- XT_POISON says whether byte 0 has one of bits 7:5 set (R144; the bits are UNVERIFIED, log 11). -/
  poison : s.xtPoison = (decide (1 ≤ s.byteCount.toNat) && decide ((s.frameByte 0).extractLsb' 5 3 ≠ 0))
  /-- XT_MASK is bytes 2 and 3, as far as they have come (R145). -/
  mask : s.xtMask =
    (if 3 ≤ s.byteCount.toNat then s.frameByte 2 else 0) ++ (if 4 ≤ s.byteCount.toNat then s.frameByte 3 else 0)
  /-- From byte 3 on XT_LEN is the checksum's index, and the count is not past it (R143). -/
  length : 4 ≤ s.byteCount.toNat → s.xtLen.toNat = 4 + 2 * popcount s.xtMask ∧ s.byteCount.toNat ≤ s.xtLen.toNat

/-- The invariant of the block: what the spec says is "ever held", and what R54 and R127 say of BUF. -/
structure Inv (s : State) : Prop where
  /-- The parameters meet their constraints (R8–R16). -/
  parValid : s.par.Valid
  /-- RAW has N_CH elements (R22). -/
  rawLength : s.raw.length = s.par.nCh
  /-- PULSE_START has N_PWM elements (R23). -/
  pulseLength : s.pulseStart.length = s.par.nPwm
  /-- Each ORDER entry is a logical channel or unmapped (R25). -/
  orderLegal : ∀ w : Fin 16, s.order[w] = Config.unmapped ∨ s.order[w].toNat < s.par.nCh
  /-- A protocol is enabled only with a valid table (R26, R203, R205). -/
  enabledOrderValid : s.proto ≠ .disabled → OrderValid s.order
  /-- BUF is in canonical form. -/
  bufWf : Memory.wf s.buf = true
  /-- Only BUF[0..BUF_CAP−1] is ever written (R127). -/
  bufBounded : ∀ c ∈ s.buf, c.1 < s.par.bufCap
  /-- The registers of an open Xtreme frame agree with its bytes in BUF (R41, R54, R142–R146). -/
  xtremeTracks : s.proto = .xtreme → s.parseDone = false → XtremeTracksFrame s

/-- Contents that BUF can have: canonical, and inside its capacity (R40, R127). -/
structure BufContents (p : Params) (m : Memory) : Prop where
  wf : Memory.wf m = true
  bounded : ∀ c ∈ m, c.1 < p.bufCap

/-- The record of a step that returns nothing and does not commit (R84). -/
def quiet (tags : List Tag) : Option Output := some ⟨none, tags, false⟩

/-- The record of a step that commits (R84, R186). -/
def committed (tags : List Tag) : Option Output := some ⟨none, tags, true⟩

/-- The record of a read (R84). -/
def answered (v : Ret) : Option Output := some ⟨some v, [], false⟩

/-- Two states differ at most in the output record of the step that led to them. -/
def SameButOutput (s t : State) : Prop := { s with out := t.out } = t

/-- A byte at `t` continues the frame in mode `p`: its gap does not exceed the silence threshold (R122, R128). -/
def ContinuesFrame (p : SerialProto) (t : Tick) (s : State) : Prop :=
  (elapsed t s.lastByteT).toNat ≤ silenceTicks s.par p

/-- BUF after the append of a byte (R123). -/
def appendedBuf (b : Byte) (s : State) : Memory :=
  if s.byteCount.toNat < s.par.bufCap then Memory.write s.buf s.byteCount.toNat b else s.buf

/-- The S-Bus stream bit `i` of the frame in BUF: bit `i mod 8` of byte `1 + floor(i/8)` (R52). -/
def bufStreamBit (s : State) (i : Nat) : Bool := (s.frameByte (1 + i / 8)).getLsbD (i % 8)

/-- The channel number of word `i` of a Spektrum frame in BUF, none for the invalid channel 15 (R161, R162). -/
def spkWordChannel? (s : State) (res11 : Bool) (i : Nat) : Option Nibble :=
  match s.bufWordBE (2 + 2 * i) with
  | some w => if spkChannel res11 w = 15 then none else some (spkChannel res11 w)
  | none => none

/-- The 22 data bytes of an S-Bus frame that carries sixteen 11-bit values: the inverse of R52 (R188). -/
def sbusPack (x : Fin 16 → BitVec 11) : List Byte :=
  (List.range 22).map fun i =>
    BitVec.ofNat 8 ((List.range 8).map fun m =>
      ((x (Fin.ofNat 16 ((8 * i + m) / 11))).getLsbD ((8 * i + m) % 11)).toNat <<< m).sum

/-- A 25-byte S-Bus frame: start 0xF0, data, flags 0x00, end 0x00 (R188). -/
def sbusFrame (x : Fin 16 → BitVec 11) : List Byte := 0xF0 :: (sbusPack x ++ [0x00, 0x00])

/-- An Xtreme frame: flags byte, byte 1, mask, value bytes, and the mod-256 sum of them all (R143, R146). -/
def xtremeFrame (flags second : Byte) (mask : BitVec 16) (values : List Byte) : List Byte :=
  let payload := flags :: second :: mask.extractLsb' 8 8 :: mask.extractLsb' 0 8 :: values
  payload ++ [payload.sum]

/-- Whether a Spektrum frame is 11-bit: bit 4 of byte 1 (R160). -/
def spkFrameRes11 (f : List Byte) : Bool := (f.getD 1 0).getLsbD 4

/-- Word `i` of a Spektrum frame, first byte high (R161). -/
def spkFrameWord (f : List Byte) (i : Nat) : BitVec 16 := f.getD (2 + 2 * i) 0 ++ f.getD (3 + 2 * i) 0

/-- Word `i` of a 16-byte Spektrum frame carries channel `ch`; the invalid channel 15 is carried by none (R162). -/
def SpkCarries (f : List Byte) (i : Nat) (ch : Nibble) : Prop :=
  i < 7 ∧ ch ≠ 15 ∧ spkChannel (spkFrameRes11 f) (spkFrameWord f i) = ch

/-- The value word `i` of a Spektrum frame publishes (R163). -/
def spkFrameValue (par : Params) (f : List Byte) (i : Nat) : Tick :=
  transform par (spkCodec (spkFrameRes11 f)) (spkValue (spkFrameRes11 f) (spkFrameWord f i))

/-- A first byte at `t` is byte 0 of a frame in mode `p`: it follows silence, or no byte has come since CFG (R122,
R126). -/
def StartsFrame (p : SerialProto) (t : Tick) (s : State) : Prop :=
  silenceTicks s.par p < (elapsed t s.lastByteT).toNat ∨ (s.byteCount = 0 ∧ s.parseDone = false ∧ XtremeIdle s)

/-- Serial bytes received one after another, each with its own sample. -/
def rxTimed (bs : List Byte) (ts : List Tick) : List Instr := List.zipWith Instr.rxByte bs ts

/-- No frame boundary in mode `p` among bytes with the samples `ts` that follow a byte at `last`: no gap exceeds the
silence threshold (R122, R128). -/
def Unbroken (par : Params) (p : SerialProto) : Tick → List Tick → Prop
  | _, [] => True
  | last, t :: ts => (elapsed t last).toNat ≤ silenceTicks par p ∧ Unbroken par p t ts

/-- How many steps of a run commit (R186), up to where it stops. -/
def commitsIn : List Instr → State → Nat
  | [], _ => 0
  | i :: is, s =>
    match exec i s with
    | .next t => t.record.strobe.toNat + commitsIn is t
    | .fault _ => 0
    | .refused _ => 0

/-- A PWM event on pin `ch` (R73). -/
def IsPwmEventOn (ch : Nibble) (i : Instr) : Prop := ∃ t, i = .pwmRise ch t ∨ i = .pwmFall ch t

/-- `CFG` of some protocol. -/
def IsCfg (i : Instr) : Prop := ∃ p, i = .cfg p

/-- A `CPPM_EDGE` processed in CPPM mode. -/
def IsCppmEdge (s : State) (i : Instr) : Prop := s.proto = .cppm ∧ ∃ t, i = .cppmEdge t

/-- An `RX_BYTE` processed in the serial mode `p`. -/
def IsByteIn (p : SerialProto) (s : State) (i : Instr) : Prop := serialOf s.proto = some p ∧ ∃ b t, i = .rxByte b t

/-- An `RX_BYTE` processed in a serial mode. -/
def IsSerialByte (s : State) (i : Instr) : Prop := ∃ p, IsByteIn p s i

/-- An `RX_BYTE` processed in a serial mode at a frame boundary (R122). -/
def StartsNewFrame (s : State) (i : Instr) (t : State) : Prop := IsSerialByte s i ∧ .frameStart ∈ t.record.tags

/-- The byte that completes a Spektrum frame structurally: the step sets PARSE_DONE (R141, R158). -/
def CompletesSpektrum (s : State) (i : Instr) (t : State) : Prop :=
  IsByteIn .spektrum s i ∧ s.parseDone = false ∧ t.parseDone = true

/-- The operation `i`, which took `s` to `t`, changed each register of 10_state.md only if the register's rule names it as
a writer. -/
structure WritesByRule (i : Instr) (s t : State) : Prop where
  /-- A commit, in PWM_FALL, CPPM_EDGE or RX_BYTE of the selected source (R186). -/
  strobe : t.record.strobe = true → (s.proto = .pwm ∧ ∃ ch v, i = .pwmFall ch v) ∨ IsCppmEdge s i ∨ IsSerialByte s i
  /-- R22: PWM_FALL, CPPM_EDGE, and the commit of a serial frame. -/
  raw : t.raw ≠ s.raw →
    (s.proto = .pwm ∧ ∃ ch v, i = .pwmFall ch v) ∨ IsCppmEdge s i ∨ (IsSerialByte s i ∧ t.record.strobe = true)
  /-- R23. -/
  pulseStart : t.pulseStart ≠ s.pulseStart → s.proto = .pwm ∧ ∃ ch v, i = .pwmRise ch v
  /-- R24. -/
  proto : t.proto ≠ s.proto → IsCfg i
  /-- R25, R205. -/
  order : t.order ≠ s.order → s.proto = .disabled ∧ ∃ w c, i = .ordWr w c
  /-- R27. -/
  frFalls : s.fr = true → t.fr = false → i = .frClr
  /-- R27. -/
  frRises : s.fr = false → t.fr = true → t.record.strobe = true
  /-- R28: CFG, and the commit of an S-Bus frame. -/
  sbusFs : t.sbusFs ≠ s.sbusFs → IsCfg i ∨ (IsByteIn .sbus s i ∧ t.record.strobe = true)
  /-- R29. -/
  spkDrop : t.spkDrop ≠ s.spkDrop → IsCfg i ∨ CompletesSpektrum s i t
  /-- R30. -/
  spkRes11 : t.spkRes11 ≠ s.spkRes11 → IsCfg i ∨ CompletesSpektrum s i t
  /-- R31. -/
  overdueRises : s.overdueReq = false → t.overdueReq = true → i = .overdue
  /-- R31. -/
  overdueFalls : s.overdueReq = true → t.overdueReq = false → IsCfg i ∨ IsCppmEdge s i
  /-- R32. -/
  cfgErrFalls : s.cfgErr = true → t.cfgErr = false → IsCfg i
  /-- R32. -/
  cfgErrRises : s.cfgErr = false → t.cfgErr = true → IsCfg i ∨ ∃ w c, i = .ordWr w c
  /-- R33. -/
  commitCnt : t.commitCnt ≠ s.commitCnt → t.record.strobe = true
  /-- R35. -/
  cppmLast : t.cppmLast ≠ s.cppmLast → IsCfg i ∨ IsCppmEdge s i
  /-- R36. -/
  chNum : t.chNum ≠ s.chNum → IsCfg i ∨ IsCppmEdge s i
  /-- R37. -/
  maxChan : t.maxChan ≠ s.maxChan → IsCfg i ∨ IsCppmEdge s i
  /-- R38. -/
  lastByteT : t.lastByteT ≠ s.lastByteT → IsCfg i ∨ IsSerialByte s i
  /-- R39. -/
  byteCount : t.byteCount ≠ s.byteCount → IsCfg i ∨ IsSerialByte s i
  /-- R40. -/
  buf : t.buf ≠ s.buf → IsSerialByte s i
  /-- R41: CFG, the frame boundary of any serial mode, and the Xtreme parser. -/
  xtSum : t.xtSum ≠ s.xtSum → IsCfg i ∨ StartsNewFrame s i t ∨ IsByteIn .xtreme s i
  /-- R41. -/
  xtPoison : t.xtPoison ≠ s.xtPoison → IsCfg i ∨ StartsNewFrame s i t ∨ IsByteIn .xtreme s i
  /-- R41. -/
  xtMask : t.xtMask ≠ s.xtMask → IsCfg i ∨ StartsNewFrame s i t ∨ IsByteIn .xtreme s i
  /-- R41. -/
  xtLen : t.xtLen ≠ s.xtLen → IsCfg i ∨ StartsNewFrame s i t ∨ IsByteIn .xtreme s i
  /-- R41: a frame reaches structural completion. -/
  parseDoneRises : s.parseDone = false → t.parseDone = true → IsSerialByte s i
  /-- R41: CFG and the frame boundary. -/
  parseDoneFalls : s.parseDone = true → t.parseDone = false → IsCfg i ∨ StartsNewFrame s i t
  /-- R42. -/
  spkPrev : t.spkPrev ≠ s.spkPrev → IsCfg i ∨ CompletesSpektrum s i t
  /-- R42. -/
  spkPrevValid : t.spkPrevValid ≠ s.spkPrevValid → IsCfg i ∨ CompletesSpektrum s i t

end Sys2Proof.Machine
end

