-- ==== Sys2Proof/WellFormed.lean ====
section
/-! DEFINITION. Which terms of `Instr` name an operation of a block with given parameters: the value checks of
spec R78. (R78(c), a protocol code of 6 or more, has no term: `Proto` holds the six codes only, and the decoder
refuses the others.) -/

namespace Sys2Proof

/-- The value checks of R78(a) and R78(b). An out-of-range ORDER value is not refused (R78, R205). -/
def Instr.wellFormed (p : Params) : Instr → Bool
  | .pwmRise ch _ => ch.toNat < p.nPwm
  | .pwmFall ch _ => ch.toNat < p.nPwm
  | .cppmEdge _ => true
  | .rxByte _ _ => true
  | .tmrRd _ => true
  | .cfg _ => true
  | .ordWr _ _ => true
  | .ordRd _ => true
  | .frClr => true
  | .overdue => true
  | .chRd c => c.toNat < p.nCh
  | .stRd => true

/-- The edge and byte words of R73: the receiver events, which PROTO enables or disables (R238). -/
def Instr.isReceiverEvent : Instr → Bool
  | .pwmRise _ _ => true
  | .pwmFall _ _ => true
  | .cppmEdge _ => true
  | .rxByte _ _ => true
  | .tmrRd _ => false
  | .cfg _ => false
  | .ordWr _ _ => false
  | .ordRd _ => false
  | .frClr => false
  | .overdue => false
  | .chRd _ => false
  | .stRd => false

end Sys2Proof
end

