-- ==== Sys2Proof/Certificates/Slice0/Obligations.lean ====
section
/-! DEFINITION. The statements for the provers, one `def Obligations.<Name> : Prop` each. A docstring names the rule
of the spec a statement formalises. Parameters are universally quantified everywhere: they are the field `par`. -/

open Sys2Proof Sys2Proof.Machine

-- Encoding

/-- Decoding the encoding of any operation gives it back, for every operand value (R70, R73–R75, R82). -/
def Obligations.DecodeEncodeRoundTrip : Prop := ∀ i : Instr, decode (encode i) = .ok i

/-- The fields an operation does not use are ignored (R72): the operation's own word agrees with every word that
decodes to it on the used bits, and every word with these used bits decodes to it. -/
def Obligations.UnusedFieldsIgnored : Prop :=
  ∀ (w : Word) (i : Instr), decode w = .ok i →
    encode i = w &&& usedBits i ∧ ∀ v : Word, v &&& usedBits i = w &&& usedBits i → decode v = .ok i

/-- The decoder is total and refuses exactly the reserved OP values (R77) and the protocol codes from 6 (R78(c)). -/
def Obligations.DecoderRefusesExactlyReserved : Prop :=
  ∀ w : Word,
    (decode w = .error (.reservedOp w.op) ↔ w.op = 0x0 ∨ w.op = 0x6 ∨ w.op = 0x7 ∨ w.op = 0xF) ∧
    (decode w = .error (.reservedProtocol w.fieldA) ↔ w.op = 0x8 ∧ 6 ≤ w.fieldA.toNat) ∧
    ((∃ i, decode w = .ok i) ↔
      ¬(w.op = 0x0 ∨ w.op = 0x6 ∨ w.op = 0x7 ∨ w.op = 0xF) ∧ ¬(w.op = 0x8 ∧ 6 ≤ w.fieldA.toNat))

/-- Words written out from R82 decode to the operations they stand for, one per family. -/
def Obligations.SpelledWordsDecode : Prop :=
  decode 0x1200FF00 = .ok (.pwmRise 2 0xFF00) ∧
  decode 0x270013EC = .ok (.pwmFall 7 5100) ∧
  decode 0x30002710 = .ok (.cppmEdge 10000) ∧
  decode 0x40F82258 = .ok (.rxByte 0xF8 0x2258) ∧
  decode 0x50001234 = .ok (.tmrRd 0x1234) ∧
  decode 0x84000000 = .ok (.cfg .sbus) ∧
  decode 0x92FF0000 = .ok (.ordWr 2 0xFF) ∧
  decode 0xE0000000 = .ok .stRd

-- The step

/-- A step takes the next word and runs the operation it decodes to as one step, and the words after it stay to be
presented (R18, R59, R76). That the words wait in a list of the state is the model's choice (log 3). -/
def Obligations.StepRunsDecodedInstruction : Prop :=
  ∀ (s : State) (w : Word) (rest : List Word) (i : Instr), s.input = w :: rest → decode w = .ok i →
    step s = exec i { s with input := rest } ∧ ∀ t, step s = .next t → t.input = rest

/-- The words that are refused are exactly those of R77 and R78, and an out-of-range ORDER value is not refused but
dropped. -/
def Obligations.RefusedWordsExactly : Prop :=
  (∀ (s : State) (w : Word) (rest : List Word), Inv s → s.input = w :: rest →
    (IsRefused (step s) ↔
      (w.op = 0x0 ∨ w.op = 0x6 ∨ w.op = 0x7 ∨ w.op = 0xF) ∨
      ((w.op = 0x1 ∨ w.op = 0x2) ∧ s.par.nPwm ≤ w.fieldA.toNat) ∨
      (w.op = 0xD ∧ s.par.nCh ≤ w.fieldA.toNat) ∨
      (w.op = 0x8 ∧ 6 ≤ w.fieldA.toNat))) ∧
  ∀ (w : Nibble) (c : Byte) (s : State), c ≠ 0xFF → s.par.nCh ≤ c.toNat →
    exec (.ordWr w c) s = .next { s with cfgErr := true, out := quiet [.ordDropped] }

/-- From a state that satisfies the invariant every legal word completes, and no step faults (R230, R236). -/
def Obligations.EveryLegalWordCompletes : Prop :=
  ∀ s : State, Inv s →
    (∀ i : Instr, i.wellFormed s.par = true → Completes (exec i s)) ∧ ∀ f : Fault, step s ≠ .fault f

-- Invariants

/-- The reset state of any block with valid parameters satisfies the invariant, whatever BUF holds, and no source's
registers are in use (R260). -/
def Obligations.ResetSatisfiesInvariant : Prop :=
  ∀ (p : Params) (contents : Memory), p.Valid → BufContents p contents →
    Inv (State.resetWith p contents) ∧ InactiveIdle (State.resetWith p contents)

/-- Every step keeps the invariant: table entries legal, a protocol enabled only with a valid table, BUF canonical and
inside its capacity, and while an Xtreme frame is open XT_SUM, XT_POISON, XT_MASK and XT_LEN what the frame's bytes in BUF
give (R22–R26, R41, R54, R127, R142–R146). That the poisoning bits are 7:5 is a reading the spec marks as general
knowledge (log 11). -/
def Obligations.StepKeepsInvariant : Prop :=
  ∀ s t : State, Inv s → step s = .next t → Inv t

/-- Every step keeps the registers of the inactive sources as Flush leaves them (R204, R232). -/
def Obligations.StepKeepsInactiveIdle : Prop :=
  ∀ s t : State, InactiveIdle s → step s = .next t → InactiveIdle t

/-- CH_NUM never exceeds MAX_CHAN unless it is saturated, and every step keeps it so (R105, R110, R111(b)). -/
def Obligations.SlotCountWithinLearnedCount : Prop :=
  ∀ s t : State, (s.chNum.toNat ≤ s.maxChan.toNat ∨ s.chNum = 255) → step s = .next t →
    (t.chNum.toNat ≤ t.maxChan.toNat ∨ t.chNum = 255)

/-- No operation changes the parameters, the words still to come, or the numbers of channels and pins (R213, R264).
That parameters and words are fields of the state is the model's choice (log 1, log 3). -/
def Obligations.ParametersAndSizesFixed : Prop :=
  ∀ (i : Instr) (s t : State), exec i s = .next t →
    t.par = s.par ∧ t.input = s.input ∧ t.raw.length = s.raw.length ∧ t.pulseStart.length = s.pulseStart.length

/-- After reset the block is disabled: every receiver event is ignored, every other operation completes, and STATUS
reads 0 (R262). -/
def Obligations.ResetEntryState : Prop :=
  ∀ (p : Params) (contents : Memory), p.Valid →
    let r := State.resetWith p contents
    r.proto = .disabled ∧ r.status = 0x00000000 ∧
    ∀ i : Instr, i.wellFormed p = true →
      if i.isReceiverEvent = true then exec i r = .next { r with out := quiet [.ignored] }
      else Completes (exec i r)

/-- After reset RAW holds the default fill, ORDER the identity below N_CH and unmapped above, and PULSE_START 0, as
the host reads them (R22, R23, R25). The fill and the table are the spec's own choice (R16, R25, log 12). BUF may hold any
bytes: for every byte given to every index there is a reset state that holds them (R40, R260). -/
def Obligations.ResetReadsDefaults : Prop :=
  ∀ p : Params, p.Valid →
    (∀ contents : Memory,
      let r := State.resetWith p contents
      (∀ (c : Nibble) (v : Tick), p.defaultFill[c.toNat]? = some v →
        exec (.chRd c) r = .next { r with out := answered (.half v) }) ∧
      (∀ w : Nibble, exec (.ordRd w) r = .next { r with
        out := answered (.half (if w.toNat < p.nCh then w.setWidth 16 else 0x00FF)) }) ∧
      ∀ ch : Nat, ch < p.nPwm → r.pulseStart? ch = some 0x0000) ∧
    ∀ bytes : Nat → Byte, ∃ contents : Memory, BufContents p contents ∧
      ∀ i : Nat, i < p.bufCap → (State.resetWith p contents).bufRead i = some (bytes i)

-- Timer

/-- TMR_RD returns its sample and changes no state (R92). -/
def Obligations.TmrRdReturnsSample : Prop :=
  (∀ w : Word, w.op = 0x5 → decode w = .ok (.tmrRd w.fieldT)) ∧
  ∀ (t : Tick) (s : State), exec (.tmrRd t) s = .next { s with out := answered (.half t) }

/-- The wraparound-safe subtraction is (a − b) mod 65536, and gives the true elapsed time below 65536 ticks and its
residue otherwise (R91). -/
def Obligations.ElapsedRecoversTrueInterval : Prop :=
  (∀ a b : Tick, ((elapsed a b).toNat : Int) = ((a.toNat : Int) - b.toNat) % 65536) ∧
  ∀ (b : Tick) (e : Nat), (elapsed (b + BitVec.ofNat 16 e) b).toNat = e % 65536 ∧
    (e < 65536 → (elapsed (b + BitVec.ofNat 16 e) b).toNat = e)

-- PWM

/-- PWM_RISE (R101): refused without such a pin, ignored outside PWM mode, otherwise PULSE_START[ch] takes the sample
and nothing else changes. -/
def Obligations.PwmRiseRecordsSample : Prop :=
  (∀ w : Word, w.op = 0x1 → decode w = .ok (.pwmRise w.fieldA w.fieldT)) ∧
  ∀ (ch : Nibble) (t : Tick) (s : State), s.pulseStart.length = s.par.nPwm →
    (s.par.nPwm ≤ ch.toNat → exec (.pwmRise ch t) s = .refused .noSuchPin) ∧
    (ch.toNat < s.par.nPwm → s.proto ≠ .pwm →
      exec (.pwmRise ch t) s = .next { s with out := quiet [.ignored] }) ∧
    (ch.toNat < s.par.nPwm → s.proto = .pwm →
      exec (.pwmRise ch t) s =
        .next { s with pulseStart := s.pulseStart.set ch.toNat t, out := quiet [.pwmStart] })

/-- PWM_FALL (R102): refused without such a pin, ignored outside PWM mode, otherwise RAW[ch] takes the width, and on
the designated channel the step commits. Nothing else changes. -/
def Obligations.PwmFallStoresWidth : Prop :=
  (∀ w : Word, w.op = 0x2 → decode w = .ok (.pwmFall w.fieldA w.fieldT)) ∧
  ∀ (ch : Nibble) (t : Tick) (s : State), s.pulseStart.length = s.par.nPwm →
    (s.par.nPwm ≤ ch.toNat → exec (.pwmFall ch t) s = .refused .noSuchPin) ∧
    (ch.toNat < s.par.nPwm → s.proto ≠ .pwm →
      exec (.pwmFall ch t) s = .next { s with out := quiet [.ignored] }) ∧
    (∀ rise : Tick, s.pulseStart[ch.toNat]? = some rise → s.proto = .pwm → ch.toNat ≠ s.par.pwmFrameCh →
      exec (.pwmFall ch t) s =
        .next { s with raw := s.raw.set ch.toNat (elapsed t rise), out := quiet [.pwmWidth] }) ∧
    (∀ rise : Tick, s.pulseStart[ch.toNat]? = some rise → s.proto = .pwm → ch.toNat = s.par.pwmFrameCh →
      exec (.pwmFall ch t) s =
        .next { s with
          raw := s.raw.set ch.toNat (elapsed t rise)
          fr := true
          commitCnt := s.commitCnt + 1
          out := committed [.pwmWidth, .commit] })

/-- PWM events on two different pins give the same state in either order (R241). -/
def Obligations.PwmPinsCommute : Prop :=
  ∀ (s : State) (a b : Nibble) (i j : Instr), Inv s → a ≠ b → IsPwmEventOn a i → IsPwmEventOn b j →
    a.toNat < s.par.nPwm → b.toNat < s.par.nPwm →
    ∃ u v, execAll [i, j] s = .next u ∧ execAll [j, i] s = .next v ∧ SameButOutput u v

-- CPPM

/-- CPPM_EDGE (R105) in full: gap, sync or slot write, saturating count, overdue relearn, then saturation, learning or
completion. With `n` the slot count after the sync test, slot `n − 1` is stored if mapped. Nothing else changes. Where a frame has more
channels than learned, the completing case is R105's pseudocode and D21, the model's choice against the prose of R110 and
R275, by which such a frame commits nothing (log 19). -/
def Obligations.CppmEdgeFollowsRule : Prop :=
  (∀ w : Word, w.op = 0x3 → decode w = .ok (.cppmEdge w.fieldT)) ∧
  (∀ (t : Tick) (s : State), s.proto ≠ .cppm →
    exec (.cppmEdge t) s = .next { s with out := quiet [.ignored] }) ∧
  ∀ (t : Tick) (s : State), s.proto = .cppm →
    let gap := elapsed t s.cppmLast
    let sync : Prop := s.par.syncTicks < gap.toNat ∨ gap.toNat < s.par.minPulseTicks
    let n := if sync then 0 else s.chNum.toNat
    let slot := if n = 0 then none else remap s.order (n - 1)
    let count := min (n + 1) 255
    let known := if s.overdueReq then 0 else s.maxChan.toNat
    let learns : Prop := n ≠ 255 ∧ known < count
    let completes : Prop := n ≠ 255 ∧ count = known ∧ 2 ≤ known
    exec (.cppmEdge t) s = .next { s with
      cppmLast := t
      raw := match slot with
        | some c => s.raw.set c gap
        | none => s.raw
      chNum := BitVec.ofNat 8 count
      overdueReq := false
      maxChan := BitVec.ofNat 8 (if learns then count else known)
      fr := s.fr || decide completes
      commitCnt := if completes then s.commitCnt + 1 else s.commitCnt
      out := some
        { ret := none
          tags :=
            (if sync then [.cppmSync] else if slot.isSome then [.cppmSlot] else []) ++
            (if s.overdueReq then [.cppmRelearn] else []) ++
            (if n = 255 then [.cppmSaturated] else if learns then [.cppmLearn]
              else if completes then [.commit] else [])
          strobe := decide completes } }

/-- The channel-count learning law (R107) for a frame of k widths: a sync gap, or a glitch that starts a frame as one
does (R106), ended at `t0`, then the edges of `CPPM_TRAIN t0, ws`. After the frame's first m + 1 edges CH_NUM is m + 1,
saturating at 255 (R111(b)), the mapped slots below m hold their widths and the other channels are untouched. Starting
unknown, or with an overdue report pending (R109), the frame teaches MAX_CHAN = k + 1, saturating too, and commits
nothing; with MAX_CHAN = k + 1 it commits exactly once, at its last edge. -/
def Obligations.CppmLearningLaw : Prop :=
  ∀ (s : State) (t0 : Tick) (ws : List Tick), Inv s → s.proto = .cppm →
    (s.par.syncTicks < (elapsed t0 s.cppmLast).toNat ∨ (elapsed t0 s.cppmLast).toNat < s.par.minPulseTicks) →
    1 ≤ ws.length →
    (∀ w ∈ ws, w.toNat ≤ s.par.syncTicks ∧ s.par.minPulseTicks ≤ w.toNat) →
    ∀ m ≤ ws.length, ∃ u, execAll ((cppmTrain t0 ws).take (m + 1)) s = .next u ∧
      u.chNum.toNat = min (m + 1) 255 ∧ u.overdueReq = false ∧
      (∀ (i c : Nat) (w : Tick), i < m → remap s.order i = some c → ws[i]? = some w → u.raw? c = some w) ∧
      (∀ c : Nat, (∀ i < m, remap s.order i ≠ some c) → u.raw? c = s.raw? c) ∧
      (s.maxChan = 0 ∨ s.overdueReq = true →
        u.maxChan.toNat = min (m + 1) 255 ∧ u.commitCnt = s.commitCnt ∧ u.fr = s.fr) ∧
      (s.overdueReq = false → s.maxChan.toNat = ws.length + 1 → u.maxChan = s.maxChan ∧
        u.commitCnt = (if m = ws.length then s.commitCnt + 1 else s.commitCnt) ∧
        u.fr = (if m = ws.length then true else s.fr))

-- The serial frame assembler

/-- RX_BYTE in a serial mode: it completes, LAST_BYTE_T takes the sample (R121), the byte lands at index k of BUF if
k < BUF_CAP and every other byte of BUF stays (R123), BYTE_COUNT becomes k + 1 saturating (R125), and the registers of
the other sources, the table and the configuration stay. k is 0 at a frame boundary and BYTE_COUNT otherwise. Where
BUF_CAP is above 255 and k is the saturated count 255, the clause says that BUF[255] is written again: that is R120's
pseudocode and the model's choice against R123's prose (log 7). -/
def Obligations.RxByteStampsAppendsCounts : Prop :=
  (∀ w : Word, w.op = 0x4 → decode w = .ok (.rxByte w.fieldD w.fieldT)) ∧
  ∀ (b : Byte) (t : Tick) (s : State) (p : SerialProto), Inv s → serialOf s.proto = some p →
    ∃ u, exec (.rxByte b t) s = .next u ∧
      let k := if silenceTicks s.par p < (elapsed t s.lastByteT).toNat then 0 else s.byteCount.toNat
      u.lastByteT = t ∧
      u.byteCount.toNat = min (k + 1) 255 ∧
      (k < s.par.bufCap → u.bufRead k = some b) ∧
      (∀ a : Nat, a ≠ k ∨ s.par.bufCap ≤ k → u.bufRead a = s.bufRead a) ∧
      u.par = s.par ∧ u.input = s.input ∧ u.pulseStart = s.pulseStart ∧ u.proto = s.proto ∧ u.order = s.order ∧
      u.overdueReq = s.overdueReq ∧ u.cfgErr = s.cfgErr ∧ u.cppmLast = s.cppmLast ∧ u.chNum = s.chNum ∧
      u.maxChan = s.maxChan

/-- A frame boundary (R122): a byte whose gap exceeds the threshold does what it would do as the first byte of a frame
in a state whose write pointer and ProtocolParseState are cleared, after a FRAME_START. -/
def Obligations.FrameBoundaryClearsFrameState : Prop :=
  ∀ (b : Byte) (t : Tick) (s : State) (p : SerialProto), Inv s → serialOf s.proto = some p →
    silenceTicks s.par p < (elapsed t s.lastByteT).toNat →
    ∃ u v ou ov,
      exec (.rxByte b t) s = .next u ∧
      exec (.rxByte b t) { s with
        lastByteT := t
        byteCount := 0
        xtSum := 0
        xtPoison := false
        xtMask := 0
        xtLen := 0
        parseDone := false } = .next v ∧
      SameButOutput u v ∧ u.out = some ou ∧ v.out = some ov ∧
      ou.tags = .frameStart :: ov.tags ∧ ou.ret = ov.ret ∧ ou.strobe = ov.strobe

/-- Bytes no parser acts on: after completion (R141), and before byte 24 of S-Bus and byte 15 of Spektrum (R150, R158).
They are stamped, appended while capacity remains and counted, and nothing else changes. Where BUF_CAP is above 255 and
BYTE_COUNT is saturated at 255, the byte is written to BUF[255] again: R120's pseudocode and the model's choice against
R123's prose (log 7). -/
def Obligations.ParserIgnoresOtherBytes : Prop :=
  ∀ (b : Byte) (t : Tick) (s : State) (p : SerialProto), serialOf s.proto = some p → ContinuesFrame p t s →
    (s.parseDone = true ∨ (p = .sbus ∧ s.byteCount ≠ 24) ∨ (p = .spektrum ∧ s.byteCount ≠ 15)) →
    exec (.rxByte b t) s = .next { s with
      lastByteT := t
      buf := appendedBuf b s
      byteCount := if s.byteCount = 255 then 255 else s.byteCount + 1
      out := quiet (if s.byteCount.toNat < s.par.bufCap then [] else [.byteDropped]) }

/-- No parser reads a byte that the current frame has not written (R54): two states that agree but for entries of BUF
outside the current frame have the same outcome for every operation, and still agree but for such entries. -/
def Obligations.OldBufferBytesUnobservable : Prop :=
  ∀ (s t : State) (i : Instr) (u : State), Inv s → Inv t → { s with buf := t.buf } = t →
    (∀ a < s.byteCount.toNat, s.bufRead a = t.bufRead a) → exec i s = .next u →
    ∃ v, exec i t = .next v ∧ { u with buf := v.buf } = v ∧ ∀ a < u.byteCount.toNat, u.bufRead a = v.bufRead a

/-- After reset or CFG the sample of the first serial byte or CPPM edge matters to nothing but the stored sample and the
tags (R126, R267): the byte is byte 0 of a frame, and the edge leaves CH_NUM = 1 and writes no channel. -/
def Obligations.FirstIntervalImmaterial : Prop :=
  (∀ (b : Byte) (t t' : Tick) (s : State) (p : SerialProto), Inv s → serialOf s.proto = some p →
    s.byteCount = 0 → s.parseDone = false → XtremeIdle s →
    ∃ u v, exec (.rxByte b t) s = .next u ∧ exec (.rxByte b t') s = .next v ∧ u.byteCount = 1 ∧
      u.bufRead 0 = some b ∧ SameButOutput { u with lastByteT := t' } v) ∧
  ∀ (t t' : Tick) (s : State), s.proto = .cppm → s.chNum = 0 →
    ∃ u v, exec (.cppmEdge t) s = .next u ∧ exec (.cppmEdge t') s = .next v ∧ u.chNum = 1 ∧ u.raw = s.raw ∧
      SameButOutput { u with cppmLast := t' } v

/-- A burst: bytes with any samples, none but the first after silence. It commits at most once, however long it is, and
from a state that satisfies the invariant it completes and writes only BUF[0..BUF_CAP−1] (R127, R129, R141). -/
def Obligations.BurstCommitsAtMostOnce : Prop :=
  ∀ (s : State) (p : SerialProto) (t0 : Tick) (ts : List Tick) (bs : List Byte), serialOf s.proto = some p →
    Unbroken s.par p t0 ts →
    (∀ u, execAll (rxTimed bs (t0 :: ts)) s = .next u →
      u.commitCnt = s.commitCnt ∨ u.commitCnt = s.commitCnt + 1) ∧
    (Inv s → ∃ u, execAll (rxTimed bs (t0 :: ts)) s = .next u ∧ ∀ c ∈ u.buf, c.1 < s.par.bufCap)

-- Xtreme

/-- The Xtreme bytes before the checksum (R142–R146): byte 0's bits 7:5 poison, bytes 2 and 3 are the mask, byte 3
fixes the length, every byte enters the sum. That the poisoning bits are 7:5 is a reading the spec marks as general
knowledge (R144, log 11). -/
def Obligations.XtremeAccumulates : Prop :=
  ∀ (b : Byte) (t : Tick) (s : State), s.proto = .xtreme → ContinuesFrame .xtreme t s → s.parseDone = false →
    s.byteCount.toNat < s.par.bufCap → (s.byteCount.toNat ≤ 3 ∨ s.byteCount.toNat < s.xtLen.toNat) →
    let mask : BitVec 16 :=
      if s.byteCount = 2 then b ++ s.xtMask.extractLsb' 0 8
      else if s.byteCount = 3 then s.xtMask.extractLsb' 8 8 ++ b
      else s.xtMask
    exec (.rxByte b t) s = .next { s with
      lastByteT := t
      buf := Memory.write s.buf s.byteCount.toNat b
      byteCount := s.byteCount + 1
      xtSum := s.xtSum + b
      xtPoison := s.xtPoison || (decide (s.byteCount = 0) && decide (b.extractLsb' 5 3 ≠ 0))
      xtMask := mask
      xtLen := if s.byteCount = 3 then BitVec.ofNat 8 (4 + 2 * popcount mask) else s.xtLen
      out := quiet [] }

/-- The checksum byte of an Xtreme frame that is not accepted (R142, R148(d)): poison, mask 0 and checksum are tested
in this order, the first failing test's tag is emitted, and RAW, FR and COMMIT_CNT stay. -/
def Obligations.XtremeRejectsInOrder : Prop :=
  ∀ (b : Byte) (t : Tick) (s : State), s.proto = .xtreme → ContinuesFrame .xtreme t s → s.parseDone = false →
    4 ≤ s.byteCount.toNat → s.byteCount = s.xtLen → s.byteCount.toNat < s.par.bufCap →
    (s.xtPoison = true ∨ s.xtMask = 0 ∨ s.xtSum ≠ b) →
    exec (.rxByte b t) s = .next { s with
      lastByteT := t
      buf := Memory.write s.buf s.byteCount.toNat b
      byteCount := if s.byteCount = 255 then 255 else s.byteCount + 1
      parseDone := true
      out := quiet [if s.xtPoison = true then .rejXtPoison else if s.xtMask = 0 then .rejXtMask else .rejXtChecksum] }

/-- The checksum byte of an accepted Xtreme frame (R142, R147): every set mask bit w has its value, the big-endian word
at 4 + 2n where n counts the set bits below w, published under wire index w if mapped. The other channels keep their
values. -/
def Obligations.XtremeCommitsMaskedChannels : Prop :=
  ∀ (b : Byte) (t : Tick) (s : State), Inv s → s.proto = .xtreme → ContinuesFrame .xtreme t s →
    s.parseDone = false → 4 ≤ s.byteCount.toNat → s.byteCount = s.xtLen → s.xtPoison = false → s.xtMask ≠ 0 →
    s.xtSum = b →
    ∃ raw : List Tick,
      exec (.rxByte b t) s = .next { s with
        lastByteT := t
        buf := Memory.write s.buf s.byteCount.toNat b
        byteCount := s.byteCount + 1
        parseDone := true
        raw := raw
        fr := true
        commitCnt := s.commitCnt + 1
        out := committed [.commit] } ∧
      raw.length = s.raw.length ∧
      (∀ w : Nat, s.xtMask.getLsbD w = true → ∃ hi lo : Byte,
        s.bufRead (4 + 2 * (List.range w).countP (fun i => s.xtMask.getLsbD i)) = some hi ∧
        s.bufRead (5 + 2 * (List.range w).countP (fun i => s.xtMask.getLsbD i)) = some lo ∧
        ∀ c, remap s.order w = some c → raw[c]? = some (transform s.par .xtreme (256 * hi.toNat + lo.toNat))) ∧
      ∀ c : Nat, (∀ w, s.xtMask.getLsbD w = true → remap s.order w ≠ some c) → raw[c]? = s.raw[c]?

/-- A whole Xtreme frame that is well formed (R142–R147): the flags byte's bits 7:5 clear, a mask that is not 0, two
value bytes for each set bit. Fed after silence or as the first frame after CFG, each byte at its own sample and no gap
above the threshold, it commits exactly once and publishes each mapped masked channel's big-endian value. The poisoning
bits are a reading the spec marks as general knowledge (log 11). -/
def Obligations.XtremeFrameCommits : Prop :=
  ∀ (s : State) (t0 : Tick) (ts : List Tick) (flags second : Byte) (mask : BitVec 16) (values : List Byte), Inv s →
    s.proto = .xtreme → StartsFrame .xtreme t0 s → Unbroken s.par .xtreme t0 ts → flags.extractLsb' 5 3 = 0 →
    mask ≠ 0 → values.length = 2 * popcount mask → ts.length + 1 = (xtremeFrame flags second mask values).length →
    ∃ u, execAll (rxTimed (xtremeFrame flags second mask values) (t0 :: ts)) s = .next u ∧
      u.commitCnt = s.commitCnt + 1 ∧ u.fr = true ∧
      (∀ (w c : Nat) (hi lo : Byte), mask.getLsbD w = true → remap s.order w = some c →
        values[2 * (List.range w).countP (fun i => mask.getLsbD i)]? = some hi →
        values[2 * (List.range w).countP (fun i => mask.getLsbD i) + 1]? = some lo →
        u.raw? c = some (transform s.par .xtreme (256 * hi.toNat + lo.toNat))) ∧
      ∀ c : Nat, (∀ w, mask.getLsbD w = true → remap s.order w ≠ some c) → u.raw? c = s.raw? c

/-- Checksum rejection (R148(f)): an Xtreme frame with one byte other than a mask byte changed after the checksum was
computed publishes nothing: RAW, FR and COMMIT_CNT stay. (A changed mask byte can commit, R148(f), C6.) -/
def Obligations.XtremeCorruptionRejected : Prop :=
  ∀ (s : State) (t0 : Tick) (ts : List Tick) (flags second : Byte) (mask : BitVec 16) (values : List Byte) (j : Nat)
    (old bad : Byte), Inv s → s.proto = .xtreme → StartsFrame .xtreme t0 s → Unbroken s.par .xtreme t0 ts →
    values.length = 2 * popcount mask → ts.length + 1 = (xtremeFrame flags second mask values).length →
    j ≠ 2 → j ≠ 3 → (xtremeFrame flags second mask values)[j]? = some old → bad ≠ old →
    ∃ u, execAll (rxTimed ((xtremeFrame flags second mask values).set j bad) (t0 :: ts)) s = .next u ∧
      u.parseDone = true ∧ u.raw = s.raw ∧ u.fr = s.fr ∧ u.commitCnt = s.commitCnt

-- S-Bus

/-- Byte 24 of an S-Bus frame (R150, R153–R157): the end marker is checked first, then the frame-lost bit 5 of byte 23;
a good frame publishes every mapped 11-bit field under its own number and latches bit 4 of byte 23. -/
def Obligations.SbusFrameOutcome : Prop :=
  ∀ (b : Byte) (t : Tick) (s : State), Inv s → s.proto = .sbus → ContinuesFrame .sbus t s →
    s.parseDone = false → s.byteCount = 24 →
    let endGood : Prop := match s.par.sbusEnd with
      | .exact00 => b = 0x00
      | .modCfEq4 => b.toNat % 207 = 4
    let done : State := { s with
      lastByteT := t
      buf := Memory.write s.buf 24 b
      byteCount := 25
      parseDone := true }
    (¬endGood → exec (.rxByte b t) s = .next { done with out := quiet [.rejSbEnd] }) ∧
    ∃ flags : Byte, s.bufRead 23 = some flags ∧
      (endGood → flags.getLsbD 5 = true → exec (.rxByte b t) s = .next { done with out := quiet [.discSbLost] }) ∧
      (endGood → flags.getLsbD 5 = false → ∃ raw : List Tick,
        exec (.rxByte b t) s = .next { done with
          sbusFs := flags.getLsbD 4
          raw := raw
          fr := true
          commitCnt := s.commitCnt + 1
          out := committed [.commit] } ∧
        raw.length = s.raw.length ∧
        (∀ j c : Nat, remap s.order j = some c → ∃ v < 2048,
          (∀ k < 11, v.testBit k = bufStreamBit s (11 * j + k)) ∧ raw[c]? = some (transform s.par .sbus v)) ∧
        ∀ c : Nat, (∀ j, remap s.order j ≠ some c) → raw[c]? = s.raw[c]?)

/-- The two definitions of an S-Bus field are equal (R52, R152): the sum over stream bits, and the shifts of the bytes
1 + floor(11j/8) on. -/
def Obligations.SbusFieldByteForm : Prop :=
  ∀ (data : List Byte) (j : Nat), data.length = 22 → j < 16 →
    let q := 11 * j / 8
    let r := 11 * j % 8
    let byte := fun i : Nat => (data.getD i 0).toNat
    sbusField data j = ((byte q >>> r) ||| (byte (q + 1) <<< (8 - r)) ||| (byte (q + 2) <<< (16 - r))) &&& 0x7FF

/-- The S-Bus round trip (R188): sixteen values packed by the inverse of R52 into a frame with start 0xF0, flags and end
0x00, fed as the first frame after CFG or after silence, each byte at its own sample and no gap above the threshold,
publish Transform(SBUS, x_j) to every mapped channel, with one commit. Where NUM/DEN makes Transform injective, x_j is
the one value whose Transform the channel holds, so inverting it recovers x_j; the bound on NUM/DEN is the one of log 17,
since R187's own is not sufficient. -/
def Obligations.SbusRoundTrip : Prop :=
  ∀ (s : State) (t0 : Tick) (ts : List Tick) (x : Fin 16 → BitVec 11), Inv s → s.proto = .sbus →
    s.par.sbusEnd = .exact00 → Unbroken s.par .sbus t0 ts → ts.length = 24 →
    (s.par.silenceSbus < (elapsed t0 s.lastByteT).toNat ∨ (s.byteCount = 0 ∧ s.parseDone = false)) →
    ∃ u, execAll (rxTimed (sbusFrame x) (t0 :: ts)) s = .next u ∧
      u.commitCnt = s.commitCnt + 1 ∧ u.fr = true ∧ u.sbusFs = false ∧
      (∀ (j : Fin 16) (c : Nat), remap s.order j = some c → u.raw? c = some (transform s.par .sbus (x j).toNat)) ∧
      (s.par.ratioSbus.den ≤ s.par.ratioSbus.num → 2047 * s.par.ratioSbus.num ≤ 65535 * s.par.ratioSbus.den →
        ∀ (j : Fin 16) (c v : Nat), remap s.order j = some c → v < 2048 →
          u.raw? c = some (transform s.par .sbus v) → v = (x j).toNat)

/-- The sufficient condition of R187, as written, for Transform(SBUS, ·) to be injective on 0..2047. Expected to FAIL:
with NUM/DEN = 3201563/100000 the values 0 and 2047 are 65536 apart before trunc16 (log 17). -/
def Obligations.SbusInjectiveUnderStatedBound : Prop :=
  ∀ (par : Params) (v w : Nat), par.Valid → par.ratioSbus.den ≤ par.ratioSbus.num →
    2047 * par.ratioSbus.num < 65536 * par.ratioSbus.den → v < 2048 → w < 2048 →
    transform par .sbus v = transform par .sbus w → v = w

/-- The condition of R187 with the bound lowered to 65535 does make Transform(SBUS, ·) injective on 0..2047 (log 17). -/
def Obligations.SbusInjectiveUnderTighterBound : Prop :=
  ∀ (par : Params) (v w : Nat), par.Valid → par.ratioSbus.den ≤ par.ratioSbus.num →
    2047 * par.ratioSbus.num ≤ 65535 * par.ratioSbus.den → v < 2048 → w < 2048 →
    transform par .sbus v = transform par .sbus w → v = w

-- Spektrum

/-- Byte 15 of a Spektrum frame (R158–R164): SPK_DROP, SPK_PREV and SPK_RES11 follow bytes 0 and 1; a frame whose seven
words all carry channel 15 is discarded; otherwise the last word of each mapped channel is published and the other
channels keep their values. Which resolution bit 4 of byte 1 means, the byte order of a word and channel 15 as the
invalid one are readings the spec marks as general knowledge (R160–R162, log 11). -/
def Obligations.SpektrumFrameOutcome : Prop :=
  ∀ (b : Byte) (t : Tick) (s : State), Inv s → s.proto = .spektrum → ContinuesFrame .spektrum t s →
    s.parseDone = false → s.byteCount = 15 →
    ∃ loss second : Byte, s.bufRead 0 = some loss ∧ s.bufRead 1 = some second ∧
      let full : State := { s with buf := Memory.write s.buf 15 b }
      let res11 := second.getLsbD 4
      let drop := s.spkPrevValid && decide (loss ≠ s.spkPrev)
      let told : List Tag := if drop then [.spDropSeen] else []
      let done : State := { full with
        lastByteT := t
        byteCount := 16
        parseDone := true
        spkDrop := drop
        spkPrev := loss
        spkPrevValid := true
        spkRes11 := res11 }
      ((∀ i < 7, spkWordChannel? full res11 i = none) →
        exec (.rxByte b t) s = .next { done with out := quiet (told ++ [.discSpEmpty]) }) ∧
      ((∃ i < 7, spkWordChannel? full res11 i ≠ none) → ∃ raw : List Tick,
        exec (.rxByte b t) s = .next { done with
          raw := raw
          fr := true
          commitCnt := s.commitCnt + 1
          out := committed (told ++ [.commit]) } ∧
        raw.length = s.raw.length ∧
        (∀ (i c : Nat) (ch : Nibble) (w : BitVec 16), i < 7 → spkWordChannel? full res11 i = some ch →
          full.bufWordBE (2 + 2 * i) = some w → (∀ j, i < j → j < 7 → spkWordChannel? full res11 j ≠ some ch) →
          remap s.order ch.toNat = some c →
          raw[c]? = some (transform s.par (if res11 then .spk11 else .spk10) (spkValue res11 w))) ∧
        ∀ c : Nat, (∀ i < 7, ∀ ch, spkWordChannel? full res11 i = some ch → remap s.order ch.toNat ≠ some c) →
          raw[c]? = s.raw[c]?)

/-- The Spektrum dual-frame law (R165): two frames that carry distinct channels, each byte at its own sample, the second
frame after silence. Each commits once, every mapped channel carried by either holds its frame's value, and the channels that neither carries stay. It
rests on the readings of R160–R162 (log 11). -/
def Obligations.SpektrumDualFrame : Prop :=
  ∀ (s : State) (tA tB : Tick) (tsA tsB : List Tick) (fA fB : List Byte), Inv s → s.proto = .spektrum →
    fA.length = 16 → fB.length = 16 → tsA.length = 15 → tsB.length = 15 → StartsFrame .spektrum tA s →
    Unbroken s.par .spektrum tA tsA → Unbroken s.par .spektrum tB tsB →
    s.par.silenceSpektrum < (elapsed tB (tsA.getLastD tA)).toNat →
    (∃ i ch, SpkCarries fA i ch) → (∃ i ch, SpkCarries fB i ch) →
    (∀ i j ch, SpkCarries fA i ch → SpkCarries fA j ch → i = j) →
    (∀ i j ch, SpkCarries fB i ch → SpkCarries fB j ch → i = j) →
    (∀ i j ch, SpkCarries fA i ch → ¬SpkCarries fB j ch) →
    ∃ u, execAll (rxTimed fA (tA :: tsA) ++ rxTimed fB (tB :: tsB)) s = .next u ∧
      u.commitCnt = s.commitCnt + 2 ∧ u.fr = true ∧
      (∀ (i c : Nat) (ch : Nibble), SpkCarries fA i ch → remap s.order ch.toNat = some c →
        u.raw? c = some (spkFrameValue s.par fA i)) ∧
      (∀ (i c : Nat) (ch : Nibble), SpkCarries fB i ch → remap s.order ch.toNat = some c →
        u.raw? c = some (spkFrameValue s.par fB i)) ∧
      ∀ c : Nat, (∀ i ch, SpkCarries fA i ch ∨ SpkCarries fB i ch → remap s.order ch.toNat ≠ some c) →
        u.raw? c = s.raw? c

-- Commits

/-- A step strobes at most once and exactly when COMMIT_CNT moves (R33, R186): with the strobe COMMIT_CNT advances by 1,
FR is set and COMMIT is emitted once; without it COMMIT_CNT stays and FR is not raised. -/
def Obligations.StrobeCountsCommits : Prop :=
  ∀ (i : Instr) (s t : State), exec i s = .next t → ∃ o, t.out = some o ∧
    (o.strobe = true → t.commitCnt = s.commitCnt + 1 ∧ t.fr = true ∧ o.tags.count .commit = 1) ∧
    (o.strobe = false → t.commitCnt = s.commitCnt ∧ (t.fr = true → s.fr = true) ∧ o.tags.count .commit = 0)

/-- A serial byte that does not commit publishes nothing (R60, R140, R233(a)): RAW, FR, COMMIT_CNT and SBUS_FS stay. -/
def Obligations.SerialWritesRawOnlyByCommit : Prop :=
  ∀ (b : Byte) (t : Tick) (s u : State) (o : Output) (p : SerialProto), serialOf s.proto = some p →
    exec (.rxByte b t) s = .next u → u.out = some o → o.strobe = false →
    u.raw = s.raw ∧ u.fr = s.fr ∧ u.commitCnt = s.commitCnt ∧ u.sbusFs = s.sbusFs

/-- The snapshot check of R272: over any run COMMIT_CNT advances by the number of commits modulo 256, and over a run with
fewer than 256 commits in which neither PWM nor CPPM is selected, an unchanged COMMIT_CNT means that RAW has not
changed. -/
def Obligations.UnchangedCommitCountMeansSameRaw : Prop :=
  ∀ (ops : List Instr) (s t : State), execAll ops s = .next t →
    t.commitCnt = s.commitCnt + BitVec.ofNat 8 (commitsIn ops s) ∧
    (s.proto ≠ .pwm → s.proto ≠ .cppm → (∀ i ∈ ops, i ≠ .cfg .pwm ∧ i ≠ .cfg .cppm) → commitsIn ops s < 256 →
      t.commitCnt = s.commitCnt → t.raw = s.raw)

-- Normaliser

/-- Transform (R182): 3750 plus the floor of (v − C_IN)·NUM/DEN, modulo 65536. The floor and the truncation are the
spec's own choice (R182, log 13). -/
def Obligations.TransformIsAffineFloor : Prop :=
  ∀ (par : Params) (p : Codec) (v : Nat), par.Valid →
    let centre : Int := match p with
      | .xtreme => 1500
      | .sbus => 1024
      | .spk10 => 512
      | .spk11 => 1024
    let r := ratioOf par p
    ∃ q : Int, q * r.den ≤ (v - centre) * r.num ∧ (v - centre) * r.num < (q + 1) * r.den ∧
      ((transform par p v).toNat : Int) = (3750 + q) % 65536

/-- The centre law and monotonicity of Transform (R185). -/
def Obligations.TransformCentreAndMonotone : Prop :=
  (∀ (par : Params) (p : Codec), transform par p (Config.cIn p) = 3750) ∧
  ∀ (par : Params) (p : Codec) (v w : Nat), par.Valid → v ≤ w →
    0 ≤ affine par p v → affine par p w < 65536 → (transform par p v).toNat ≤ (transform par p w).toNat

/-- In a valid table two different wire indices never share a logical channel, and a mapped wire index is below 16
(R26, R180). -/
def Obligations.ValidTableMapsInjectively : Prop :=
  ∀ (o : Vector Byte 16) (v w c : Nat), OrderValid o → remap o v = some c → remap o w = some c → v = w ∧ v < 16

-- Host commands

/-- CFG (R203, R204): an enabling CFG with an invalid table disables the block and sets CFG_ERR; any other selects its
protocol and clears CFG_ERR. Both flush exactly the registers of R204. -/
def Obligations.CfgSelectsAndFlushes : Prop :=
  (∀ (w : Word) (p : Proto), w.op = 0x8 → w.fieldA = p.fieldA → decode w = .ok (.cfg p)) ∧
  (∀ w : Word, w.op = 0x8 → 6 ≤ w.fieldA.toNat → decode w = .error (.reservedProtocol w.fieldA)) ∧
  ∀ (p : Proto) (s : State),
    let flushed : State := { s with
      byteCount := 0
      xtSum := 0
      xtPoison := false
      xtMask := 0
      xtLen := 0
      parseDone := false
      lastByteT := 0
      cppmLast := 0
      chNum := 0
      maxChan := 0
      overdueReq := false
      spkPrev := 0
      spkPrevValid := false
      sbusFs := false
      spkDrop := false
      spkRes11 := false }
    (p ≠ .disabled → ¬OrderValid s.order →
      exec (.cfg p) s = .next { flushed with proto := .disabled, cfgErr := true, out := quiet [.cfgBad] }) ∧
    (p = .disabled ∨ OrderValid s.order →
      exec (.cfg p) s = .next { flushed with proto := p, cfgErr := false, out := quiet [.cfgOk] })

/-- ORD_WR (R205): dropped with CFG_ERR set while a protocol is enabled or for an illegal value; otherwise one entry
changes, and a readback of every entry shows it. -/
def Obligations.OrdWrWritesOneEntry : Prop :=
  (∀ w : Word, w.op = 0x9 → decode w = .ok (.ordWr w.fieldA w.fieldD)) ∧
  ∀ (w : Nibble) (c : Byte) (s : State),
    (s.proto ≠ .disabled ∨ (c ≠ 0xFF ∧ s.par.nCh ≤ c.toNat) →
      exec (.ordWr w c) s = .next { s with cfgErr := true, out := quiet [.ordDropped] }) ∧
    (s.proto = .disabled → (c = 0xFF ∨ c.toNat < s.par.nCh) → ∃ order : Vector Byte 16,
      exec (.ordWr w c) s = .next { s with order := order, out := quiet [.ordOk] } ∧
      ∀ v : Nibble, exec (.ordRd v) { s with order := order } = .next { s with
        order := order
        out := answered (.half ((if v = w then c else s.order.get v.toFin).setWidth 16)) })

/-- ORD_RD returns its entry, zero-extended to 16 bits, and changes nothing (R206). -/
def Obligations.OrdRdReturnsEntry : Prop :=
  (∀ w : Word, w.op = 0xA → decode w = .ok (.ordRd w.fieldA)) ∧
  ∀ (w : Nibble) (s : State),
    exec (.ordRd w) s = .next { s with out := answered (.half ((s.order.get w.toFin).setWidth 16)) }

/-- FR_CLR clears FR and OVERDUE sets OVERDUE_REQ, in every mode, and nothing else changes (R207, R208). -/
def Obligations.FrClrAndOverdueWriteOneFlag : Prop :=
  (∀ w : Word, w.op = 0xB → decode w = .ok .frClr) ∧
  (∀ w : Word, w.op = 0xC → decode w = .ok .overdue) ∧
  ∀ s : State,
    exec .frClr s = .next { s with fr := false, out := quiet [] } ∧
    exec .overdue s = .next { s with overdueReq := true, out := quiet [] }

/-- CH_RD returns RAW[c] of an existing channel, refuses any other, and changes nothing (R209). -/
def Obligations.ChRdReturnsChannel : Prop :=
  (∀ w : Word, w.op = 0xD → decode w = .ok (.chRd w.fieldA)) ∧
  ∀ (c : Nibble) (s : State),
    (s.par.nCh ≤ c.toNat → exec (.chRd c) s = .refused .noSuchChannel) ∧
    (∀ v : Tick, c.toNat < s.par.nCh → s.raw[c.toNat]? = some v →
      exec (.chRd c) s = .next { s with out := answered (.half v) })

/-- ST_RD returns STATUS with the layout of R34 and changes nothing (R34, R210). -/
def Obligations.StRdReturnsStatusLayout : Prop :=
  (∀ w : Word, w.op = 0xE → decode w = .ok .stRd) ∧
  ∀ s : State, ∃ v : BitVec 32, exec .stRd s = .next { s with out := answered (.full v) } ∧
    v.getLsbD 0 = s.fr ∧ v.getLsbD 1 = s.sbusFs ∧ v.getLsbD 2 = s.spkDrop ∧ v.getLsbD 3 = s.spkRes11 ∧
    v.getLsbD 4 = s.overdueReq ∧ v.getLsbD 5 = s.cfgErr ∧ v.extractLsb' 6 2 = 0 ∧
    (v.extractLsb' 8 3).toNat = (match s.proto with
      | .disabled => 0
      | .pwm => 1
      | .cppm => 2
      | .xtreme => 3
      | .sbus => 4
      | .spektrum => 5) ∧
    v.extractLsb' 11 5 = 0 ∧ v.extractLsb' 16 8 = s.commitCnt ∧ v.extractLsb' 24 8 = s.maxChan

/-- No read has a side effect (R57): TMR_RD, ORD_RD, CH_RD and ST_RD leave everything but the output record, and the same
read right after returns the same record. -/
def Obligations.ReadsHaveNoSideEffect : Prop :=
  ∀ (i : Instr) (s t : State),
    ((∃ v, i = .tmrRd v) ∨ (∃ w, i = .ordRd w) ∨ (∃ c, i = .chRd c) ∨ i = .stRd) → exec i s = .next t →
    SameButOutput s t ∧ exec i t = .next t

/-- A receiver event whose source PROTO does not select changes nothing and emits only IGNORED; no other operation, and
no event of the selected source, ever emits IGNORED (R80, R100, R232). -/
def Obligations.InactiveEventsIgnored : Prop :=
  ∀ (i : Instr) (s : State), Inv s → i.wellFormed s.par = true →
    let inactive : Prop := match i with
      | .pwmRise _ _ => s.proto ≠ .pwm
      | .pwmFall _ _ => s.proto ≠ .pwm
      | .cppmEdge _ => s.proto ≠ .cppm
      | .rxByte _ _ => s.proto ≠ .xtreme ∧ s.proto ≠ .sbus ∧ s.proto ≠ .spektrum
      | _ => False
    (inactive → exec i s = .next { s with out := quiet [.ignored] }) ∧
    (¬inactive → ∃ t o, exec i s = .next t ∧ t.out = some o ∧ .ignored ∉ o.tags)

/-- Who may write what (R22–R42): each register of 10_state.md changes only in the operations its rule names, and only
under the conditions it names (a commit, a structurally complete Spektrum frame, a frame boundary). -/
def Obligations.RegisterWriters : Prop :=
  ∀ (i : Instr) (s t : State), exec i s = .next t → WritesByRule i s t

-- Configuration sequences

/-- CONFIGURE (R83, R201, R265) from any state: a legal, valid table ends enabled with that table, decode state flushed
and RAW, FR and COMMIT_CNT kept; a legal but invalid one ends disabled with CFG_ERR set. -/
def Obligations.ConfigureInstallsTable : Prop :=
  ∀ (s : State) (p : Proto) (o : Vector Byte 16), p ≠ .disabled →
    (∀ w : Fin 16, o[w] = 0xFF ∨ o[w].toNat < s.par.nCh) →
    ∃ u, execAll (configure p o) s = .next u ∧ u.order = o ∧ u.raw = s.raw ∧ u.fr = s.fr ∧
      u.commitCnt = s.commitCnt ∧ u.pulseStart = s.pulseStart ∧ u.buf = s.buf ∧ u.par = s.par ∧ u.input = s.input ∧
      u.byteCount = 0 ∧ u.parseDone = false ∧ u.lastByteT = 0 ∧ u.overdueReq = false ∧ u.sbusFs = false ∧
      XtremeIdle u ∧ SpektrumIdle u ∧ CppmIdle u ∧
      (OrderValid o → u.proto = p ∧ u.cfgErr = false ∧ u.out = quiet [.cfgOk]) ∧
      (¬OrderValid o → u.proto = .disabled ∧ u.cfgErr = true ∧ u.out = quiet [.cfgBad])

/-- CONFIGURE is safe whatever receiver events and timer reads fall between its commands (R202): the run ends in the
same state as CONFIGURE alone. -/
def Obligations.ConfigureUndisturbedByEvents : Prop :=
  ∀ (s : State) (p : Proto) (o : Vector Byte 16) (mid : List Instr), Inv s →
    (∀ i ∈ mid, i.wellFormed s.par = true) →
    mid.filter (fun i => !(i.isReceiverEvent || match i with | .tmrRd _ => true | _ => false)) = orderWrites o →
    execAll (.cfg .disabled :: (mid ++ [.cfg p])) s = execAll (configure p o) s
end

