-- ==== Sys2Proof/Laws/State.lean ====
section
/-! SUPPORT. One lemma per field per named update of the state: what each shared operation leaves in each field. -/

namespace Sys2Proof.Machine

theorem State.record_of_out {s : State} {o : Output} (h : s.out = some o) : s.record = o := by
  simp [State.record, h]

/-! A step's beginning changes the output record only. -/

@[simp] theorem State.begin_par (s : State) : (s.begin).par = s.par := rfl
@[simp] theorem State.begin_raw (s : State) : (s.begin).raw = s.raw := rfl
@[simp] theorem State.begin_pulseStart (s : State) : (s.begin).pulseStart = s.pulseStart := rfl
@[simp] theorem State.begin_proto (s : State) : (s.begin).proto = s.proto := rfl
@[simp] theorem State.begin_order (s : State) : (s.begin).order = s.order := rfl
@[simp] theorem State.begin_fr (s : State) : (s.begin).fr = s.fr := rfl
@[simp] theorem State.begin_sbusFs (s : State) : (s.begin).sbusFs = s.sbusFs := rfl
@[simp] theorem State.begin_spkDrop (s : State) : (s.begin).spkDrop = s.spkDrop := rfl
@[simp] theorem State.begin_spkRes11 (s : State) : (s.begin).spkRes11 = s.spkRes11 := rfl
@[simp] theorem State.begin_overdueReq (s : State) : (s.begin).overdueReq = s.overdueReq := rfl
@[simp] theorem State.begin_cfgErr (s : State) : (s.begin).cfgErr = s.cfgErr := rfl
@[simp] theorem State.begin_commitCnt (s : State) : (s.begin).commitCnt = s.commitCnt := rfl
@[simp] theorem State.begin_cppmLast (s : State) : (s.begin).cppmLast = s.cppmLast := rfl
@[simp] theorem State.begin_chNum (s : State) : (s.begin).chNum = s.chNum := rfl
@[simp] theorem State.begin_maxChan (s : State) : (s.begin).maxChan = s.maxChan := rfl
@[simp] theorem State.begin_lastByteT (s : State) : (s.begin).lastByteT = s.lastByteT := rfl
@[simp] theorem State.begin_byteCount (s : State) : (s.begin).byteCount = s.byteCount := rfl
@[simp] theorem State.begin_buf (s : State) : (s.begin).buf = s.buf := rfl
@[simp] theorem State.begin_xtSum (s : State) : (s.begin).xtSum = s.xtSum := rfl
@[simp] theorem State.begin_xtPoison (s : State) : (s.begin).xtPoison = s.xtPoison := rfl
@[simp] theorem State.begin_xtMask (s : State) : (s.begin).xtMask = s.xtMask := rfl
@[simp] theorem State.begin_xtLen (s : State) : (s.begin).xtLen = s.xtLen := rfl
@[simp] theorem State.begin_parseDone (s : State) : (s.begin).parseDone = s.parseDone := rfl
@[simp] theorem State.begin_spkPrev (s : State) : (s.begin).spkPrev = s.spkPrev := rfl
@[simp] theorem State.begin_spkPrevValid (s : State) : (s.begin).spkPrevValid = s.spkPrevValid := rfl
@[simp] theorem State.begin_input (s : State) : (s.begin).input = s.input := rfl
@[simp] theorem State.begin_out (s : State) : (s.begin).out = some Output.empty := rfl

/-! Emitting a tag changes the output record only. -/

@[simp] theorem State.emit_par (t : Tag) (s : State) : (s.emit t).par = s.par := rfl
@[simp] theorem State.emit_raw (t : Tag) (s : State) : (s.emit t).raw = s.raw := rfl
@[simp] theorem State.emit_pulseStart (t : Tag) (s : State) : (s.emit t).pulseStart = s.pulseStart := rfl
@[simp] theorem State.emit_proto (t : Tag) (s : State) : (s.emit t).proto = s.proto := rfl
@[simp] theorem State.emit_order (t : Tag) (s : State) : (s.emit t).order = s.order := rfl
@[simp] theorem State.emit_fr (t : Tag) (s : State) : (s.emit t).fr = s.fr := rfl
@[simp] theorem State.emit_sbusFs (t : Tag) (s : State) : (s.emit t).sbusFs = s.sbusFs := rfl
@[simp] theorem State.emit_spkDrop (t : Tag) (s : State) : (s.emit t).spkDrop = s.spkDrop := rfl
@[simp] theorem State.emit_spkRes11 (t : Tag) (s : State) : (s.emit t).spkRes11 = s.spkRes11 := rfl
@[simp] theorem State.emit_overdueReq (t : Tag) (s : State) : (s.emit t).overdueReq = s.overdueReq := rfl
@[simp] theorem State.emit_cfgErr (t : Tag) (s : State) : (s.emit t).cfgErr = s.cfgErr := rfl
@[simp] theorem State.emit_commitCnt (t : Tag) (s : State) : (s.emit t).commitCnt = s.commitCnt := rfl
@[simp] theorem State.emit_cppmLast (t : Tag) (s : State) : (s.emit t).cppmLast = s.cppmLast := rfl
@[simp] theorem State.emit_chNum (t : Tag) (s : State) : (s.emit t).chNum = s.chNum := rfl
@[simp] theorem State.emit_maxChan (t : Tag) (s : State) : (s.emit t).maxChan = s.maxChan := rfl
@[simp] theorem State.emit_lastByteT (t : Tag) (s : State) : (s.emit t).lastByteT = s.lastByteT := rfl
@[simp] theorem State.emit_byteCount (t : Tag) (s : State) : (s.emit t).byteCount = s.byteCount := rfl
@[simp] theorem State.emit_buf (t : Tag) (s : State) : (s.emit t).buf = s.buf := rfl
@[simp] theorem State.emit_xtSum (t : Tag) (s : State) : (s.emit t).xtSum = s.xtSum := rfl
@[simp] theorem State.emit_xtPoison (t : Tag) (s : State) : (s.emit t).xtPoison = s.xtPoison := rfl
@[simp] theorem State.emit_xtMask (t : Tag) (s : State) : (s.emit t).xtMask = s.xtMask := rfl
@[simp] theorem State.emit_xtLen (t : Tag) (s : State) : (s.emit t).xtLen = s.xtLen := rfl
@[simp] theorem State.emit_parseDone (t : Tag) (s : State) : (s.emit t).parseDone = s.parseDone := rfl
@[simp] theorem State.emit_spkPrev (t : Tag) (s : State) : (s.emit t).spkPrev = s.spkPrev := rfl
@[simp] theorem State.emit_spkPrevValid (t : Tag) (s : State) : (s.emit t).spkPrevValid = s.spkPrevValid := rfl
@[simp] theorem State.emit_input (t : Tag) (s : State) : (s.emit t).input = s.input := rfl
@[simp] theorem State.emit_out (t : Tag) (s : State) : (s.emit t).out = some { s.record with tags := s.record.tags ++ [t] } := rfl

/-! Answering a read changes the output record only. -/

@[simp] theorem State.answer_par (v : Ret) (s : State) : (s.answer v).par = s.par := rfl
@[simp] theorem State.answer_raw (v : Ret) (s : State) : (s.answer v).raw = s.raw := rfl
@[simp] theorem State.answer_pulseStart (v : Ret) (s : State) : (s.answer v).pulseStart = s.pulseStart := rfl
@[simp] theorem State.answer_proto (v : Ret) (s : State) : (s.answer v).proto = s.proto := rfl
@[simp] theorem State.answer_order (v : Ret) (s : State) : (s.answer v).order = s.order := rfl
@[simp] theorem State.answer_fr (v : Ret) (s : State) : (s.answer v).fr = s.fr := rfl
@[simp] theorem State.answer_sbusFs (v : Ret) (s : State) : (s.answer v).sbusFs = s.sbusFs := rfl
@[simp] theorem State.answer_spkDrop (v : Ret) (s : State) : (s.answer v).spkDrop = s.spkDrop := rfl
@[simp] theorem State.answer_spkRes11 (v : Ret) (s : State) : (s.answer v).spkRes11 = s.spkRes11 := rfl
@[simp] theorem State.answer_overdueReq (v : Ret) (s : State) : (s.answer v).overdueReq = s.overdueReq := rfl
@[simp] theorem State.answer_cfgErr (v : Ret) (s : State) : (s.answer v).cfgErr = s.cfgErr := rfl
@[simp] theorem State.answer_commitCnt (v : Ret) (s : State) : (s.answer v).commitCnt = s.commitCnt := rfl
@[simp] theorem State.answer_cppmLast (v : Ret) (s : State) : (s.answer v).cppmLast = s.cppmLast := rfl
@[simp] theorem State.answer_chNum (v : Ret) (s : State) : (s.answer v).chNum = s.chNum := rfl
@[simp] theorem State.answer_maxChan (v : Ret) (s : State) : (s.answer v).maxChan = s.maxChan := rfl
@[simp] theorem State.answer_lastByteT (v : Ret) (s : State) : (s.answer v).lastByteT = s.lastByteT := rfl
@[simp] theorem State.answer_byteCount (v : Ret) (s : State) : (s.answer v).byteCount = s.byteCount := rfl
@[simp] theorem State.answer_buf (v : Ret) (s : State) : (s.answer v).buf = s.buf := rfl
@[simp] theorem State.answer_xtSum (v : Ret) (s : State) : (s.answer v).xtSum = s.xtSum := rfl
@[simp] theorem State.answer_xtPoison (v : Ret) (s : State) : (s.answer v).xtPoison = s.xtPoison := rfl
@[simp] theorem State.answer_xtMask (v : Ret) (s : State) : (s.answer v).xtMask = s.xtMask := rfl
@[simp] theorem State.answer_xtLen (v : Ret) (s : State) : (s.answer v).xtLen = s.xtLen := rfl
@[simp] theorem State.answer_parseDone (v : Ret) (s : State) : (s.answer v).parseDone = s.parseDone := rfl
@[simp] theorem State.answer_spkPrev (v : Ret) (s : State) : (s.answer v).spkPrev = s.spkPrev := rfl
@[simp] theorem State.answer_spkPrevValid (v : Ret) (s : State) : (s.answer v).spkPrevValid = s.spkPrevValid := rfl
@[simp] theorem State.answer_input (v : Ret) (s : State) : (s.answer v).input = s.input := rfl
@[simp] theorem State.answer_out (v : Ret) (s : State) : (s.answer v).out = some { s.record with ret := some v } := rfl

/-! The strobe changes the output record only. -/

@[simp] theorem State.pulseStrobe_par (s : State) : (s.pulseStrobe).par = s.par := rfl
@[simp] theorem State.pulseStrobe_raw (s : State) : (s.pulseStrobe).raw = s.raw := rfl
@[simp] theorem State.pulseStrobe_pulseStart (s : State) : (s.pulseStrobe).pulseStart = s.pulseStart := rfl
@[simp] theorem State.pulseStrobe_proto (s : State) : (s.pulseStrobe).proto = s.proto := rfl
@[simp] theorem State.pulseStrobe_order (s : State) : (s.pulseStrobe).order = s.order := rfl
@[simp] theorem State.pulseStrobe_fr (s : State) : (s.pulseStrobe).fr = s.fr := rfl
@[simp] theorem State.pulseStrobe_sbusFs (s : State) : (s.pulseStrobe).sbusFs = s.sbusFs := rfl
@[simp] theorem State.pulseStrobe_spkDrop (s : State) : (s.pulseStrobe).spkDrop = s.spkDrop := rfl
@[simp] theorem State.pulseStrobe_spkRes11 (s : State) : (s.pulseStrobe).spkRes11 = s.spkRes11 := rfl
@[simp] theorem State.pulseStrobe_overdueReq (s : State) : (s.pulseStrobe).overdueReq = s.overdueReq := rfl
@[simp] theorem State.pulseStrobe_cfgErr (s : State) : (s.pulseStrobe).cfgErr = s.cfgErr := rfl
@[simp] theorem State.pulseStrobe_commitCnt (s : State) : (s.pulseStrobe).commitCnt = s.commitCnt := rfl
@[simp] theorem State.pulseStrobe_cppmLast (s : State) : (s.pulseStrobe).cppmLast = s.cppmLast := rfl
@[simp] theorem State.pulseStrobe_chNum (s : State) : (s.pulseStrobe).chNum = s.chNum := rfl
@[simp] theorem State.pulseStrobe_maxChan (s : State) : (s.pulseStrobe).maxChan = s.maxChan := rfl
@[simp] theorem State.pulseStrobe_lastByteT (s : State) : (s.pulseStrobe).lastByteT = s.lastByteT := rfl
@[simp] theorem State.pulseStrobe_byteCount (s : State) : (s.pulseStrobe).byteCount = s.byteCount := rfl
@[simp] theorem State.pulseStrobe_buf (s : State) : (s.pulseStrobe).buf = s.buf := rfl
@[simp] theorem State.pulseStrobe_xtSum (s : State) : (s.pulseStrobe).xtSum = s.xtSum := rfl
@[simp] theorem State.pulseStrobe_xtPoison (s : State) : (s.pulseStrobe).xtPoison = s.xtPoison := rfl
@[simp] theorem State.pulseStrobe_xtMask (s : State) : (s.pulseStrobe).xtMask = s.xtMask := rfl
@[simp] theorem State.pulseStrobe_xtLen (s : State) : (s.pulseStrobe).xtLen = s.xtLen := rfl
@[simp] theorem State.pulseStrobe_parseDone (s : State) : (s.pulseStrobe).parseDone = s.parseDone := rfl
@[simp] theorem State.pulseStrobe_spkPrev (s : State) : (s.pulseStrobe).spkPrev = s.spkPrev := rfl
@[simp] theorem State.pulseStrobe_spkPrevValid (s : State) : (s.pulseStrobe).spkPrevValid = s.spkPrevValid := rfl
@[simp] theorem State.pulseStrobe_input (s : State) : (s.pulseStrobe).input = s.input := rfl
@[simp] theorem State.pulseStrobe_out (s : State) : (s.pulseStrobe).out = some { s.record with strobe := true } := rfl

/-! A buffer write changes BUF only. -/

@[simp] theorem State.bufWrite_par (i : Nat) (b : Byte) (s : State) : (s.bufWrite i b).par = s.par := rfl
@[simp] theorem State.bufWrite_raw (i : Nat) (b : Byte) (s : State) : (s.bufWrite i b).raw = s.raw := rfl
@[simp] theorem State.bufWrite_pulseStart (i : Nat) (b : Byte) (s : State) : (s.bufWrite i b).pulseStart = s.pulseStart := rfl
@[simp] theorem State.bufWrite_proto (i : Nat) (b : Byte) (s : State) : (s.bufWrite i b).proto = s.proto := rfl
@[simp] theorem State.bufWrite_order (i : Nat) (b : Byte) (s : State) : (s.bufWrite i b).order = s.order := rfl
@[simp] theorem State.bufWrite_fr (i : Nat) (b : Byte) (s : State) : (s.bufWrite i b).fr = s.fr := rfl
@[simp] theorem State.bufWrite_sbusFs (i : Nat) (b : Byte) (s : State) : (s.bufWrite i b).sbusFs = s.sbusFs := rfl
@[simp] theorem State.bufWrite_spkDrop (i : Nat) (b : Byte) (s : State) : (s.bufWrite i b).spkDrop = s.spkDrop := rfl
@[simp] theorem State.bufWrite_spkRes11 (i : Nat) (b : Byte) (s : State) : (s.bufWrite i b).spkRes11 = s.spkRes11 := rfl
@[simp] theorem State.bufWrite_overdueReq (i : Nat) (b : Byte) (s : State) : (s.bufWrite i b).overdueReq = s.overdueReq := rfl
@[simp] theorem State.bufWrite_cfgErr (i : Nat) (b : Byte) (s : State) : (s.bufWrite i b).cfgErr = s.cfgErr := rfl
@[simp] theorem State.bufWrite_commitCnt (i : Nat) (b : Byte) (s : State) : (s.bufWrite i b).commitCnt = s.commitCnt := rfl
@[simp] theorem State.bufWrite_cppmLast (i : Nat) (b : Byte) (s : State) : (s.bufWrite i b).cppmLast = s.cppmLast := rfl
@[simp] theorem State.bufWrite_chNum (i : Nat) (b : Byte) (s : State) : (s.bufWrite i b).chNum = s.chNum := rfl
@[simp] theorem State.bufWrite_maxChan (i : Nat) (b : Byte) (s : State) : (s.bufWrite i b).maxChan = s.maxChan := rfl
@[simp] theorem State.bufWrite_lastByteT (i : Nat) (b : Byte) (s : State) : (s.bufWrite i b).lastByteT = s.lastByteT := rfl
@[simp] theorem State.bufWrite_byteCount (i : Nat) (b : Byte) (s : State) : (s.bufWrite i b).byteCount = s.byteCount := rfl
@[simp] theorem State.bufWrite_buf (i : Nat) (b : Byte) (s : State) : (s.bufWrite i b).buf = Memory.write s.buf i b := rfl
@[simp] theorem State.bufWrite_xtSum (i : Nat) (b : Byte) (s : State) : (s.bufWrite i b).xtSum = s.xtSum := rfl
@[simp] theorem State.bufWrite_xtPoison (i : Nat) (b : Byte) (s : State) : (s.bufWrite i b).xtPoison = s.xtPoison := rfl
@[simp] theorem State.bufWrite_xtMask (i : Nat) (b : Byte) (s : State) : (s.bufWrite i b).xtMask = s.xtMask := rfl
@[simp] theorem State.bufWrite_xtLen (i : Nat) (b : Byte) (s : State) : (s.bufWrite i b).xtLen = s.xtLen := rfl
@[simp] theorem State.bufWrite_parseDone (i : Nat) (b : Byte) (s : State) : (s.bufWrite i b).parseDone = s.parseDone := rfl
@[simp] theorem State.bufWrite_spkPrev (i : Nat) (b : Byte) (s : State) : (s.bufWrite i b).spkPrev = s.spkPrev := rfl
@[simp] theorem State.bufWrite_spkPrevValid (i : Nat) (b : Byte) (s : State) : (s.bufWrite i b).spkPrevValid = s.spkPrevValid := rfl
@[simp] theorem State.bufWrite_input (i : Nat) (b : Byte) (s : State) : (s.bufWrite i b).input = s.input := rfl
@[simp] theorem State.bufWrite_out (i : Nat) (b : Byte) (s : State) : (s.bufWrite i b).out = s.out := rfl

/-! A channel write changes RAW only. -/

@[simp] theorem State.writeRaw_par (c : Nat) (v : Tick) (s : State) : (s.writeRaw c v).par = s.par := rfl
@[simp] theorem State.writeRaw_raw (c : Nat) (v : Tick) (s : State) : (s.writeRaw c v).raw = s.raw.set c v := rfl
@[simp] theorem State.writeRaw_pulseStart (c : Nat) (v : Tick) (s : State) : (s.writeRaw c v).pulseStart = s.pulseStart := rfl
@[simp] theorem State.writeRaw_proto (c : Nat) (v : Tick) (s : State) : (s.writeRaw c v).proto = s.proto := rfl
@[simp] theorem State.writeRaw_order (c : Nat) (v : Tick) (s : State) : (s.writeRaw c v).order = s.order := rfl
@[simp] theorem State.writeRaw_fr (c : Nat) (v : Tick) (s : State) : (s.writeRaw c v).fr = s.fr := rfl
@[simp] theorem State.writeRaw_sbusFs (c : Nat) (v : Tick) (s : State) : (s.writeRaw c v).sbusFs = s.sbusFs := rfl
@[simp] theorem State.writeRaw_spkDrop (c : Nat) (v : Tick) (s : State) : (s.writeRaw c v).spkDrop = s.spkDrop := rfl
@[simp] theorem State.writeRaw_spkRes11 (c : Nat) (v : Tick) (s : State) : (s.writeRaw c v).spkRes11 = s.spkRes11 := rfl
@[simp] theorem State.writeRaw_overdueReq (c : Nat) (v : Tick) (s : State) : (s.writeRaw c v).overdueReq = s.overdueReq := rfl
@[simp] theorem State.writeRaw_cfgErr (c : Nat) (v : Tick) (s : State) : (s.writeRaw c v).cfgErr = s.cfgErr := rfl
@[simp] theorem State.writeRaw_commitCnt (c : Nat) (v : Tick) (s : State) : (s.writeRaw c v).commitCnt = s.commitCnt := rfl
@[simp] theorem State.writeRaw_cppmLast (c : Nat) (v : Tick) (s : State) : (s.writeRaw c v).cppmLast = s.cppmLast := rfl
@[simp] theorem State.writeRaw_chNum (c : Nat) (v : Tick) (s : State) : (s.writeRaw c v).chNum = s.chNum := rfl
@[simp] theorem State.writeRaw_maxChan (c : Nat) (v : Tick) (s : State) : (s.writeRaw c v).maxChan = s.maxChan := rfl
@[simp] theorem State.writeRaw_lastByteT (c : Nat) (v : Tick) (s : State) : (s.writeRaw c v).lastByteT = s.lastByteT := rfl
@[simp] theorem State.writeRaw_byteCount (c : Nat) (v : Tick) (s : State) : (s.writeRaw c v).byteCount = s.byteCount := rfl
@[simp] theorem State.writeRaw_buf (c : Nat) (v : Tick) (s : State) : (s.writeRaw c v).buf = s.buf := rfl
@[simp] theorem State.writeRaw_xtSum (c : Nat) (v : Tick) (s : State) : (s.writeRaw c v).xtSum = s.xtSum := rfl
@[simp] theorem State.writeRaw_xtPoison (c : Nat) (v : Tick) (s : State) : (s.writeRaw c v).xtPoison = s.xtPoison := rfl
@[simp] theorem State.writeRaw_xtMask (c : Nat) (v : Tick) (s : State) : (s.writeRaw c v).xtMask = s.xtMask := rfl
@[simp] theorem State.writeRaw_xtLen (c : Nat) (v : Tick) (s : State) : (s.writeRaw c v).xtLen = s.xtLen := rfl
@[simp] theorem State.writeRaw_parseDone (c : Nat) (v : Tick) (s : State) : (s.writeRaw c v).parseDone = s.parseDone := rfl
@[simp] theorem State.writeRaw_spkPrev (c : Nat) (v : Tick) (s : State) : (s.writeRaw c v).spkPrev = s.spkPrev := rfl
@[simp] theorem State.writeRaw_spkPrevValid (c : Nat) (v : Tick) (s : State) : (s.writeRaw c v).spkPrevValid = s.spkPrevValid := rfl
@[simp] theorem State.writeRaw_input (c : Nat) (v : Tick) (s : State) : (s.writeRaw c v).input = s.input := rfl
@[simp] theorem State.writeRaw_out (c : Nat) (v : Tick) (s : State) : (s.writeRaw c v).out = s.out := rfl

/-! Commit changes RAW, FR, COMMIT_CNT and the output record (R186). -/

@[simp] theorem State.commit_par (st : Stage) (s : State) : (s.commit st).par = s.par := rfl
@[simp] theorem State.commit_raw (st : Stage) (s : State) : (s.commit st).raw = s.raw.mapIdx fun c v => (st c).getD v := rfl
@[simp] theorem State.commit_pulseStart (st : Stage) (s : State) : (s.commit st).pulseStart = s.pulseStart := rfl
@[simp] theorem State.commit_proto (st : Stage) (s : State) : (s.commit st).proto = s.proto := rfl
@[simp] theorem State.commit_order (st : Stage) (s : State) : (s.commit st).order = s.order := rfl
@[simp] theorem State.commit_fr (st : Stage) (s : State) : (s.commit st).fr = true := rfl
@[simp] theorem State.commit_sbusFs (st : Stage) (s : State) : (s.commit st).sbusFs = s.sbusFs := rfl
@[simp] theorem State.commit_spkDrop (st : Stage) (s : State) : (s.commit st).spkDrop = s.spkDrop := rfl
@[simp] theorem State.commit_spkRes11 (st : Stage) (s : State) : (s.commit st).spkRes11 = s.spkRes11 := rfl
@[simp] theorem State.commit_overdueReq (st : Stage) (s : State) : (s.commit st).overdueReq = s.overdueReq := rfl
@[simp] theorem State.commit_cfgErr (st : Stage) (s : State) : (s.commit st).cfgErr = s.cfgErr := rfl
@[simp] theorem State.commit_commitCnt (st : Stage) (s : State) : (s.commit st).commitCnt = s.commitCnt + 1 := rfl
@[simp] theorem State.commit_cppmLast (st : Stage) (s : State) : (s.commit st).cppmLast = s.cppmLast := rfl
@[simp] theorem State.commit_chNum (st : Stage) (s : State) : (s.commit st).chNum = s.chNum := rfl
@[simp] theorem State.commit_maxChan (st : Stage) (s : State) : (s.commit st).maxChan = s.maxChan := rfl
@[simp] theorem State.commit_lastByteT (st : Stage) (s : State) : (s.commit st).lastByteT = s.lastByteT := rfl
@[simp] theorem State.commit_byteCount (st : Stage) (s : State) : (s.commit st).byteCount = s.byteCount := rfl
@[simp] theorem State.commit_buf (st : Stage) (s : State) : (s.commit st).buf = s.buf := rfl
@[simp] theorem State.commit_xtSum (st : Stage) (s : State) : (s.commit st).xtSum = s.xtSum := rfl
@[simp] theorem State.commit_xtPoison (st : Stage) (s : State) : (s.commit st).xtPoison = s.xtPoison := rfl
@[simp] theorem State.commit_xtMask (st : Stage) (s : State) : (s.commit st).xtMask = s.xtMask := rfl
@[simp] theorem State.commit_xtLen (st : Stage) (s : State) : (s.commit st).xtLen = s.xtLen := rfl
@[simp] theorem State.commit_parseDone (st : Stage) (s : State) : (s.commit st).parseDone = s.parseDone := rfl
@[simp] theorem State.commit_spkPrev (st : Stage) (s : State) : (s.commit st).spkPrev = s.spkPrev := rfl
@[simp] theorem State.commit_spkPrevValid (st : Stage) (s : State) : (s.commit st).spkPrevValid = s.spkPrevValid := rfl
@[simp] theorem State.commit_input (st : Stage) (s : State) : (s.commit st).input = s.input := rfl
@[simp] theorem State.commit_out (st : Stage) (s : State) : (s.commit st).out = some ⟨s.record.ret, s.record.tags ++ [.commit], true⟩ := rfl

/-! A frame boundary changes BYTE_COUNT and ProtocolParseState only (R122). -/

@[simp] theorem State.clearFrame_par (s : State) : (s.clearFrame).par = s.par := rfl
@[simp] theorem State.clearFrame_raw (s : State) : (s.clearFrame).raw = s.raw := rfl
@[simp] theorem State.clearFrame_pulseStart (s : State) : (s.clearFrame).pulseStart = s.pulseStart := rfl
@[simp] theorem State.clearFrame_proto (s : State) : (s.clearFrame).proto = s.proto := rfl
@[simp] theorem State.clearFrame_order (s : State) : (s.clearFrame).order = s.order := rfl
@[simp] theorem State.clearFrame_fr (s : State) : (s.clearFrame).fr = s.fr := rfl
@[simp] theorem State.clearFrame_sbusFs (s : State) : (s.clearFrame).sbusFs = s.sbusFs := rfl
@[simp] theorem State.clearFrame_spkDrop (s : State) : (s.clearFrame).spkDrop = s.spkDrop := rfl
@[simp] theorem State.clearFrame_spkRes11 (s : State) : (s.clearFrame).spkRes11 = s.spkRes11 := rfl
@[simp] theorem State.clearFrame_overdueReq (s : State) : (s.clearFrame).overdueReq = s.overdueReq := rfl
@[simp] theorem State.clearFrame_cfgErr (s : State) : (s.clearFrame).cfgErr = s.cfgErr := rfl
@[simp] theorem State.clearFrame_commitCnt (s : State) : (s.clearFrame).commitCnt = s.commitCnt := rfl
@[simp] theorem State.clearFrame_cppmLast (s : State) : (s.clearFrame).cppmLast = s.cppmLast := rfl
@[simp] theorem State.clearFrame_chNum (s : State) : (s.clearFrame).chNum = s.chNum := rfl
@[simp] theorem State.clearFrame_maxChan (s : State) : (s.clearFrame).maxChan = s.maxChan := rfl
@[simp] theorem State.clearFrame_lastByteT (s : State) : (s.clearFrame).lastByteT = s.lastByteT := rfl
@[simp] theorem State.clearFrame_byteCount (s : State) : (s.clearFrame).byteCount = 0 := rfl
@[simp] theorem State.clearFrame_buf (s : State) : (s.clearFrame).buf = s.buf := rfl
@[simp] theorem State.clearFrame_xtSum (s : State) : (s.clearFrame).xtSum = 0 := rfl
@[simp] theorem State.clearFrame_xtPoison (s : State) : (s.clearFrame).xtPoison = false := rfl
@[simp] theorem State.clearFrame_xtMask (s : State) : (s.clearFrame).xtMask = 0 := rfl
@[simp] theorem State.clearFrame_xtLen (s : State) : (s.clearFrame).xtLen = 0 := rfl
@[simp] theorem State.clearFrame_parseDone (s : State) : (s.clearFrame).parseDone = false := rfl
@[simp] theorem State.clearFrame_spkPrev (s : State) : (s.clearFrame).spkPrev = s.spkPrev := rfl
@[simp] theorem State.clearFrame_spkPrevValid (s : State) : (s.clearFrame).spkPrevValid = s.spkPrevValid := rfl
@[simp] theorem State.clearFrame_input (s : State) : (s.clearFrame).input = s.input := rfl
@[simp] theorem State.clearFrame_out (s : State) : (s.clearFrame).out = s.out := rfl

/-! Flush clears the registers of R204 and keeps the others. -/

@[simp] theorem State.flush_par (s : State) : (s.flush).par = s.par := rfl
@[simp] theorem State.flush_raw (s : State) : (s.flush).raw = s.raw := rfl
@[simp] theorem State.flush_pulseStart (s : State) : (s.flush).pulseStart = s.pulseStart := rfl
@[simp] theorem State.flush_proto (s : State) : (s.flush).proto = s.proto := rfl
@[simp] theorem State.flush_order (s : State) : (s.flush).order = s.order := rfl
@[simp] theorem State.flush_fr (s : State) : (s.flush).fr = s.fr := rfl
@[simp] theorem State.flush_sbusFs (s : State) : (s.flush).sbusFs = false := rfl
@[simp] theorem State.flush_spkDrop (s : State) : (s.flush).spkDrop = false := rfl
@[simp] theorem State.flush_spkRes11 (s : State) : (s.flush).spkRes11 = false := rfl
@[simp] theorem State.flush_overdueReq (s : State) : (s.flush).overdueReq = false := rfl
@[simp] theorem State.flush_cfgErr (s : State) : (s.flush).cfgErr = s.cfgErr := rfl
@[simp] theorem State.flush_commitCnt (s : State) : (s.flush).commitCnt = s.commitCnt := rfl
@[simp] theorem State.flush_cppmLast (s : State) : (s.flush).cppmLast = 0 := rfl
@[simp] theorem State.flush_chNum (s : State) : (s.flush).chNum = 0 := rfl
@[simp] theorem State.flush_maxChan (s : State) : (s.flush).maxChan = 0 := rfl
@[simp] theorem State.flush_lastByteT (s : State) : (s.flush).lastByteT = 0 := rfl
@[simp] theorem State.flush_byteCount (s : State) : (s.flush).byteCount = 0 := rfl
@[simp] theorem State.flush_buf (s : State) : (s.flush).buf = s.buf := rfl
@[simp] theorem State.flush_xtSum (s : State) : (s.flush).xtSum = 0 := rfl
@[simp] theorem State.flush_xtPoison (s : State) : (s.flush).xtPoison = false := rfl
@[simp] theorem State.flush_xtMask (s : State) : (s.flush).xtMask = 0 := rfl
@[simp] theorem State.flush_xtLen (s : State) : (s.flush).xtLen = 0 := rfl
@[simp] theorem State.flush_parseDone (s : State) : (s.flush).parseDone = false := rfl
@[simp] theorem State.flush_spkPrev (s : State) : (s.flush).spkPrev = 0 := rfl
@[simp] theorem State.flush_spkPrevValid (s : State) : (s.flush).spkPrevValid = false := rfl
@[simp] theorem State.flush_input (s : State) : (s.flush).input = s.input := rfl
@[simp] theorem State.flush_out (s : State) : (s.flush).out = s.out := rfl

@[simp] theorem State.begin_record (s : State) : s.begin.record = Output.empty := rfl
@[simp] theorem State.emit_record (t : Tag) (s : State) :
    (s.emit t).record = { s.record with tags := s.record.tags ++ [t] } := rfl
@[simp] theorem State.answer_record (v : Ret) (s : State) :
    (s.answer v).record = { s.record with ret := some v } := rfl
@[simp] theorem State.commit_record (st : Stage) (s : State) :
    (s.commit st).record = ⟨s.record.ret, s.record.tags ++ [.commit], true⟩ := rfl
@[simp] theorem State.clearFrame_record (s : State) : s.clearFrame.record = s.record := rfl
@[simp] theorem State.flush_record (s : State) : s.flush.record = s.record := rfl
@[simp] theorem State.bufWrite_record (i : Nat) (b : Byte) (s : State) : (s.bufWrite i b).record = s.record := rfl
@[simp] theorem State.writeRaw_record (c : Nat) (v : Tick) (s : State) : (s.writeRaw c v).record = s.record := rfl

end Sys2Proof.Machine
end

