-- ==== Sys2Proof/Laws/Memory.lean ====
section
/-! SUPPORT. The laws of the receive buffer's memory: a read after a write, and the canonical form is kept. -/

namespace Sys2Proof.Machine

theorem Memory.read_of_wfFrom {m : Memory} {lo i : Nat} (h : Memory.wfFrom lo m = true) (hi : i < lo) :
    m.read i = Config.bufUnlisted := by
  induction m generalizing lo with
  | nil => rfl
  | cons c m ih =>
    obtain ⟨a, x⟩ := c
    simp only [Memory.wfFrom, Bool.and_eq_true, decide_eq_true_eq] at h
    rw [Memory.read, if_neg (by omega)]
    exact ih h.2 (by omega)

theorem Memory.wfFrom_mono {m : Memory} {lo lo' : Nat} (hl : lo' ≤ lo) (h : Memory.wfFrom lo m = true) :
    Memory.wfFrom lo' m = true := by
  cases m with
  | nil => rfl
  | cons c m =>
    simp only [Memory.wfFrom, Bool.and_eq_true, decide_eq_true_eq] at h ⊢
    exact ⟨⟨by omega, h.1.2⟩, h.2⟩

/-- What a put leaves at every index, if the cells it is put before are above its index. -/
theorem Memory.read_put {m : Memory} {i : Nat} (b : Byte) (h : Memory.wfFrom (i + 1) m = true) (j : Nat) :
    (m.put i b).read j = if j = i then b else m.read j := by
  unfold Memory.put
  by_cases hb : b = Config.bufUnlisted
  · rw [if_pos hb]
    split
    · rename_i e; rw [e, hb]; exact Memory.read_of_wfFrom h (Nat.lt_succ_self _)
    · rfl
  · rw [if_neg hb, Memory.read]
    simp only [eq_comm]

theorem Memory.wfFrom_put {m : Memory} {lo i : Nat} (b : Byte) (hi : lo ≤ i) (h : Memory.wfFrom (i + 1) m = true) :
    Memory.wfFrom lo (m.put i b) = true := by
  unfold Memory.put
  split
  · exact Memory.wfFrom_mono (by omega) h
  · rename_i hb; simp [Memory.wfFrom, hi, hb, h]

/-- A write keeps the canonical form, and the bound of the indices. -/
theorem Memory.wfFrom_write {m : Memory} {lo i : Nat} (b : Byte) (hi : lo ≤ i) (h : Memory.wfFrom lo m = true) :
    Memory.wfFrom lo (m.write i b) = true := by
  induction m generalizing lo with
  | nil => exact Memory.wfFrom_put b hi rfl
  | cons c m ih =>
    obtain ⟨a, x⟩ := c
    have h' := h
    simp only [Memory.wfFrom, Bool.and_eq_true, decide_eq_true_eq] at h
    unfold Memory.write
    split
    · rename_i hlt
      exact Memory.wfFrom_put b hi (by simp [Memory.wfFrom, h.1.2, h.2]; omega)
    · split
      · rename_i e; subst e; exact Memory.wfFrom_put b hi h.2
      · simp only [Memory.wfFrom, Bool.and_eq_true, decide_eq_true_eq]
        exact ⟨h.1, ih (by omega) h.2⟩

/-- A write keeps the canonical form. (A read changes no memory.) -/
theorem Memory.wf_write {m : Memory} (i : Nat) (b : Byte) (h : m.wf = true) : (m.write i b).wf = true :=
  Memory.wfFrom_write b (Nat.zero_le i) h

/-- A read after a write: the byte written at its index, the byte there was at every other. -/
theorem Memory.read_write {m : Memory} {lo : Nat} (i : Nat) (b : Byte) (h : Memory.wfFrom lo m = true) (j : Nat) :
    (m.write i b).read j = if j = i then b else m.read j := by
  induction m generalizing lo with
  | nil => exact Memory.read_put b rfl j
  | cons c m ih =>
    obtain ⟨a, x⟩ := c
    simp only [Memory.wfFrom, Bool.and_eq_true, decide_eq_true_eq] at h
    unfold Memory.write
    split
    · exact Memory.read_put b (by simp [Memory.wfFrom, h.1.2, h.2]; omega) j
    · split
      · rename_i e
        subst e
        rw [Memory.read_put b h.2, Memory.read]
        split
        · rfl
        · rename_i hj; rw [if_neg (Ne.symm hj)]
      · rw [Memory.read, Memory.read, ih h.2]
        split
        · rename_i hne e; rw [if_neg (fun k => hne (k.symm.trans e.symm))]
        · rfl

theorem Memory.read_write_same {m : Memory} (i : Nat) (b : Byte) (h : m.wf = true) : (m.write i b).read i = b := by
  rw [Memory.read_write i b h, if_pos rfl]

theorem Memory.read_write_other {m : Memory} {i j : Nat} (b : Byte) (h : m.wf = true) (hj : j ≠ i) :
    (m.write i b).read j = m.read j := by
  rw [Memory.read_write i b h, if_neg hj]

/-- The cells after a write are the written one and cells there were. -/
theorem Memory.mem_write {m : Memory} {i : Nat} {b : Byte} {c : Host.Cell} (h : c ∈ m.write i b) : c = (i, b) ∨ c ∈ m := by
  have put : ∀ {m : Memory}, c ∈ m.put i b → c = (i, b) ∨ c ∈ m := by
    intro m h
    unfold Memory.put at h
    split at h
    · exact .inr h
    · simpa using h
  induction m with
  | nil => exact put h
  | cons d m ih =>
    obtain ⟨a, x⟩ := d
    unfold Memory.write at h
    split at h
    · exact put h
    · split at h
      · exact (put h).imp_right (List.mem_cons_of_mem _)
      · rcases List.mem_cons.mp h with h | h
        · exact .inr (h ▸ List.mem_cons_self)
        · exact (ih h).imp_right (List.mem_cons_of_mem _)

/-- In canonical form, memories that read alike are the same list. -/
theorem Memory.eq_of_read {m n : Memory} {lo : Nat} (hm : Memory.wfFrom lo m = true) (hn : Memory.wfFrom lo n = true)
    (h : ∀ i, m.read i = n.read i) : m = n := by
  induction m generalizing lo n with
  | nil =>
    cases n with
    | nil => rfl
    | cons d n =>
      simp only [Memory.wfFrom, Bool.and_eq_true, decide_eq_true_eq] at hn
      exact absurd (by simpa [Memory.read] using (h d.1).symm) hn.1.2
  | cons c m ih =>
    obtain ⟨a, x⟩ := c
    have hm' := hm
    simp only [Memory.wfFrom, Bool.and_eq_true, decide_eq_true_eq] at hm
    cases n with
    | nil => exact absurd (by simpa [Memory.read] using h a) hm.1.2
    | cons d n =>
      obtain ⟨a', x'⟩ := d
      have hn' := hn
      simp only [Memory.wfFrom, Bool.and_eq_true, decide_eq_true_eq] at hn
      have low : ∀ {k b y : _} {r : Memory}, Memory.wfFrom (b + 1) r = true → k < b →
          Memory.read ((b, y) :: r) k = Config.bufUnlisted := by
        intro k b y r hr hk
        rw [Memory.read, if_neg (by omega)]
        exact Memory.read_of_wfFrom hr (by omega)
      have ea : a = a' := by
        rcases Nat.lt_trichotomy a a' with hl | he | hl
        · have := h a
          rw [low hn.2 hl, Memory.read, if_pos rfl] at this
          exact absurd this hm.1.2
        · exact he
        · have := h a'
          rw [low hm.2 hl, Memory.read, if_pos rfl] at this
          exact absurd this.symm hn.1.2
      subst ea
      have ex : x = x' := by simpa [Memory.read] using h a
      subst ex
      rw [ih hm.2 hn.2 fun i => ?_]
      by_cases hi : i ≤ a
      · rw [Memory.read_of_wfFrom hm.2 (by omega), Memory.read_of_wfFrom hn.2 (by omega)]
      · have := h i
        rwa [Memory.read, Memory.read, if_neg (by omega), if_neg (by omega)] at this

/-- `BufRead` depends on BUF and on BUF_CAP only. -/
theorem State.bufRead_congr {s s' : State} (hp : s'.par = s.par) (hb : s'.buf = s.buf) (i : Nat) :
    s'.bufRead i = s.bufRead i := by simp [State.bufRead, hp, hb]

/-- A buffer read below BUF_CAP has a value, whatever wrote the entry last (R53). -/
theorem State.bufRead_eq {s : State} {i : Nat} (h : i < s.par.bufCap) : s.bufRead i = some (s.buf.read i) := by
  simp [State.bufRead, h]

theorem State.bufRead_bufWrite_same {s : State} {i : Nat} (b : Byte) (hw : s.buf.wf = true) (h : i < s.par.bufCap) :
    (s.bufWrite i b).bufRead i = some b := by
  simp [State.bufRead, h, Memory.read_write_same _ _ hw]

theorem State.bufRead_bufWrite_other {s : State} {i j : Nat} (b : Byte) (hw : s.buf.wf = true) (h : j ≠ i) :
    (s.bufWrite i b).bufRead j = s.bufRead j := by
  simp [State.bufRead, Memory.read_write_other _ hw h]

/-- BUF at reset is what the contents say (R40, R260). -/
@[simp] theorem State.resetWith_buf (p : Params) (contents : Memory) : (State.resetWith p contents).buf = contents := rfl

/-- The memory of the reset state is in canonical form. -/
theorem State.reset_buf_wf : State.reset.buf.wf = true := rfl

end Sys2Proof.Machine
end

