-- ==== Sys2Proof/Laws/Operands.lean ====
section
/-! SUPPORT. One lemma per operand form: what each reads or computes. -/

namespace Sys2Proof.Machine

theorem elapsed_toNat (a b : Tick) : (elapsed a b).toNat = (a.toNat + (65536 - b.toNat)) % 65536 := by
  simp [elapsed, BitVec.toNat_sub]; omega

theorem satInc_toNat (n : Byte) : (satInc n).toNat = min (n.toNat + 1) 255 := by
  unfold satInc
  split
  · rename_i h; subst h; rfl
  · rename_i h
    have hn : n.toNat ≠ 255 := fun e => h (BitVec.eq_of_toNat_eq (by simpa using e))
    have := n.isLt
    rw [BitVec.toNat_add]; simp; omega

theorem remap_eq_some_iff {o : Vector Byte 16} {w c : Nat} :
    remap o w = some c ↔ ∃ h : w < 16, o[w] ≠ Config.unmapped ∧ o[w].toNat = c := by
  unfold remap
  split
  · rename_i h; split <;> simp_all
  · rename_i h; simp [h]

theorem remap_none_of_ge {o : Vector Byte 16} {w : Nat} (h : 16 ≤ w) : remap o w = none := by
  simp [remap, Nat.not_lt.mpr h]

theorem orderAt_setOrderAt (o : Vector Byte 16) (w v : Nibble) (c : Byte) :
    orderAt (setOrderAt o w c) v = if v = w then c else orderAt o v := by
  simp only [orderAt, setOrderAt, Vector.get_eq_getElem, BitVec.val_toFin, Vector.getElem_set]
  by_cases h : v = w
  · simp [h]
  · have : w.toNat ≠ v.toNat := fun e => h (BitVec.eq_of_toNat_eq e.symm)
    simp [h, this]

theorem raw?_eq_some_iff {s : State} {c : Nat} {v : Tick} :
    s.raw? c = some v ↔ c < s.par.nCh ∧ s.raw[c]? = some v := by
  simp [State.raw?]

theorem pulseStart?_eq_some_iff {s : State} {c : Nat} {v : Tick} :
    s.pulseStart? c = some v ↔ c < s.par.nPwm ∧ s.pulseStart[c]? = some v := by
  simp [State.pulseStart?]

/-- Exactly the entries below BUF_CAP can be read (R53). -/
theorem bufRead_isSome_iff {s : State} {i : Nat} : (s.bufRead i).isSome ↔ i < s.par.bufCap := by
  simp [State.bufRead]

theorem bufWordBE_eq_some_iff {s : State} {i : Nat} {v : BitVec 16} :
    s.bufWordBE i = some v ↔ ∃ hi lo : Byte, s.bufRead i = some hi ∧ s.bufRead (i + 1) = some lo ∧ v = hi ++ lo := by
  simp only [State.bufWordBE, Option.bind_eq_bind, Option.bind_eq_some_iff, Option.pure_def, Option.some.injEq]
  constructor
  · rintro ⟨hi, h1, lo, h2, h3⟩; exact ⟨hi, lo, h1, h2, h3.symm⟩
  · rintro ⟨hi, lo, h1, h2, h3⟩; exact ⟨hi, h1, lo, h2, h3.symm⟩

theorem bufWordBE_isSome {s : State} {i : Nat} (h0 : (s.bufRead i).isSome) (h1 : (s.bufRead (i + 1)).isSome) :
    (s.bufWordBE i).isSome := by
  obtain ⟨a, ha⟩ := Option.isSome_iff_exists.mp h0
  obtain ⟨b, hb⟩ := Option.isSome_iff_exists.mp h1
  exact Option.isSome_iff_exists.mpr ⟨_, bufWordBE_eq_some_iff.mpr ⟨a, b, ha, hb, rfl⟩⟩

/-- Two buffer bytes below BUF_CAP make a word. -/
theorem bufWordBE_eq {s : State} {i : Nat} (h : i + 1 < s.par.bufCap) :
    s.bufWordBE i = some (s.buf.read i ++ s.buf.read (i + 1)) :=
  bufWordBE_eq_some_iff.mpr ⟨_, _, State.bufRead_eq (by omega), State.bufRead_eq h, rfl⟩

/-- A block of buffer bytes, byte for byte. -/
theorem bufReadFrom_eq_some_iff {s : State} {i n : Nat} {bs : List Byte} :
    s.bufReadFrom i n = some bs ↔ bs.length = n ∧ ∀ k, (h : k < bs.length) → s.bufRead (i + k) = some bs[k] := by
  induction n generalizing i bs with
  | zero => cases bs <;> simp [State.bufReadFrom]
  | succ n ih =>
    simp only [State.bufReadFrom, Option.bind_eq_bind, Option.bind_eq_some_iff, Option.pure_def, Option.some.injEq, ih]
    constructor
    · rintro ⟨b, hb, t, ⟨hl, ht⟩, rfl⟩
      refine ⟨by simp [hl], fun k hk => ?_⟩
      cases k with
      | zero => simpa using hb
      | succ k =>
        have := ht k (by simpa using hk)
        simpa [Nat.add_comm, Nat.add_left_comm, Nat.add_assoc] using this
    · rintro ⟨hl, h⟩
      cases bs with
      | nil => simp at hl
      | cons b t =>
        refine ⟨b, h 0 (Nat.succ_pos _), t, ⟨by simpa using hl, fun k hk => ?_⟩, rfl⟩
        have := h (k + 1) (by simpa using hk)
        simpa [Nat.add_comm, Nat.add_left_comm, Nat.add_assoc] using this

/-- A block of buffer bytes below BUF_CAP can be read. -/
theorem bufReadFrom_isSome {s : State} {i n : Nat} (h : i + n ≤ s.par.bufCap) : (s.bufReadFrom i n).isSome := by
  induction n generalizing i with
  | zero => rfl
  | succ n ih =>
    obtain ⟨bs, hbs⟩ := Option.isSome_iff_exists.mp (ih (i := i + 1) (by omega))
    simp [State.bufReadFrom, State.bufRead_eq (show i < s.par.bufCap by omega), hbs]

theorem popcount_le (m : BitVec 16) : popcount m ≤ 16 := by
  unfold popcount
  exact le_trans List.countP_le_length (by simp)

theorem xtLen_toNat (m : BitVec 16) : (BitVec.ofNat 8 (4 + 2 * popcount m)).toNat = 4 + 2 * popcount m := by
  have := popcount_le m
  simp only [BitVec.toNat_ofNat]; omega

end Sys2Proof.Machine
end

