-- ==== Sys2Proof/Laws/Ops.lean ====
section
/-! SUPPORT. The spec lemmas of the shared operations: staging, Commit, Flush and the ignored event. -/

namespace Sys2Proof.Machine

/-- What `Stage` puts where (R181). -/
theorem stageWire_apply (o : Vector Byte 16) (w : Nat) (u : Tick) (st : Stage) (c : Nat) :
    stageWire o w u st c = if remap o w = some c then some u else st c := by
  unfold stageWire
  cases h : remap o w with
  | none => simp
  | some d =>
    simp only [Stage.put, Option.some.injEq]
    by_cases e : c = d
    · subst e; simp
    · simp [e, Ne.symm e]

/-- In a valid table a logical channel has at most one wire index (R26). -/
theorem remap_inj {o : Vector Byte 16} (hv : OrderValid o) {w v c : Nat} (hw : remap o w = some c)
    (hx : remap o v = some c) : w = v := by
  obtain ⟨hw16, hwu, hwc⟩ := remap_eq_some_iff.mp hw
  obtain ⟨hv16, hvu, hvc⟩ := remap_eq_some_iff.mp hx
  by_contra hne
  have h := hv ⟨w, hw16⟩ ⟨v, hv16⟩ (by simpa using hne)
  simp only [Fin.getElem_fin] at h
  rcases h with h | h | h
  · exact hwu h
  · exact hvu h
  · exact h (BitVec.eq_of_toNat_eq (by rw [hwc, hvc]))

/-- Commit publishes a channel's staged value and keeps the channels that are absent (R186). -/
theorem commit_raw_getElem? (st : Stage) (s : State) (c : Nat) :
    (s.commit st).raw[c]? = s.raw[c]?.map fun v => (st c).getD v := by
  simp [List.getElem?_mapIdx]

/-- `Commit(empty)` writes no channel (R186). -/
@[simp] theorem commit_empty_raw (s : State) : (s.commit Stage.empty).raw = s.raw := by
  apply List.ext_getElem? fun c => ?_
  rw [commit_raw_getElem?]
  simp [Stage.empty]

theorem commit_raw_length (st : Stage) (s : State) : (s.commit st).raw.length = s.raw.length := by simp

/-- Commit in closed form (R186). -/
theorem commit_eq (st : Stage) (s : State) :
    s.commit st = { s with
      raw := s.raw.mapIdx fun c v => (st c).getD v
      fr := true
      commitCnt := s.commitCnt + 1
      out := some ⟨s.record.ret, s.record.tags ++ [.commit], true⟩ } := rfl

/-- `Commit(empty)` in closed form (R186). -/
theorem commit_empty_eq (s : State) :
    s.commit Stage.empty = { s with
      fr := true
      commitCnt := s.commitCnt + 1
      out := some ⟨s.record.ret, s.record.tags ++ [.commit], true⟩ } := by
  have h : (s.raw.mapIdx fun c v => (Stage.empty c).getD v) = s.raw := commit_empty_raw s
  rw [commit_eq, h]

/-- The ignored event in closed form (R232). -/
theorem ignored_eq (s : State) : ignored s = .next { s with out := some ⟨none, [.ignored], false⟩ } := rfl

end Sys2Proof.Machine
end

