-- ==== Sys2Proof/Laws/Capture.lean ====
section
/-! SUPPORT. The spec lemmas of the three parts of a CPPM edge (spec R105), each in closed form. -/

namespace Sys2Proof.Machine

/-- The slot part: with `n` the slot count after the sync test, slot `n − 1` is stored if there is one and it is
mapped. -/
theorem cppmSlot_eq (gap : Tick) (s : State) :
    cppmSlot gap s =
      let sync := isSyncGap s.par gap
      let n := if sync then 0 else s.chNum
      let slot := if n = 0 then none else remap s.order (n.toNat - 1)
      { s with
        chNum := n
        raw := match slot with
          | some c => s.raw.set c gap
          | none => s.raw
        out :=
          if sync then some { s.record with tags := s.record.tags ++ [.cppmSync] }
          else if slot.isSome then some { s.record with tags := s.record.tags ++ [.cppmSlot] }
          else s.out } := by
  unfold cppmSlot
  cases h : isSyncGap s.par gap with
  | true => simp [State.emit, State.record]
  | false =>
    simp only [Bool.false_eq_true, if_false]
    by_cases h0 : s.chNum = 0
    · have hn : ¬1 ≤ s.chNum.toNat := by rw [h0]; simp
      rw [if_neg hn]
      simp [h0]
      rw [show (0#8 : Byte) = s.chNum from h0.symm]
    · have hn : 1 ≤ s.chNum.toNat := by
        by_contra hh
        exact h0 (BitVec.eq_of_toNat_eq (by simp; omega))
      rw [if_pos hn]
      simp only [h0, if_false]
      cases hr : remap s.order (s.chNum.toNat - 1) with
      | none => simp
      | some c => simp [State.emit, State.writeRaw, State.record]

/-- The overdue check: a pending report is consumed and MAX_CHAN becomes unknown. -/
theorem cppmRelearn_eq (s : State) :
    cppmRelearn s =
      { s with
        maxChan := if s.overdueReq then 0 else s.maxChan
        overdueReq := false
        out := if s.overdueReq then some { s.record with tags := s.record.tags ++ [.cppmRelearn] } else s.out } := by
  unfold cppmRelearn
  cases h : s.overdueReq with
  | true => simp [State.emit, State.record]
  | false =>
    rw [if_neg (by simp)]
    simp only [Bool.false_eq_true, if_false]
    rw [← h]

/-- The last part: saturated, learning, completing or neither. -/
theorem cppmComplete_eq (saturated : Bool) (s : State) :
    cppmComplete saturated s =
      let learns : Prop := saturated = false ∧ s.maxChan.toNat < s.chNum.toNat
      let completes : Prop := saturated = false ∧ s.chNum = s.maxChan ∧ 2 ≤ s.maxChan.toNat
      { s with
        maxChan := if learns then s.chNum else s.maxChan
        fr := s.fr || decide completes
        commitCnt := if completes then s.commitCnt + 1 else s.commitCnt
        out :=
          if saturated then some { s.record with tags := s.record.tags ++ [.cppmSaturated] }
          else if learns then some { s.record with tags := s.record.tags ++ [.cppmLearn] }
          else if completes then some ⟨s.record.ret, s.record.tags ++ [.commit], true⟩
          else s.out } := by
  unfold cppmComplete
  cases saturated with
  | true => simp [State.emit, State.record]
  | false =>
    simp only [Bool.false_eq_true, if_false, true_and]
    by_cases h1 : s.maxChan.toNat < s.chNum.toNat
    · have hne : s.chNum ≠ s.maxChan := by intro e; rw [e] at h1; omega
      simp [h1, hne, State.emit, State.record]
    · by_cases h2 : s.chNum = s.maxChan ∧ 2 ≤ s.maxChan.toNat
      · rw [if_neg h1, if_pos h2, commit_empty_eq]
        simp [h2]
      · rw [if_neg h1, if_neg h2]
        simp [h1, h2]

end Sys2Proof.Machine
end

