-- ==== Sys2Proof/Laws/Encoding.lean ====
section
/-! SUPPORT. The laws of format E (spec R70): the four fields of a word put together, and a word taken apart. -/

namespace Sys2Proof

/-- Which field a bit of a word belongs to (R70). -/
theorem getLsbD_formatE (o a : Nibble) (d : Byte) (t : Tick) (k : Nat) :
    (formatE o a d t).getLsbD k =
      if k < 16 then t.getLsbD k
      else if k < 24 then d.getLsbD (k - 16)
      else if k < 28 then a.getLsbD (k - 24)
      else o.getLsbD (k - 28) := by
  simp only [formatE, BitVec.getLsbD_setWidth, BitVec.getLsbD_append]
  by_cases h : k < 32
  · simp only [h, decide_true, Bool.true_and]
    split_ifs <;> first | rfl | (exfalso; omega)
  · simp only [h, decide_false, Bool.false_and]
    rw [if_neg (by omega), if_neg (by omega), if_neg (by omega), BitVec.getLsbD_of_ge _ _ (by omega)]

@[simp] theorem op_formatE (o a : Nibble) (d : Byte) (t : Tick) : Word.op (formatE o a d t) = o := by
  apply BitVec.eq_of_getLsbD_eq
  intro k hk
  simp only [Word.op, BitVec.getLsbD_extractLsb', getLsbD_formatE, hk, decide_true, Bool.true_and]
  rw [if_neg (by omega), if_neg (by omega), if_neg (by omega)]
  simp

@[simp] theorem fieldA_formatE (o a : Nibble) (d : Byte) (t : Tick) : Word.fieldA (formatE o a d t) = a := by
  apply BitVec.eq_of_getLsbD_eq
  intro k hk
  simp only [Word.fieldA, BitVec.getLsbD_extractLsb', getLsbD_formatE, hk, decide_true, Bool.true_and]
  rw [if_neg (by omega), if_neg (by omega), if_pos (by omega)]
  simp

@[simp] theorem fieldD_formatE (o a : Nibble) (d : Byte) (t : Tick) : Word.fieldD (formatE o a d t) = d := by
  apply BitVec.eq_of_getLsbD_eq
  intro k hk
  simp only [Word.fieldD, BitVec.getLsbD_extractLsb', getLsbD_formatE, hk, decide_true, Bool.true_and]
  rw [if_neg (by omega), if_pos (by omega)]
  simp

@[simp] theorem fieldT_formatE (o a : Nibble) (d : Byte) (t : Tick) : Word.fieldT (formatE o a d t) = t := by
  apply BitVec.eq_of_getLsbD_eq
  intro k hk
  simp only [Word.fieldT, BitVec.getLsbD_extractLsb', getLsbD_formatE, hk, decide_true, Bool.true_and]
  rw [if_pos (by omega)]
  simp

/-- A word is its four fields (R70). -/
theorem word_eq_formatE (w : Word) :
    w = formatE (Word.op w) (Word.fieldA w) (Word.fieldD w) (Word.fieldT w) := by
  apply BitVec.eq_of_getLsbD_eq
  intro k hk
  rw [getLsbD_formatE]
  simp only [Word.op, Word.fieldA, Word.fieldD, Word.fieldT, BitVec.getLsbD_extractLsb']
  split_ifs
  · simp; omega
  · rw [show 16 + (k - 16) = k by omega]; simp; omega
  · rw [show 24 + (k - 24) = k by omega]; simp; omega
  · rw [show 28 + (k - 28) = k by omega]; simp; omega

/-- Masking a word masks its fields. -/
theorem and_formatE (o a o' a' : Nibble) (d d' : Byte) (t t' : Tick) :
    formatE o a d t &&& formatE o' a' d' t' = formatE (o &&& o') (a &&& a') (d &&& d') (t &&& t') := by
  apply BitVec.eq_of_getLsbD_eq
  intro k _
  simp only [BitVec.getLsbD_and, getLsbD_formatE]
  split_ifs <;> rfl

theorem and_nibble_mask (a : Nibble) : a &&& 0xF = a := by revert a; decide

theorem and_byte_mask (d : Byte) : d &&& 0xFF = d := BitVec.and_allOnes

theorem and_tick_mask (t : Tick) : t &&& 0xFFFF = t := BitVec.and_allOnes

/-- Words with equal bits have equal fields. -/
theorem formatE_inj {o a o' a' : Nibble} {d d' : Byte} {t t' : Tick} (h : formatE o a d t = formatE o' a' d' t') :
    o = o' ∧ a = a' ∧ d = d' ∧ t = t' :=
  ⟨by rw [← op_formatE o a d t, h, op_formatE], by rw [← fieldA_formatE o a d t, h, fieldA_formatE],
   by rw [← fieldD_formatE o a d t, h, fieldD_formatE], by rw [← fieldT_formatE o a d t, h, fieldT_formatE]⟩

/-- The sixteen values of a 4-bit field. -/
theorem nibble_cases : ∀ o : Nibble,
    o = 0 ∨ o = 1 ∨ o = 2 ∨ o = 3 ∨ o = 4 ∨ o = 5 ∨ o = 6 ∨ o = 7 ∨ o = 8 ∨ o = 9 ∨ o = 10 ∨ o = 11 ∨ o = 12 ∨
      o = 13 ∨ o = 14 ∨ o = 15 := by decide

/-- What CFG decodes to, if it decodes: the protocol whose code is its A field (R203). -/
theorem decodeCfg_ok {a : Nibble} {i : Instr} (h : decodeCfg a = .ok i) : ∃ p : Proto, i = .cfg p ∧ p.fieldA = a := by
  rcases nibble_cases a with e | e | e | e | e | e | e | e | e | e | e | e | e | e | e | e <;> subst e <;>
    simp [decodeCfg, Proto.ofCode?] at h <;> exact ⟨_, h.symm, by rfl⟩

/-- The bits an operation reads, as fields (R72). -/
theorem usedBits_eq (i : Instr) :
    usedBits i = match i with
      | .pwmRise _ _ => formatE 0xF 0xF 0 0xFFFF
      | .pwmFall _ _ => formatE 0xF 0xF 0 0xFFFF
      | .cppmEdge _ => formatE 0xF 0 0 0xFFFF
      | .rxByte _ _ => formatE 0xF 0 0xFF 0xFFFF
      | .tmrRd _ => formatE 0xF 0 0 0xFFFF
      | .cfg _ => formatE 0xF 0xF 0 0
      | .ordWr _ _ => formatE 0xF 0xF 0xFF 0
      | .ordRd _ => formatE 0xF 0xF 0 0
      | .frClr => formatE 0xF 0 0 0
      | .overdue => formatE 0xF 0 0 0
      | .chRd _ => formatE 0xF 0xF 0 0
      | .stRd => formatE 0xF 0 0 0 := by cases i <;> rfl

end Sys2Proof
end

