-- ==== Sys2Proof/Laws/Parsers.lean ====
section
/-! SUPPORT. The spec lemmas of the parsers: what a parser never writes, and what each stages. -/

namespace Sys2Proof.Machine

/-- What no parser writes, and how it may publish: a commit, or nothing (R140). -/
structure ParserKeeps (s s' : State) : Prop where
  par : s'.par = s.par
  input : s'.input = s.input
  pulseStart : s'.pulseStart = s.pulseStart
  proto : s'.proto = s.proto
  order : s'.order = s.order
  overdueReq : s'.overdueReq = s.overdueReq
  cfgErr : s'.cfgErr = s.cfgErr
  cppmLast : s'.cppmLast = s.cppmLast
  chNum : s'.chNum = s.chNum
  maxChan : s'.maxChan = s.maxChan
  lastByteT : s'.lastByteT = s.lastByteT
  byteCount : s'.byteCount = s.byteCount
  buf : s'.buf = s.buf
  rawLength : s'.raw.length = s.raw.length
  ret : s'.record.ret = s.record.ret

theorem ParserKeeps.refl (s : State) : ParserKeeps s s := by constructor <;> rfl

theorem ParserKeeps.trans {a b c : State} (h : ParserKeeps a b) (k : ParserKeeps b c) : ParserKeeps a c := by
  constructor
  · exact k.par.trans h.par
  · exact k.input.trans h.input
  · exact k.pulseStart.trans h.pulseStart
  · exact k.proto.trans h.proto
  · exact k.order.trans h.order
  · exact k.overdueReq.trans h.overdueReq
  · exact k.cfgErr.trans h.cfgErr
  · exact k.cppmLast.trans h.cppmLast
  · exact k.chNum.trans h.chNum
  · exact k.maxChan.trans h.maxChan
  · exact k.lastByteT.trans h.lastByteT
  · exact k.byteCount.trans h.byteCount
  · exact k.buf.trans h.buf
  · exact k.rawLength.trans h.rawLength
  · exact k.ret.trans h.ret

theorem ParserKeeps.emit (t : Tag) (s : State) : ParserKeeps s (s.emit t) := by constructor <;> rfl

theorem ParserKeeps.commit (st : Stage) (s : State) : ParserKeeps s (s.commit st) := by
  constructor <;> first | rfl | simp

theorem ParserKeeps.xtHeader (k b : Byte) (s : State) : ParserKeeps s (xtHeader k b s) := by constructor <;> rfl

/-- The completion of an Xtreme frame, case by case (R142, R148(d)). -/
theorem xtComplete_cases {b : Byte} {s s' : State} (h : xtComplete b s = some s') :
    (s.xtPoison = true ∧ s' = s.emit .rejXtPoison) ∨
    (s.xtPoison = false ∧ s.xtMask = 0 ∧ s' = s.emit .rejXtMask) ∨
    (s.xtPoison = false ∧ s.xtMask ≠ 0 ∧ s.xtSum ≠ b ∧ s' = s.emit .rejXtChecksum) ∨
    (s.xtPoison = false ∧ s.xtMask ≠ 0 ∧ s.xtSum = b ∧
      ∃ st, xtStage s (List.range 16) 0 Stage.empty = some st ∧ s' = s.commit st) := by
  unfold xtComplete at h
  split at h
  · rename_i hp; exact .inl ⟨hp, (Option.some.inj h).symm⟩
  rename_i hp
  have hp : s.xtPoison = false := by simpa using hp
  split at h
  · rename_i hm; exact .inr (.inl ⟨hp, hm, (Option.some.inj h).symm⟩)
  rename_i hm
  split at h
  · rename_i hc; exact .inr (.inr (.inl ⟨hp, hm, hc, (Option.some.inj h).symm⟩))
  rename_i hc
  simp only [Option.bind_eq_bind, Option.bind_eq_some_iff, Option.pure_def, Option.some.injEq] at h
  obtain ⟨st, hst, rfl⟩ := h
  exact .inr (.inr (.inr ⟨hp, hm, by simpa using hc, st, hst, rfl⟩))

/-- One byte of the Xtreme parser, case by case (R141, R142). -/
theorem parseXtreme_cases {k b : Byte} {s s' : State} (h : parseXtreme k b s = some s') :
    (s.parseDone = true ∧ s' = s) ∨
    (s.parseDone = false ∧ (k.toNat ≤ 3 ∨ k.toNat < (xtHeader k b s).xtLen.toNat) ∧
      s' = { xtHeader k b s with xtSum := (xtHeader k b s).xtSum + b }) ∨
    (s.parseDone = false ∧ ¬(k.toNat ≤ 3 ∨ k.toNat < (xtHeader k b s).xtLen.toNat) ∧
      xtComplete b { xtHeader k b s with parseDone := true } = some s') := by
  unfold parseXtreme at h
  split at h
  · rename_i hd; exact .inl ⟨hd, (Option.some.inj h).symm⟩
  rename_i hd
  have hd : s.parseDone = false := by simpa using hd
  simp only at h
  split at h
  · rename_i hk; exact .inr (.inl ⟨hd, hk, (Option.some.inj h).symm⟩)
  · rename_i hk; exact .inr (.inr ⟨hd, hk, h⟩)

/-- The completion of an S-Bus frame, case by case (R150). -/
theorem sbusComplete_cases {b : Byte} {s s' : State} (h : sbusComplete b s = some s') :
    (endOk s.par.sbusEnd b = false ∧ s' = s.emit .rejSbEnd) ∨
    (endOk s.par.sbusEnd b = true ∧ ∃ flags, s.bufRead 23 = some flags ∧
      ((flags.getLsbD 5 = true ∧ s' = s.emit .discSbLost) ∨
       (flags.getLsbD 5 = false ∧ ∃ data, s.bufReadFrom 1 22 = some data ∧
        s' = State.commit (sbusStage s data (List.range 16) Stage.empty) { s with sbusFs := flags.getLsbD 4 }))) := by
  unfold sbusComplete at h
  split at h
  · rename_i he
    simp only [Option.bind_eq_bind, Option.bind_eq_some_iff, Option.pure_def] at h
    obtain ⟨flags, hf, h⟩ := h
    refine .inr ⟨he, flags, hf, ?_⟩
    split at h
    · rename_i h5; exact .inl ⟨h5, (Option.some.inj h).symm⟩
    · rename_i h5
      simp only [Option.bind_eq_some_iff, Option.some.injEq] at h
      obtain ⟨data, hd, rfl⟩ := h
      exact .inr ⟨by simpa using h5, data, hd, rfl⟩
  · rename_i he; exact .inl ⟨by simpa using he, (Option.some.inj h).symm⟩

/-- One byte of the S-Bus parser, case by case (R141, R150). -/
theorem parseSbus_cases {k b : Byte} {s s' : State} (h : parseSbus k b s = some s') :
    ((s.parseDone = true ∨ k ≠ 24) ∧ s' = s) ∨
    (s.parseDone = false ∧ k = 24 ∧ sbusComplete b { s with parseDone := true } = some s') := by
  unfold parseSbus at h
  split at h
  · rename_i hc; exact .inl ⟨by simpa using hc, (Option.some.inj h).symm⟩
  · rename_i hc
    simp only [not_or, Bool.not_eq_true, ne_eq, Decidable.not_not] at hc
    exact .inr ⟨hc.1, hc.2, h⟩

/-- The loss counter's part of a Spektrum completion in closed form (R159). -/
theorem spkLoss_eq (loss : Byte) (s : State) :
    spkLoss loss s = { s with
      spkDrop := s.lossChanged loss
      spkPrev := loss
      spkPrevValid := true
      out := if s.lossChanged loss then some { s.record with tags := s.record.tags ++ [.spDropSeen] } else s.out } := by
  unfold spkLoss
  cases h : s.lossChanged loss <;> simp [State.emit, State.record]

/-- The completion of a Spektrum frame (R158). -/
theorem spkComplete_cases {s s' : State} (h : spkComplete s = some s') :
    ∃ loss second st any, s.bufRead 0 = some loss ∧ (spkLoss loss s).bufRead 1 = some second ∧
      spkStage { spkLoss loss s with spkRes11 := second.getLsbD 4 } (second.getLsbD 4) (List.range 7) Stage.empty false =
        some (st, any) ∧
      s' = if any then State.commit st { spkLoss loss s with spkRes11 := second.getLsbD 4 }
        else State.emit .discSpEmpty { spkLoss loss s with spkRes11 := second.getLsbD 4 } := by
  unfold spkComplete at h
  simp only [Option.bind_eq_bind, Option.bind_eq_some_iff, Option.pure_def] at h
  obtain ⟨loss, h0, second, h1, ⟨st, any⟩, h2, h3⟩ := h
  refine ⟨loss, second, st, any, h0, ?_, h2, ?_⟩
  · rw [State.bufRead_congr (s := s)]
    · exact h1
    · rw [spkLoss_eq]
    · rw [spkLoss_eq]
  · have := Option.some.inj h3
    simpa using this.symm

/-- One byte of the Spektrum parser, case by case (R141, R158). -/
theorem parseSpektrum_cases {k : Byte} {s s' : State} (h : parseSpektrum k s = some s') :
    ((s.parseDone = true ∨ k ≠ 15) ∧ s' = s) ∨
    (s.parseDone = false ∧ k = 15 ∧ spkComplete { s with parseDone := true } = some s') := by
  unfold parseSpektrum at h
  split at h
  · rename_i hc; exact .inl ⟨by simpa using hc, (Option.some.inj h).symm⟩
  · rename_i hc
    simp only [not_or, Bool.not_eq_true, ne_eq, Decidable.not_not] at hc
    exact .inr ⟨hc.1, hc.2, h⟩

/-- What no parser writes (R140). -/
theorem parse_keeps {p : SerialProto} {k b : Byte} {s s' : State} (h : parse p k b s = some s') : ParserKeeps s s' := by
  cases p with
  | xtreme =>
    rcases parseXtreme_cases h with ⟨-, rfl⟩ | ⟨-, -, rfl⟩ | ⟨-, -, hc⟩
    · exact .refl _
    · constructor <;> rfl
    · have h0 : ParserKeeps s { xtHeader k b s with parseDone := true } := by
        constructor <;> rfl
      rcases xtComplete_cases hc with ⟨-, rfl⟩ | ⟨-, -, rfl⟩ | ⟨-, -, -, rfl⟩ | ⟨-, -, -, st, -, rfl⟩
      · exact h0.trans (.emit _ _)
      · exact h0.trans (.emit _ _)
      · exact h0.trans (.emit _ _)
      · exact h0.trans (.commit _ _)
  | sbus =>
    rcases parseSbus_cases h with ⟨-, rfl⟩ | ⟨-, -, hc⟩
    · exact .refl _
    · have h0 : ParserKeeps s { s with parseDone := true } := by constructor <;> rfl
      rcases sbusComplete_cases hc with ⟨-, rfl⟩ | ⟨-, flags, -, ⟨-, rfl⟩ | ⟨-, data, -, rfl⟩⟩
      · exact h0.trans (.emit _ _)
      · exact h0.trans (.emit _ _)
      · exact ParserKeeps.trans (b := { s with parseDone := true, sbusFs := flags.getLsbD 4 })
          (by constructor <;> rfl) (.commit _ _)
  | spektrum =>
    rcases parseSpektrum_cases h with ⟨-, rfl⟩ | ⟨-, -, hc⟩
    · exact .refl _
    · obtain ⟨loss, second, st, any, -, -, -, rfl⟩ := spkComplete_cases hc
      have h0 : ParserKeeps s { spkLoss loss { s with parseDone := true } with spkRes11 := second.getLsbD 4 } := by
        rw [spkLoss_eq]
        constructor <;> first | rfl | skip
        simp only [State.record]
        split <;> rfl
      cases any
      · exact h0.trans (.emit _ _)
      · exact h0.trans (.commit _ _)

/-- A stage of S-Bus fields carries each mapped field under its logical channel (R155), given a valid table. -/
theorem sbusStage_mapped {s : State} (hv : OrderValid s.order) {data : List Byte} {js : List Nat} {j c : Nat}
    (hj : j ∈ js) (hc : remap s.order j = some c) (st : Stage) :
    sbusStage s data js st c = some (transform s.par .sbus (sbusField data j)) := by
  suffices h : ∀ (js : List Nat) (st : Stage),
      (j ∈ js ∨ st c = some (transform s.par .sbus (sbusField data j))) →
      sbusStage s data js st c = some (transform s.par .sbus (sbusField data j)) from h js st (.inl hj)
  intro js
  induction js with
  | nil => intro st h; simpa [sbusStage] using h
  | cons i is ih =>
    intro st h
    unfold sbusStage
    apply ih
    rw [stageWire_apply]
    split
    · rename_i hi; right; rw [remap_inj hv hi hc]
    · rename_i hi
      rcases h with h | h
      · rcases List.mem_cons.mp h with rfl | h
        · exact absurd hc hi
        · exact .inl h
      · exact .inr h

/-- A channel that no field maps to keeps what the stage held. -/
theorem sbusStage_other {s : State} {data : List Byte} {js : List Nat} {c : Nat}
    (h : ∀ j ∈ js, remap s.order j ≠ some c) (st : Stage) : sbusStage s data js st c = st c := by
  induction js generalizing st with
  | nil => rfl
  | cons i is ih =>
    unfold sbusStage
    rw [ih (fun j hj => h j (List.mem_cons_of_mem _ hj)), stageWire_apply, if_neg (h i List.mem_cons_self)]

/-- The Xtreme loop has a value to read for every set bit left, so it answers. -/
theorem xtStage_isSome {s : State} {ws : List Nat} {n : Nat} (st : Stage)
    (h : ∀ m, m < ws.countP (fun w => s.xtMask.getLsbD w) → (s.bufWordBE (4 + 2 * (n + m))).isSome) :
    (xtStage s ws n st).isSome := by
  induction ws generalizing n st with
  | nil => rfl
  | cons w ws ih =>
    unfold xtStage
    split
    · rename_i hw
      have h0 := h 0 (by simp [hw])
      obtain ⟨v, hv⟩ := Option.isSome_iff_exists.mp h0
      simp only [Nat.add_zero] at hv
      simp only [hv, Option.bind_eq_bind, Option.bind_some]
      apply ih
      intro m hm
      have := h (m + 1) (by simp [hw, hm])
      rwa [show n + 1 + m = n + (m + 1) by omega]
    · rename_i hw
      apply ih
      intro m hm
      exact h m (by simpa [hw] using hm)

/-- The value of a set mask bit: the word read after those of the lower set bits (R147), given a valid table. -/
theorem xtStage_mapped {s : State} (hv : OrderValid s.order) {c w : Nat} (hc : remap s.order w = some c) {v : BitVec 16}
    (hm : s.xtMask.getLsbD w = true) {a z : List Nat} (hz : w ∉ z) {n : Nat} {st st' : Stage}
    (hr : s.bufWordBE (4 + 2 * (n + a.countP fun w => s.xtMask.getLsbD w)) = some v)
    (h : xtStage s (a ++ w :: z) n st = some st') : st' c = some (transform s.par .xtreme v.toNat) := by
  have tail : ∀ (z : List Nat) (n : Nat) (st : Stage), w ∉ z → xtStage s z n st = some st' → st' c = st c := by
    intro z
    induction z with
    | nil => intro n st _ h; simp [xtStage] at h; rw [h]
    | cons x z ih =>
      intro n st hx h
      simp only [List.mem_cons, not_or] at hx
      unfold xtStage at h
      split at h
      · simp only [Option.bind_eq_bind, Option.bind_eq_some_iff] at h
        obtain ⟨u, -, h⟩ := h
        rw [ih _ _ hx.2 h, stageWire_apply, if_neg]
        intro hx'
        exact hx.1 (remap_inj hv hc hx')
      · exact ih _ _ hx.2 h
  induction a generalizing n st with
  | nil =>
    simp only [List.nil_append] at h
    unfold xtStage at h
    rw [if_pos hm] at h
    simp only [Option.bind_eq_bind, Option.bind_eq_some_iff] at h
    obtain ⟨u, hu, h⟩ := h
    rw [tail _ _ _ hz h, stageWire_apply, if_pos hc]
    simp only [List.countP_nil, Nat.add_zero] at hr
    rw [hr] at hu
    rw [Option.some.inj hu]
  | cons x a ih =>
    simp only [List.cons_append] at h
    unfold xtStage at h
    split at h
    · rename_i hx
      simp only [Option.bind_eq_bind, Option.bind_eq_some_iff] at h
      obtain ⟨u, -, h⟩ := h
      refine ih ?_ h
      rw [show n + 1 + a.countP (fun w => s.xtMask.getLsbD w) = n + (x :: a).countP (fun w => s.xtMask.getLsbD w) by
        simp [hx]; omega]
      exact hr
    · rename_i hx
      refine ih ?_ h
      simpa [hx] using hr

/-- A channel no set mask bit maps to keeps what the stage held. -/
theorem xtStage_other {s : State} {c : Nat} {ws : List Nat} {n : Nat} {st st' : Stage}
    (hn : ∀ w ∈ ws, s.xtMask.getLsbD w = true → remap s.order w ≠ some c) (h : xtStage s ws n st = some st') :
    st' c = st c := by
  induction ws generalizing n st with
  | nil => simp [xtStage] at h; rw [h]
  | cons w ws ih =>
    unfold xtStage at h
    split at h
    · rename_i hw
      simp only [Option.bind_eq_bind, Option.bind_eq_some_iff] at h
      obtain ⟨u, -, h⟩ := h
      rw [ih (fun x hx => hn x (List.mem_cons_of_mem _ hx)) h, stageWire_apply,
        if_neg (hn w List.mem_cons_self hw)]
    · exact ih (fun x hx => hn x (List.mem_cons_of_mem _ hx)) h

/-- The Spektrum loop answers if every word left can be read. -/
theorem spkStage_isSome {s : State} {res11 : Bool} {is : List Nat} (st : Stage) (any : Bool)
    (h : ∀ i ∈ is, (s.bufWordBE (2 + 2 * i)).isSome) : (spkStage s res11 is st any).isSome := by
  induction is generalizing st any with
  | nil => rfl
  | cons i is ih =>
    unfold spkStage
    obtain ⟨w, hw⟩ := Option.isSome_iff_exists.mp (h i List.mem_cons_self)
    simp only [hw, Option.bind_eq_bind, Option.bind_some]
    have := fun st any => ih st any fun j hj => h j (List.mem_cons_of_mem _ hj)
    split
    · exact this _ _
    · exact this _ _

/-- Whether a word of the frame carried a channel (R164). -/
theorem spkStage_any {s : State} {res11 : Bool} {is : List Nat} {st st' : Stage} {any any' : Bool}
    (h : spkStage s res11 is st any = some (st', any')) :
    any' = true ↔ any = true ∨ ∃ i ∈ is, ∃ w, s.bufWordBE (2 + 2 * i) = some w ∧ spkChannel res11 w ≠ 15 := by
  induction is generalizing st any with
  | nil => simp [spkStage] at h; simp [h]
  | cons i is ih =>
    unfold spkStage at h
    simp only [Option.bind_eq_bind, Option.bind_eq_some_iff] at h
    obtain ⟨w, hw, h⟩ := h
    split at h
    · rename_i h15
      rw [ih h]
      constructor
      · rintro (h | ⟨j, hj, h⟩)
        · exact .inl h
        · exact .inr ⟨j, List.mem_cons_of_mem _ hj, h⟩
      · rintro (h | ⟨j, hj, v, hv, h⟩)
        · exact .inl h
        · rcases List.mem_cons.mp hj with rfl | hj
          · rw [hw] at hv; rw [← Option.some.inj hv] at h; exact absurd h15 h
          · exact .inr ⟨j, hj, v, hv, h⟩
    · rename_i h15
      rw [ih h]
      constructor
      · intro _; exact .inr ⟨i, List.mem_cons_self, w, hw, h15⟩
      · intro _; exact .inl rfl

/-- A channel no word of the frame maps to keeps what the stage held (R163). -/
theorem spkStage_other {s : State} {res11 : Bool} {c : Nat} {is : List Nat} {st st' : Stage} {any any' : Bool}
    (hn : ∀ i ∈ is, ∀ w, s.bufWordBE (2 + 2 * i) = some w → spkChannel res11 w ≠ 15 →
      remap s.order (spkChannel res11 w).toNat ≠ some c)
    (h : spkStage s res11 is st any = some (st', any')) : st' c = st c := by
  induction is generalizing st any with
  | nil => simp [spkStage] at h; rw [h.1]
  | cons i is ih =>
    unfold spkStage at h
    simp only [Option.bind_eq_bind, Option.bind_eq_some_iff] at h
    obtain ⟨w, hw, h⟩ := h
    have hn' := fun j hj => hn j (List.mem_cons_of_mem _ hj)
    split at h
    · exact ih hn' h
    · rename_i h15
      rw [ih hn' h, stageWire_apply, if_neg (hn i List.mem_cons_self w hw h15)]

/-- The last word of a channel is the one staged (R163), given a valid table. -/
theorem spkStage_mapped {s : State} (hv : OrderValid s.order) {res11 : Bool} {c i : Nat} {w : BitVec 16}
    (hw : s.bufWordBE (2 + 2 * i) = some w) (h15 : spkChannel res11 w ≠ 15)
    (hc : remap s.order (spkChannel res11 w).toNat = some c) {a z : List Nat}
    (hz : ∀ j ∈ z, ∀ v, s.bufWordBE (2 + 2 * j) = some v → spkChannel res11 v ≠ spkChannel res11 w)
    {st st' : Stage} {any any' : Bool} (h : spkStage s res11 (a ++ i :: z) st any = some (st', any')) :
    st' c = some (transform s.par (spkCodec res11) (spkValue res11 w)) := by
  induction a generalizing st any with
  | nil =>
    simp only [List.nil_append] at h
    unfold spkStage at h
    simp only [hw, Option.bind_eq_bind, Option.bind_some, if_neg h15] at h
    rw [spkStage_other (c := c) ?_ h, stageWire_apply, if_pos hc]
    intro j hj v hjv _ hr
    exact hz j hj v hjv (BitVec.eq_of_toNat_eq (remap_inj hv hr hc))
  | cons x a ih =>
    simp only [List.cons_append] at h
    unfold spkStage at h
    simp only [Option.bind_eq_bind, Option.bind_eq_some_iff] at h
    obtain ⟨v, -, h⟩ := h
    split at h
    · exact ih h
    · exact ih h

end Sys2Proof.Machine
end

