-- ==== Sys2Proof/Laws/Exec.lean ====
section
/-! SUPPORT. The spec lemmas of the assembler, the capture unit and the step: what each can do, said once. -/

namespace Sys2Proof.Machine

/-- A byte whose gap does not exceed the threshold only updates LAST_BYTE_T (R121, R128). -/
theorem frameGap_within {p : SerialProto} {t : Tick} {s : State}
    (h : (elapsed t s.lastByteT).toNat ≤ silenceTicks s.par p) : frameGap p t s = { s with lastByteT := t } := by
  unfold frameGap
  rw [if_neg (by omega)]

/-- A byte whose gap exceeds the threshold starts a frame (R122). -/
theorem frameGap_boundary {p : SerialProto} {t : Tick} {s : State}
    (h : silenceTicks s.par p < (elapsed t s.lastByteT).toNat) :
    frameGap p t s = State.emit .frameStart ({ s with lastByteT := t } : State).clearFrame := by
  unfold frameGap
  rw [if_pos h]

/-- The append of R123, with capacity left. -/
theorem appendByte_fits {b : Byte} {s : State} (h : s.byteCount.toNat < s.par.bufCap) :
    appendByte b s = s.bufWrite s.byteCount.toNat b := by
  unfold appendByte
  rw [if_pos h]

/-- The append of R123, with no capacity left. -/
theorem appendByte_full {b : Byte} {s : State} (h : s.par.bufCap ≤ s.byteCount.toNat) :
    appendByte b s = s.emit .byteDropped := by
  unfold appendByte
  rw [if_neg (by omega)]

/-- What a byte in serial mode does, if it answers: its parser answered on the appended buffer, and BYTE_COUNT is then
incremented (R120). -/
theorem rxByte_eq_some_iff {p : SerialProto} {b : Byte} {t : Tick} {s u : State} :
    rxByte p b t s = some u ↔
      ∃ parsed, parse p (frameGap p t s).byteCount b (appendByte b (frameGap p t s)) = some parsed ∧
        u = { parsed with byteCount := satInc (frameGap p t s).byteCount } := by
  simp only [rxByte, Option.bind_eq_bind, Option.bind_eq_some_iff, Option.pure_def, Option.some.injEq]
  constructor
  · rintro ⟨parsed, h, rfl⟩; exact ⟨parsed, h, rfl⟩
  · rintro ⟨parsed, h, rfl⟩; exact ⟨parsed, h, rfl⟩

/-- RX_BYTE outside the serial modes is ignored (R120, R232). -/
theorem execRxByte_ignored {b : Byte} {t : Tick} {s : State} (h : serialOf s.proto = none) :
    exec (.rxByte b t) s = ignored s := by
  simp only [exec, execRxByte, h]

/-- RX_BYTE in a serial mode answers what its byte step answers. -/
theorem execRxByte_next_iff {b : Byte} {t : Tick} {s u : State} {p : SerialProto} (h : serialOf s.proto = some p) :
    exec (.rxByte b t) s = .next u ↔ rxByte p b t s.begin = some u := by
  simp only [exec, execRxByte, h]
  cases rxByte p b t s.begin with
  | none => simp
  | some v => simp

/-- Which operations of RX_BYTE answer: the ignored event, or a byte step. -/
theorem execRxByte_cases {b : Byte} {t : Tick} {s u : State} (h : exec (.rxByte b t) s = .next u) :
    (serialOf s.proto = none ∧ u = s.begin.emit .ignored) ∨
    ∃ p, serialOf s.proto = some p ∧ rxByte p b t s.begin = some u := by
  cases hp : serialOf s.proto with
  | none =>
    rw [execRxByte_ignored hp] at h
    exact .inl ⟨rfl, (Host.Outcome.next.inj h).symm⟩
  | some p => exact .inr ⟨p, rfl, (execRxByte_next_iff hp).mp h⟩

/-- The stamp and the append of a byte that continues its frame, in closed form (R121, R123). -/
theorem appendByte_stamped_eq (b : Byte) (t : Tick) (s : State) :
    appendByte b { s.begin with lastByteT := t } =
      { s with
        lastByteT := t
        buf := appendedBuf b s
        out := quiet (if s.byteCount.toNat < s.par.bufCap then [] else [.byteDropped]) } := by
  by_cases h : s.byteCount.toNat < s.par.bufCap
  · rw [appendByte_fits (by simpa using h)]
    simp only [appendedBuf, h, if_true]
    rfl
  · rw [appendByte_full (by simpa using h)]
    simp only [appendedBuf, h, if_false]
    rfl

/-- A byte that continues its frame does what its parser does on the appended buffer, and is counted (R120). -/
theorem execRxByte_within {p : SerialProto} {b : Byte} {t : Tick} {s parsed : State} (hp : serialOf s.proto = some p)
    (hc : ContinuesFrame p t s)
    (h : parse p s.byteCount b (appendByte b { s.begin with lastByteT := t }) = some parsed) :
    exec (.rxByte b t) s = .next { parsed with byteCount := satInc s.byteCount } := by
  rw [execRxByte_next_iff hp, rxByte_eq_some_iff]
  have e : frameGap p t s.begin = { s.begin with lastByteT := t } := frameGap_within hc
  rw [e]
  exact ⟨parsed, h, rfl⟩

/-- The protocols PROTO selects for RX_BYTE. -/
theorem serialOf_eq_some_iff {p : Proto} {q : SerialProto} :
    serialOf p = some q ↔
      (p = .xtreme ∧ q = .xtreme) ∨ (p = .sbus ∧ q = .sbus) ∨ (p = .spektrum ∧ q = .spektrum) := by
  cases p <;> cases q <;> simp [serialOf]

/-- `n` samples, `dt` ticks apart. -/
def everyTick (t dt : Tick) : Nat → List Tick
  | 0 => []
  | n + 1 => t :: everyTick (t + dt) dt n

/-- RX_FRAME (R83) is the case of equal gaps. -/
theorem rxFrame_eq_rxTimed (t dt : Tick) (bs : List Byte) : rxFrame t dt bs = rxTimed bs (everyTick t dt bs.length) := by
  induction bs generalizing t with
  | nil => rfl
  | cons b bs ih => simpa [rxFrame, rxTimed, everyTick] using ih (t + dt)

/-- RX_FRAME with a gap that does not exceed the threshold has no frame boundary after its first byte. -/
theorem unbroken_everyTick {par : Params} {p : SerialProto} {dt : Tick} (h : dt.toNat ≤ silenceTicks par p) (t : Tick)
    (n : Nat) : Unbroken par p t (everyTick (t + dt) dt n) := by
  induction n generalizing t with
  | zero => trivial
  | succ n ih =>
    refine ⟨?_, ih (t + dt)⟩
    have : elapsed (t + dt) t = dt := by simp [elapsed, BitVec.add_comm t dt]
    rwa [this]

/-- What one operation of a run can do: the run's outcomes compose. -/
theorem execAll_append (as bs : List Instr) (s : State) :
    execAll (as ++ bs) s =
      match execAll as s with
      | .next u => execAll bs u
      | .fault f => .fault f
      | .refused r => .refused r := by
  induction as generalizing s with
  | nil => rfl
  | cons i is ih =>
    simp only [List.cons_append, execAll]
    cases exec i s with
    | next u => exact ih u
    | fault f => rfl
    | refused r => rfl

/-- A run of one operation and the rest, if it answers. -/
theorem execAll_cons_next_iff {i : Instr} {is : List Instr} {s u : State} :
    execAll (i :: is) s = .next u ↔ ∃ v, exec i s = .next v ∧ execAll is v = .next u := by
  simp only [execAll]
  cases exec i s with
  | next v => simp
  | fault f => simp
  | refused r => simp

end Sys2Proof.Machine
end

