-- ==== Sys2Proof/Laws/Flags.lean ====
section
/-! SUPPORT. The STATUS view, bit by bit. -/

namespace Sys2Proof.Machine

/-- Which register each bit of STATUS shows (R34). -/
theorem status_getLsbD (s : State) (k : Nat) :
    s.status.getLsbD k =
      if k = 0 then s.fr
      else if k = 1 then s.sbusFs
      else if k = 2 then s.spkDrop
      else if k = 3 then s.spkRes11
      else if k = 4 then s.overdueReq
      else if k = 5 then s.cfgErr
      else if k < 8 then false
      else if k < 11 then s.proto.code.getLsbD (k - 8)
      else if k < 16 then false
      else if k < 24 then s.commitCnt.getLsbD (k - 16)
      else s.maxChan.getLsbD (k - 24) := by
  by_cases h : k < 32
  · simp only [State.status, BitVec.getLsbD_setWidth, BitVec.getLsbD_append, h, decide_true, Bool.true_and]
    interval_cases k <;> first | rfl | simp
  · simp only [State.status, BitVec.getLsbD_setWidth, h, decide_false, Bool.false_and]
    repeat rw [if_neg (by omega)]
    rw [BitVec.getLsbD_of_ge _ _ (by omega)]

end Sys2Proof.Machine
end

