-- ==== Sys2Proof/Laws/PerInstr.lean ====
section
/-! SUPPORT. What is said of every operation as syntax, one lemma per constructor. -/

namespace Sys2Proof.Laws.EncodesOpcode

/-- The word of an operation carries its opcode in OP, bits 31:28 (R70, R73, R74, R75), and zeros in the fields the
operation does not use (R82). -/
def Statement (i : Instr) : Prop := Word.op (encode i) = i.opcode ∧ encode i &&& usedBits i = encode i

theorem pwmRise (ch : Nibble) (t : Tick) : Statement (.pwmRise ch t) := by
  simp only [Statement, usedBits_eq, encode, and_formatE, op_formatE, Instr.opcode, and_nibble_mask,
    and_tick_mask, BitVec.and_self, and_self]

theorem pwmFall (ch : Nibble) (t : Tick) : Statement (.pwmFall ch t) := by
  simp only [Statement, usedBits_eq, encode, and_formatE, op_formatE, Instr.opcode, and_nibble_mask,
    and_tick_mask, BitVec.and_self, and_self]

theorem cppmEdge (t : Tick) : Statement (.cppmEdge t) := by
  simp only [Statement, usedBits_eq, encode, and_formatE, op_formatE, Instr.opcode, and_nibble_mask,
    and_tick_mask, BitVec.and_self, and_self]

theorem rxByte (b : Byte) (t : Tick) : Statement (.rxByte b t) := by
  simp only [Statement, usedBits_eq, encode, and_formatE, op_formatE, Instr.opcode, and_nibble_mask,
    and_byte_mask, and_tick_mask, BitVec.and_self, and_self]

theorem tmrRd (t : Tick) : Statement (.tmrRd t) := by
  simp only [Statement, usedBits_eq, encode, and_formatE, op_formatE, Instr.opcode, and_nibble_mask,
    and_tick_mask, BitVec.and_self, and_self]

theorem cfg (p : Proto) : Statement (.cfg p) := by cases p <;> exact ⟨rfl, rfl⟩

theorem ordWr (w : Nibble) (c : Byte) : Statement (.ordWr w c) := by
  simp only [Statement, usedBits_eq, encode, and_formatE, op_formatE, Instr.opcode, and_nibble_mask,
    and_byte_mask, BitVec.and_self, and_self]

theorem ordRd (w : Nibble) : Statement (.ordRd w) := by
  simp only [Statement, usedBits_eq, encode, and_formatE, op_formatE, Instr.opcode, and_nibble_mask,
    BitVec.and_self, and_self]

theorem frClr : Statement .frClr := ⟨rfl, rfl⟩

theorem overdue : Statement .overdue := ⟨rfl, rfl⟩

theorem chRd (c : Nibble) : Statement (.chRd c) := by
  simp only [Statement, usedBits_eq, encode, and_formatE, op_formatE, Instr.opcode, and_nibble_mask,
    BitVec.and_self, and_self]

theorem stRd : Statement .stRd := ⟨rfl, rfl⟩

end Sys2Proof.Laws.EncodesOpcode
end

