-- ==== Sys2Proof/Tests/Slice0.lean ====
section
/-! SUPPORT. The model's own tests: the well-formedness smoke test, hand-written words, one-step tests whose expected
values are the spec's vectors (95_test_vectors.md, example set EP), and a witness for every statement that has
hypotheses. -/

namespace Sys2Proof.Machine.Tests

-- Helpers: small states over the example parameters

/-- The state right after `CFG p` from reset, apart from the output record. -/
def mode (p : Proto) : State := { State.reset with proto := p }

/-- The state in mode `p` after the bytes `bs` of one frame, the last of them at `t`. -/
def inFrame (p : Proto) (bs : List Byte) (t : Tick) : State :=
  { mode p with
    buf := (bs.mapIdx fun i b => (i, b)).filter fun c => c.2 ≠ Config.bufUnlisted
    byteCount := BitVec.ofNat 8 bs.length
    lastByteT := t }

/-- One step on the state `s` with the word `w` presented. -/
def stepOn (w : Word) (s : State) : Result := step { s with input := [w] }

/-- What a test looks at in an outcome. -/
def seen {α : Type} (f : State → α) : Result → Option α
  | .next s => some (f s)
  | .fault _ => none
  | .refused _ => none

/-- The refusal of an outcome, if it is one. -/
def refusalOf : Result → Option Refusal
  | .next _ => none
  | .fault _ => none
  | .refused r => some r

/-- The tags of a state's last step. -/
def tagsOf (s : State) : List Tag := s.record.tags

/-- The output record of an outcome. -/
def outOf (r : Result) : Option Output := (seen State.record r)

-- Well-formedness: an ill-formed term for each check of R78

theorem test_wf_refuses_pwmRise_pin : (Instr.pwmRise 8 0).wellFormed Config.exampleParams = false := by decide
theorem test_wf_refuses_pwmFall_pin : (Instr.pwmFall 8 0).wellFormed Config.exampleParams = false := by decide
theorem test_wf_refuses_chRd_channel : (Instr.chRd 8).wellFormed Config.exampleParams = false := by decide
theorem test_wf_accepts_last_pin : (Instr.pwmRise 7 0).wellFormed Config.exampleParams = true := by decide
theorem test_wf_accepts_last_channel : (Instr.chRd 7).wellFormed Config.exampleParams = true := by decide
theorem test_wf_accepts_illegal_order : (Instr.ordWr 0 8).wellFormed Config.exampleParams = true := by decide

-- Decoding: words of 95_test_vectors.md, or written out from R82 (OP, A, D, T), one per constructor

theorem test_decode_pwmRise : decode 0x1200FF00 = .ok (.pwmRise 2 0xFF00) := by decide
theorem test_decode_pwmFall : decode 0x270013EC = .ok (.pwmFall 7 5100) := by decide
theorem test_decode_cppmEdge : decode 0x30007A12 = .ok (.cppmEdge 31250) := by decide
theorem test_decode_rxByte : decode 0x40F82258 = .ok (.rxByte 0xF8 0x2258) := by decide
theorem test_decode_tmrRd : decode 0x50001234 = .ok (.tmrRd 0x1234) := by decide
theorem test_decode_cfg : decode 0x85000000 = .ok (.cfg .spektrum) := by decide
theorem test_decode_ordWr : decode 0x92FF0000 = .ok (.ordWr 2 0xFF) := by decide
theorem test_decode_ordRd : decode 0xA9000000 = .ok (.ordRd 9) := by decide
theorem test_decode_frClr : decode 0xB0000000 = .ok .frClr := by decide
theorem test_decode_overdue : decode 0xC0000000 = .ok .overdue := by decide
theorem test_decode_chRd : decode 0xD8000000 = .ok (.chRd 8) := by decide
theorem test_decode_stRd : decode 0xE0000000 = .ok .stRd := by decide
theorem test_decode_reserved :
    [0x00000000, 0x60000000, 0x70000000, 0xF0000000, 0x86000000].map (fun w : Word => (decode w).toOption) =
      [none, none, none, none, none] := by decide
theorem test_encode_words :
    encode (.pwmRise 2 0xFF00) = 0x1200FF00 ∧ encode (.pwmFall 7 5100) = 0x270013EC ∧
    encode (.cppmEdge 31250) = 0x30007A12 ∧ encode (.rxByte 0xF8 0x2258) = 0x40F82258 ∧
    encode (.tmrRd 0x1234) = 0x50001234 ∧ encode (.cfg .spektrum) = 0x85000000 ∧
    encode (.ordWr 2 0xFF) = 0x92FF0000 ∧ encode (.ordRd 9) = 0xA9000000 ∧ encode .frClr = 0xB0000000 ∧
    encode .overdue = 0xC0000000 ∧ encode (.chRd 8) = 0xD8000000 ∧ encode .stRd = 0xE0000000 := by decide
theorem test_decodeTableWord : decodeTableWord 32 0x92FF0000 = some (.ordWr 2 0xFF) := by decide
theorem test_withFetchWord_runs_first :
    outOf (step (State.reset.withFetchWord 32 0x50001234)) = some ⟨some (.half 0x1234), [], false⟩ := by decide

-- One step of each operation

/-- V-PWM-2. -/
theorem test_pwmRise_records :
    seen (fun s => (s.pulseStart[2]?, tagsOf s)) (stepOn 0x1200FF00 (mode .pwm)) = some (some 0xFF00, [.pwmStart]) := by
  decide
/-- V-PWM-6. -/
theorem test_pwmRise_refused : refusalOf (stepOn 0x18000000 (mode .pwm)) = some .noSuchPin := by decide

/-- V-PWM-2: the width wraps. -/
theorem test_pwmFall_wraps :
    seen (fun s => (s.raw[2]?, tagsOf s, s.fr))
        (stepOn 0x22000010 { mode .pwm with pulseStart := [0, 0, 0xFF00, 0, 0, 0, 0, 0] }) =
      some (some 272, [.pwmWidth], false) := by decide
/-- V-PWM-4: the designated channel commits. -/
theorem test_pwmFall_commits :
    seen (fun s => (s.raw[7]?, s.record, s.status))
        (stepOn 0x270013EC { mode .pwm with pulseStart := [0, 0, 0, 0, 0, 0, 0, 100] }) =
      some (some 5000, ⟨none, [.pwmWidth, .commit], true⟩, 0x00010101) := by decide

/-- V-CPPM-3: a gap equal to SYNC_TICKS is a slot. -/
theorem test_cppmEdge_sync_threshold :
    seen (fun s => (s.raw[0]?, tagsOf s, s.chNum, s.maxChan))
        (stepOn 0x30002A5E { mode .cppm with cppmLast := 0x1000, chNum := 1, maxChan := 1 }) =
      some (some 6750, [.cppmSlot, .cppmLearn], 2, 2) := by decide
/-- V-CPPM-1, the edge at 2964: a wrapped slot that completes the frame. -/
theorem test_cppmEdge_commits :
    seen (fun s => (s.raw[3]?, s.record, s.status))
        (stepOn 0x30000B94 { mode .cppm with cppmLast := 65500, chNum := 4, maxChan := 5 }) =
      some (some 3000, ⟨none, [.cppmSlot, .commit], true⟩, 0x05010201) := by decide

/-- V-XT-2's checksum byte, and V-SP-2's last byte. -/
theorem test_rxByte_big_endian :
    seen (fun s => (s.raw, s.record, s.status))
        (stepOn (encode (.rxByte 0xC7 0x2320))
          { inFrame .xtreme [0, 0, 0, 5, 3, 0xE8, 7, 0xD0] 0x22BC with xtSum := 0xC7, xtMask := 5, xtLen := 8 }) =
      some ([2500, 3750, 5000, 3750, 3750, 3750, 3750, 3750], ⟨none, [.commit], true⟩, 0x00010301) ∧
    seen (fun s => (s.raw, tagsOf s, s.spkRes11))
        (stepOn (encode (.rxByte 0xFF 0x2320))
          { inFrame .spektrum [1, 0x10, 0x24, 0, 0x28, 0, 0x37, 0xFF, 4, 0x4C, 0xFF, 0xFF, 0xFF, 0xFF, 0xFF] 0x22BC with
            spkPrevValid := true }) =
      some ([3845, 3750, 3750, 3750, 3750, 2470, 5028, 3750], [.spDropSeen, .commit], true) := by decide
/-- V-SB-2's end byte. -/
theorem test_rxByte_sbus :
    seen (fun s => (s.raw, s.record, s.status))
        (stepOn 0x40002960
          (inFrame .sbus [0xF0, 0x00, 0xF8, 0x7F, 0x00, 0x00, 0xC8, 0x8A, 0x89, 0x83, 0x8F, 0xBB, 0xD0, 0x1F, 0x00, 0x01,
            0x0A, 0x60, 0x80, 0x03, 0x20, 0x20, 0x01, 0x00] 0x28FC)) =
      some ([2150, 5348, 2151, 3750, 2418, 4979, 3700, 4493], ⟨none, [.commit], true⟩, 0x00010401) := by
  decide +kernel

/-- V-TMR-5. -/
theorem test_tmrRd : outOf (stepOn 0x50001234 (mode .cppm)) = some ⟨some (.half 0x1234), [], false⟩ := by decide

/-- 2.9, row 10: a duplicate entry. -/
theorem test_cfg_bad :
    seen (fun s => (s.proto, tagsOf s, s.status)) (stepOn 0x84000000 { State.reset with
        order := #v[0, 0, 2, 3, 4, 5, 6, 7, 0xFF, 0xFF, 0xFF, 0xFF, 0xFF, 0xFF, 0xFF, 0xFF] }) =
      some (.disabled, [.cfgBad], 0x00000020) := by decide
/-- 2.9, row 12. -/
theorem test_cfg_ok :
    seen (fun s => (s.proto, tagsOf s, s.status)) (stepOn 0x84000000 { State.reset with cfgErr := true }) =
      some (.sbus, [.cfgOk], 0x00000400) := by decide

/-- 2.9, row 8. -/
theorem test_ordWr_dropped :
    seen (fun s => (s.order, tagsOf s, s.status)) (stepOn 0x90080000 State.reset) =
      some (State.reset.order, [.ordDropped], 0x00000020) := by decide
/-- 2.9, row 9. -/
theorem test_ordWr_ok :
    seen (fun s => (s.order.toList.take 3, tagsOf s)) (stepOn 0x91000000 State.reset) = some ([0, 0, 2], [.ordOk]) := by
  decide

/-- 2.9, row 2. -/
theorem test_ordRd_unmapped : outOf (stepOn 0xA9000000 State.reset) = some ⟨some (.half 0x00FF), [], false⟩ := by decide
/-- 2.9, row 3. -/
theorem test_ordRd_mapped : outOf (stepOn 0xA3000000 State.reset) = some ⟨some (.half 0x0003), [], false⟩ := by decide

/-- P1, lines 10 and 11. -/
theorem test_frClr :
    seen State.status (stepOn 0xB0000000 { mode .sbus with fr := true, commitCnt := 1 }) = some 0x00010400 := by decide

/-- 2.9, row 14. -/
theorem test_overdue :
    seen State.status (stepOn 0xC0000000 { mode .sbus with cfgErr := true }) = some 0x00000430 := by decide

/-- V-PWM-5: the pattern 0x8000. -/
theorem test_chRd :
    outOf (stepOn 0xD1000000 { mode .pwm with raw := [0, 0x8000, 0, 0, 0, 0, 0, 0] }) =
      some ⟨some (.half 32768), [], false⟩ := by decide
/-- 2.9, row 5. -/
theorem test_chRd_refused : refusalOf (stepOn 0xD8000000 State.reset) = some .noSuchChannel := by decide

/-- V-SP-2's STATUS, built from its fields (R34). -/
theorem test_stRd :
    outOf (stepOn 0xE0000000 { mode .spektrum with fr := true, spkDrop := true, spkRes11 := true, commitCnt := 2 }) =
      some ⟨some (.full 0x0002050D), [], false⟩ := by decide

-- Witnesses: for every statement with hypotheses, concrete inputs that meet all of them

theorem exampleParams_valid : Config.exampleParams.Valid := by constructor <;> decide

/-- The parts of the invariant that concern a state over the example parameters, as one check. -/
def invChecks (s : State) : Bool :=
  decide (s.raw.length = 8) && decide (s.pulseStart.length = 8) &&
  decide (∀ w : Fin 16, s.order[w] = Config.unmapped ∨ s.order[w].toNat < 8) &&
  decide (s.proto ≠ .disabled → OrderValid s.order) &&
  Memory.wf s.buf && s.buf.all (fun c => decide (c.1 < 40)) &&
  decide (s.proto = .xtreme → s.parseDone = false →
    s.xtSum = ((List.range s.byteCount.toNat).map s.frameByte).sum ∧
    s.xtPoison = (decide (1 ≤ s.byteCount.toNat) && decide ((s.frameByte 0).extractLsb' 5 3 ≠ 0)) ∧
    s.xtMask =
      (if 3 ≤ s.byteCount.toNat then s.frameByte 2 else 0) ++ (if 4 ≤ s.byteCount.toNat then s.frameByte 3 else 0) ∧
    (4 ≤ s.byteCount.toNat → s.xtLen.toNat = 4 + 2 * popcount s.xtMask ∧ s.byteCount.toNat ≤ s.xtLen.toNat))

theorem inv_of_checks {s : State} (hp : s.par = Config.exampleParams) (h : invChecks s = true) : Inv s := by
  simp only [invChecks, Bool.and_eq_true, decide_eq_true_eq, List.all_eq_true] at h
  obtain ⟨⟨⟨⟨⟨⟨h1, h2⟩, h3⟩, h4⟩, h5⟩, h6⟩, h7⟩ := h
  have hn : s.par.nCh = 8 := by rw [hp]; rfl
  have hw : s.par.nPwm = 8 := by rw [hp]; rfl
  have hb : s.par.bufCap = 40 := by rw [hp]; rfl
  exact
    { parValid := hp ▸ exampleParams_valid
      rawLength := h1.trans hn.symm
      pulseLength := h2.trans hw.symm
      orderLegal := fun w => by rw [hn]; exact h3 w
      enabledOrderValid := h4
      bufWf := h5
      bufBounded := fun c hc => by rw [hb]; simpa using h6 c hc
      xtremeTracks := fun hx hd => ⟨(h7 hx hd).1, (h7 hx hd).2.1, (h7 hx hd).2.2.1, (h7 hx hd).2.2.2⟩ }

/-- An Xtreme frame before its checksum byte: mask 0x0005, sum 0xC7 (V-XT-2). -/
def xtReady : State :=
  { inFrame .xtreme [0, 0, 0, 5, 3, 0xE8, 7, 0xD0] 0x22BC with xtSum := 0xC7, xtMask := 5, xtLen := 8 }

/-- An S-Bus frame before its end byte, with the given flags byte. -/
def sbReady (flags : Byte) : State := inFrame .sbus (List.replicate 23 0 ++ [flags]) 0x28FC

/-- A Spektrum frame before its last byte, all words 0xFFFF but the first. -/
def spReady (hi : Byte) : State := inFrame .spektrum ([0, 0, hi] ++ List.replicate 12 0xFF) 0x22BC

theorem inv_reset : Inv State.reset := inv_of_checks rfl (by decide)
theorem inv_mode (p : Proto) : Inv (mode p) := by cases p <;> exact inv_of_checks rfl (by decide)
theorem inv_xtReady : Inv xtReady := inv_of_checks rfl (by decide +kernel)
theorem inv_sbReady : Inv (sbReady 0) ∧ Inv (sbReady 0x20) :=
  ⟨inv_of_checks rfl (by decide +kernel), inv_of_checks rfl (by decide +kernel)⟩
theorem inv_spReady : Inv (spReady 0) ∧ Inv (spReady 0xFF) :=
  ⟨inv_of_checks rfl (by decide +kernel), inv_of_checks rfl (by decide +kernel)⟩

theorem witness_UnusedFieldsIgnored :
    decode 0x1200FF00 = .ok (.pwmRise 2 0xFF00) ∧
    (0x12AAFF00 : Word) &&& usedBits (.pwmRise 2 0xFF00) = 0x1200FF00 &&& usedBits (.pwmRise 2 0xFF00) := by decide
theorem witness_StepRunsDecodedInstruction :
    ({ mode .pwm with input := [0x1200FF00, 0xE0000000] } : State).input = 0x1200FF00 :: [0xE0000000] ∧
    decode 0x1200FF00 = .ok (.pwmRise 2 0xFF00) ∧
    (seen State.input (step { mode .pwm with input := [0x1200FF00, 0xE0000000] })) = some [0xE0000000] := by decide
theorem witness_RefusedWordsExactly :
    Inv { State.reset with input := [0xD8000000] } ∧
    refusalOf (stepOn 0xF0000000 State.reset) = some (.undecodable (.reservedOp 0xF)) ∧
    refusalOf (stepOn 0x28000000 State.reset) = some .noSuchPin ∧
    refusalOf (stepOn 0xD8000000 State.reset) = some .noSuchChannel ∧
    refusalOf (stepOn 0x86000000 State.reset) = some (.undecodable (.reservedProtocol 6)) ∧
    refusalOf (stepOn 0xD7000000 State.reset) = none ∧ refusalOf (stepOn 0x85000000 State.reset) = none ∧
    (8 : Byte) ≠ 0xFF ∧ State.reset.par.nCh ≤ (8 : Byte).toNat :=
  ⟨inv_of_checks rfl (by decide), by decide, by decide, by decide, by decide, by decide, by decide, by decide, by decide⟩
theorem witness_EveryLegalWordCompletes : Inv xtReady ∧ (Instr.chRd 7).wellFormed xtReady.par = true :=
  ⟨inv_xtReady, by decide⟩
/-- Contents of BUF at their boundaries: none listed, and the first and the last entry. -/
theorem bufContents_example :
    BufContents Config.exampleParams [] ∧ BufContents Config.exampleParams [(0, 0xFF), (39, 1)] :=
  ⟨⟨rfl, by simp⟩, ⟨by decide, by decide⟩⟩
theorem witness_ResetSatisfiesInvariant :
    Config.exampleParams.Valid ∧ BufContents Config.exampleParams [(0, 0xFF), (39, 1)] :=
  ⟨exampleParams_valid, bufContents_example.2⟩
theorem witness_StepKeepsInvariant : Inv { mode .xtreme with input := [0x400F2000] } ∧
    Completes (step { mode .xtreme with input := [0x400F2000] }) :=
  ⟨inv_of_checks rfl (by decide), _, rfl⟩
theorem inactiveIdle_mode (p : Proto) (w : Word) : InactiveIdle { mode p with input := [w] } := by
  constructor <;> intro _ <;> first | rfl | exact ⟨rfl, rfl, rfl⟩ | exact ⟨rfl, rfl, rfl, rfl⟩
theorem witness_StepKeepsInactiveIdle : InactiveIdle { mode .cppm with input := [0x30002710] } ∧
    Completes (step { mode .cppm with input := [0x30002710] }) := ⟨inactiveIdle_mode _ _, _, rfl⟩
theorem witness_SlotCountWithinLearnedCount :
    ({ mode .cppm with chNum := 5, maxChan := 5 } : State).chNum.toNat ≤ 5 ∧
    seen (fun t => (t.chNum, t.maxChan)) (stepOn 0x30002710 { mode .cppm with chNum := 5, maxChan := 5 }) = some (1, 5) ∧
    seen (fun t => (t.chNum, t.maxChan)) (stepOn 0x30000BB8 { mode .cppm with chNum := 255, maxChan := 3 }) =
      some (255, 3) := by decide
theorem witness_ParametersAndSizesFixed : Completes (exec (.pwmFall 7 5100) (mode .pwm)) := ⟨_, rfl⟩
theorem witness_ResetEntryState :
    Config.exampleParams.Valid ∧
    ((Instr.pwmRise 7 5).wellFormed Config.exampleParams = true ∧ (Instr.pwmRise 7 5).isReceiverEvent = true) ∧
    (Instr.chRd 7).wellFormed Config.exampleParams = true ∧ (Instr.chRd 7).isReceiverEvent = false :=
  ⟨exampleParams_valid, by decide, by decide⟩
theorem witness_ResetReadsDefaults :
    Config.exampleParams.Valid ∧ Config.exampleParams.defaultFill[(7 : Nibble).toNat]? = some 3750 ∧
    (7 : Nibble).toNat < Config.exampleParams.nCh ∧ ¬(8 : Nibble).toNat < Config.exampleParams.nCh ∧
    7 < Config.exampleParams.nPwm ∧ 39 < Config.exampleParams.bufCap ∧
    (State.resetWith Config.exampleParams [(0, 0xFF), (39, 1)]).bufRead 39 = some 1 ∧
    (State.resetWith Config.exampleParams [(0, 0xFF), (39, 1)]).bufRead 38 = some 0 :=
  ⟨exampleParams_valid, by decide, by decide, by decide, by decide, by decide, by decide, by decide⟩
/-- The hypotheses on OP and A of TmrRdReturnsSample, PwmRiseRecordsSample, PwmFallStoresWidth, CppmEdgeFollowsRule,
RxByteStampsAppendsCounts, CfgSelectsAndFlushes (both word clauses, A = 6 the boundary), OrdWrWritesOneEntry,
OrdRdReturnsEntry, FrClrAndOverdueWriteOneFlag, ChRdReturnsChannel and StRdReturnsStatusLayout. -/
theorem witness_opcodes :
    Word.op 0x1200FF00 = 0x1 ∧ Word.op 0x270013EC = 0x2 ∧ Word.op 0x30002710 = 0x3 ∧ Word.op 0x40F82258 = 0x4 ∧
    Word.op 0x50001234 = 0x5 ∧ Word.op 0x84000000 = 0x8 ∧ Word.fieldA 0x84000000 = Proto.sbus.fieldA ∧
    Word.op 0x86000000 = 0x8 ∧ 6 ≤ (Word.fieldA 0x86000000).toNat ∧ Word.op 0x92FF0000 = 0x9 ∧
    Word.op 0xA9000000 = 0xA ∧ Word.op 0xB0000000 = 0xB ∧ Word.op 0xC0000000 = 0xC ∧ Word.op 0xD8000000 = 0xD ∧
    Word.op 0xE0000000 = 0xE := by decide
theorem witness_ElapsedRecoversTrueInterval :
    (65535 : Nat) < 65536 ∧ elapsed ((0xFF00 : Tick) + BitVec.ofNat 16 65535) 0xFF00 = 65535 ∧
    elapsed ((0xFF00 : Tick) + BitVec.ofNat 16 65536) 0xFF00 = 0 := by decide
theorem witness_PwmRiseRecordsSample :
    (mode .pwm).pulseStart.length = (mode .pwm).par.nPwm ∧ (mode .pwm).par.nPwm ≤ (8 : Nibble).toNat ∧
    (7 : Nibble).toNat < (mode .pwm).par.nPwm ∧ (mode .pwm).proto = .pwm ∧
    (mode .cppm).pulseStart.length = (mode .cppm).par.nPwm ∧ (7 : Nibble).toNat < (mode .cppm).par.nPwm ∧
    (mode .cppm).proto ≠ .pwm := by decide
theorem witness_PwmFallStoresWidth :
    (mode .pwm).pulseStart.length = (mode .pwm).par.nPwm ∧ (mode .pwm).par.nPwm ≤ (8 : Nibble).toNat ∧
    (mode .pwm).pulseStart[(6 : Nibble).toNat]? = some 0 ∧ (6 : Nibble).toNat ≠ (mode .pwm).par.pwmFrameCh ∧
    (mode .pwm).pulseStart[(7 : Nibble).toNat]? = some 0 ∧ (7 : Nibble).toNat = (mode .pwm).par.pwmFrameCh ∧
    (mode .pwm).proto = .pwm ∧ (7 : Nibble).toNat < (mode .sbus).par.nPwm ∧ (mode .sbus).proto ≠ .pwm := by decide
theorem witness_PwmPinsCommute :
    Inv (mode .pwm) ∧ (7 : Nibble) ≠ 0 ∧ IsPwmEventOn 7 (.pwmFall 7 5100) ∧ IsPwmEventOn 0 (.pwmRise 0 1000) ∧
    (7 : Nibble).toNat < (mode .pwm).par.nPwm ∧ (0 : Nibble).toNat < (mode .pwm).par.nPwm :=
  ⟨inv_mode _, by decide, ⟨_, .inr rfl⟩, ⟨_, .inl rfl⟩, by decide, by decide⟩
theorem witness_CppmEdgeFollowsRule : (mode .sbus).proto ≠ .cppm ∧ (mode .cppm).proto = .cppm := by decide
theorem witness_CppmLearningLaw :
    Inv (mode .cppm) ∧ (mode .cppm).proto = .cppm ∧
    (mode .cppm).par.syncTicks < (elapsed 6751 (mode .cppm).cppmLast).toNat ∧
    (elapsed 749 (mode .cppm).cppmLast).toNat < (mode .cppm).par.minPulseTicks ∧
    (∀ w ∈ ([750, 6750] : List Tick), w.toNat ≤ (mode .cppm).par.syncTicks ∧ (mode .cppm).par.minPulseTicks ≤ w.toNat) ∧
    remap (mode .cppm).order 1 = some 1 ∧ (mode .cppm).maxChan = 0 := by
  refine ⟨inv_mode _, by decide, by decide, by decide, fun w h => ?_, by decide, by decide⟩
  simp only [List.mem_cons, List.not_mem_nil, or_false] at h
  rcases h with rfl | rfl <;> decide
/-- A CPPM state that has learned a count of three. -/
def cppmLearned : State := { mode .cppm with maxChan := 3 }
theorem witness_CppmLearningLaw_known :
    Inv cppmLearned ∧ Inv { cppmLearned with overdueReq := true } ∧ cppmLearned.proto = .cppm ∧
    cppmLearned.overdueReq = false ∧ cppmLearned.par.syncTicks < (elapsed 10000 cppmLearned.cppmLast).toNat ∧
    cppmLearned.maxChan.toNat = 2 + 1 :=
  ⟨inv_of_checks rfl (by decide), inv_of_checks rfl (by decide), by decide +kernel⟩
theorem witness_RxByteStampsAppendsCounts :
    Inv { inFrame .xtreme [1] 0x2000 with xtSum := 1 } ∧ serialOf (inFrame .xtreme [1] 0x2000).proto = some .xtreme ∧
    Inv (inFrame .sbus (List.replicate 39 0) 0x2000) ∧ Inv { inFrame .sbus (List.replicate 40 0) 0x2000 with byteCount := 255 } :=
  ⟨inv_of_checks rfl (by decide), by decide, inv_of_checks rfl (by decide +kernel), inv_of_checks rfl (by decide +kernel)⟩
theorem witness_FrameBoundaryClearsFrameState :
    Inv xtReady ∧ serialOf xtReady.proto = some .xtreme ∧
    silenceTicks xtReady.par .xtreme < (elapsed (0x22BC + 5001) xtReady.lastByteT).toNat :=
  ⟨inv_xtReady, by decide, by decide⟩
theorem witness_ContinuesFrame : ContinuesFrame .xtreme (0x22BC + 5000) xtReady := by unfold ContinuesFrame; decide
theorem witness_ParserIgnoresOtherBytes :
    (serialOf (mode .xtreme).proto = some .xtreme ∧ ContinuesFrame .xtreme 5000 { mode .xtreme with parseDone := true }) ∧
    (serialOf (mode .sbus).proto = some .sbus ∧ ContinuesFrame .sbus 5000 (mode .sbus) ∧ (mode .sbus).byteCount ≠ 24) ∧
    serialOf (mode .spektrum).proto = some .spektrum ∧ ContinuesFrame .spektrum 5000 (mode .spektrum) ∧
    (mode .spektrum).byteCount ≠ 15 := by unfold ContinuesFrame; decide
theorem witness_OldBufferBytesUnobservable :
    Inv (inFrame .sbus [1] 0) ∧ Inv { inFrame .sbus [1] 0 with buf := [(0, 1), (7, 9)] } ∧
    { inFrame .sbus [1] 0 with buf := [(0, 1), (7, 9)] } = ({ inFrame .sbus [1] 0 with buf := [(0, 1), (7, 9)] } : State) ∧
    (∀ a < (inFrame .sbus [1] 0).byteCount.toNat,
      (inFrame .sbus [1] 0).bufRead a = ({ inFrame .sbus [1] 0 with buf := [(0, 1), (7, 9)] } : State).bufRead a) ∧
    Completes (exec (.rxByte 5 100) (inFrame .sbus [1] 0)) := by
  refine ⟨inv_of_checks rfl (by decide), inv_of_checks rfl (by decide), rfl, fun a h => ?_, _, rfl⟩
  obtain rfl : a = 0 := Nat.lt_one_iff.mp h
  decide
theorem witness_FirstIntervalImmaterial :
    Inv (mode .sbus) ∧ serialOf (mode .sbus).proto = some .sbus ∧ (mode .sbus).byteCount = 0 ∧
    (mode .sbus).parseDone = false ∧ XtremeIdle (mode .sbus) ∧ (mode .cppm).proto = .cppm ∧ (mode .cppm).chNum = 0 :=
  ⟨inv_mode _, by decide, by decide, by decide, ⟨rfl, rfl, rfl, rfl⟩, by decide, by decide⟩
theorem witness_BurstCommitsAtMostOnce :
    Inv xtReady ∧ serialOf xtReady.proto = some .xtreme ∧
    Unbroken xtReady.par .xtreme 0x2320 [0x2320 + 5000, 0x2320 + 5000, 0x2320 + 5100] ∧
    seen State.commitCnt
      (execAll (rxTimed [0xC7, 0, 1, 2] [0x2320, 0x2320 + 5000, 0x2320 + 5000, 0x2320 + 5100]) xtReady) = some 1 :=
  ⟨inv_xtReady, by decide, ⟨by decide, by decide, by decide, trivial⟩, by decide +kernel⟩
theorem witness_XtremeAccumulates :
    (mode .xtreme).proto = .xtreme ∧ (mode .xtreme).parseDone = false ∧
    ContinuesFrame .xtreme 5000 (inFrame .xtreme [0, 0, 0] 0) ∧
    (inFrame .xtreme [0, 0, 0] 0).byteCount.toNat < 40 ∧ (inFrame .xtreme [0, 0, 0] 0).byteCount.toNat ≤ 3 ∧
    ({ xtReady with byteCount := 7 } : State).byteCount.toNat < xtReady.xtLen.toNat := by unfold ContinuesFrame; decide
theorem witness_XtremeRejectsInOrder :
    xtReady.proto = .xtreme ∧ ContinuesFrame .xtreme 0x2320 xtReady ∧ xtReady.parseDone = false ∧
    4 ≤ xtReady.byteCount.toNat ∧ xtReady.byteCount = xtReady.xtLen ∧ xtReady.byteCount.toNat < xtReady.par.bufCap ∧
    xtReady.xtSum ≠ 0xC6 ∧ ({ xtReady with xtPoison := true } : State).xtPoison = true ∧
    ({ xtReady with xtMask := 0 } : State).xtMask = 0 := by unfold ContinuesFrame; decide
theorem witness_XtremeCommitsMaskedChannels :
    Inv xtReady ∧ xtReady.proto = .xtreme ∧ ContinuesFrame .xtreme 0x2320 xtReady ∧ xtReady.parseDone = false ∧
    4 ≤ xtReady.byteCount.toNat ∧ xtReady.byteCount = xtReady.xtLen ∧ xtReady.xtPoison = false ∧ xtReady.xtMask ≠ 0 ∧
    xtReady.xtSum = 0xC7 :=
  ⟨inv_xtReady, by unfold ContinuesFrame; decide⟩
theorem witness_StartsFrame :
    StartsFrame .xtreme 5001 (mode .xtreme) ∧ StartsFrame .xtreme 5000 (mode .xtreme) ∧
    StartsFrame .spektrum 5001 (mode .spektrum) :=
  ⟨.inl (by decide), .inr ⟨by decide, by decide, rfl, rfl, rfl, rfl⟩, .inl (by decide)⟩
/-- Samples of the bytes after a first one: `n` gaps of 0 and one at the silence threshold. -/
def samples (t : Tick) (n : Nat) : List Tick := List.replicate n t ++ [t + 5000]
theorem unbroken_samples (t : Tick) (n : Nat) (p : SerialProto) : Unbroken Config.exampleParams p t (samples t n) := by
  induction n with
  | zero => cases p <;> exact ⟨by simp [elapsed, silenceTicks, Config.exampleParams], trivial⟩
  | succ n ih => cases p <;> exact ⟨by simp [elapsed], ih⟩
/-- V-XT-2's frame. -/
theorem witness_XtremeFrameCommits :
    Inv (mode .xtreme) ∧ (mode .xtreme).proto = .xtreme ∧ StartsFrame .xtreme 5001 (mode .xtreme) ∧
    Unbroken (mode .xtreme).par .xtreme 5001 (samples 5001 7) ∧ (0x1F : Byte).extractLsb' 5 3 = 0 ∧
    (5 : BitVec 16) ≠ 0 ∧ ([3, 0xE8, 7, 0xD0] : List Byte).length = 2 * popcount 5 ∧
    (samples 5001 7).length + 1 = (xtremeFrame 0 0 5 [3, 0xE8, 7, 0xD0]).length ∧
    xtremeFrame 0 0 5 [3, 0xE8, 7, 0xD0] = [0, 0, 0, 5, 3, 0xE8, 7, 0xD0, 0xC7] :=
  ⟨inv_mode _, by decide, witness_StartsFrame.1, unbroken_samples _ _ _, by decide, by decide, by decide, by decide,
    by decide⟩
theorem witness_XtremeCorruptionRejected :
    Inv (mode .xtreme) ∧ (mode .xtreme).proto = .xtreme ∧ StartsFrame .xtreme 5000 (mode .xtreme) ∧
    Unbroken (mode .xtreme).par .xtreme 5000 (samples 5000 7) ∧
    ([3, 0xE8, 7, 0xD0] : List Byte).length = 2 * popcount 5 ∧
    (samples 5000 7).length + 1 = (xtremeFrame 0 0 5 [3, 0xE8, 7, 0xD0]).length ∧ 8 ≠ 2 ∧ 8 ≠ 3 ∧
    (xtremeFrame 0 0 5 [3, 0xE8, 7, 0xD0])[8]? = some 0xC7 ∧ (0xC6 : Byte) ≠ 0xC7 :=
  ⟨inv_mode _, by decide, witness_StartsFrame.2.1, unbroken_samples _ _ _, by decide⟩
theorem witness_SbusFrameOutcome :
    Inv (sbReady 0) ∧ Inv (sbReady 0x20) ∧ (sbReady 0).proto = .sbus ∧ ContinuesFrame .sbus 0x2960 (sbReady 0) ∧
    (sbReady 0).parseDone = false ∧ (sbReady 0).byteCount = 24 ∧ (sbReady 0).par.sbusEnd = .exact00 ∧
    (sbReady 0).bufRead 23 = some 0 ∧ (sbReady 0x20).bufRead 23 = some 0x20 :=
  ⟨inv_sbReady.1, inv_sbReady.2, by unfold ContinuesFrame; decide +kernel⟩
theorem witness_SbusFieldByteForm : (List.replicate 22 (0x5A : Byte)).length = 22 ∧ 15 < 16 := by decide
theorem witness_SbusRoundTrip :
    Inv (mode .sbus) ∧ (mode .sbus).proto = .sbus ∧ (mode .sbus).par.sbusEnd = .exact00 ∧
    Unbroken (mode .sbus).par .sbus 5001 (samples 5001 23) ∧ (samples 5001 23).length = 24 ∧
    (mode .sbus).par.silenceSbus < (elapsed 5001 (mode .sbus).lastByteT).toNat ∧
    ((mode .sbus).byteCount = 0 ∧ (mode .sbus).parseDone = false) ∧ remap (mode .sbus).order 7 = some 7 ∧
    (mode .sbus).par.ratioSbus.den ≤ (mode .sbus).par.ratioSbus.num ∧
    2047 * (mode .sbus).par.ratioSbus.num ≤ 65535 * (mode .sbus).par.ratioSbus.den ∧
    (mode .sbus).raw? 7 = some (transform (mode .sbus).par .sbus 1024) :=
  ⟨inv_mode _, by decide, by decide, unbroken_samples _ _ _, by decide +kernel⟩
/-- The example parameters with another S-Bus scale. -/
def sbusScale (r : Ratio) : Params := { Config.exampleParams with ratioSbus := r }
theorem sbusScale_valid : (sbusScale ⟨3201563, 100000⟩).Valid ∧ (sbusScale ⟨65535, 2047⟩).Valid := by
  constructor <;> constructor <;> decide
theorem witness_SbusInjectiveUnderStatedBound :
    (sbusScale ⟨3201563, 100000⟩).Valid ∧ 100000 ≤ 3201563 ∧ 2047 * 3201563 < 65536 * 100000 ∧ 5 < 2048 :=
  ⟨sbusScale_valid.1, by decide⟩
theorem witness_SbusInjectiveUnderTighterBound :
    (sbusScale ⟨65535, 2047⟩).Valid ∧ 2047 ≤ 65535 ∧ 2047 * 65535 ≤ 65535 * 2047 ∧ 2047 < 2048 :=
  ⟨sbusScale_valid.2, by decide⟩
theorem witness_SpektrumFrameOutcome :
    Inv (spReady 0xFF) ∧ Inv (spReady 0) ∧ (spReady 0).proto = .spektrum ∧ ContinuesFrame .spektrum 0x2320 (spReady 0) ∧
    (spReady 0).parseDone = false ∧ (spReady 0).byteCount = 15 ∧
    ((List.range 7).map (spkWordChannel? { spReady 0xFF with buf := Memory.write (spReady 0xFF).buf 15 0xFF } false) =
      List.replicate 7 none) ∧
    spkWordChannel? { spReady 0 with buf := Memory.write (spReady 0).buf 15 0xFF } false 0 = some 0 :=
  ⟨inv_spReady.2, inv_spReady.1, by unfold ContinuesFrame; decide +kernel⟩
/-- An 11-bit frame whose word 0 alone is valid and carries channel `ch`, the value being 1024. -/
def spkOne (ch : Byte) : List Byte := ([0, 0x10, (ch <<< 3 ||| 4 : BitVec 8), 0] : List Byte) ++ List.replicate 12 0xFF
theorem spkOne_carries {i : Nat} {ch : Nibble} :
    (SpkCarries (spkOne 0) i ch → i = 0 ∧ ch = 0) ∧ (SpkCarries (spkOne 7) i ch → i = 0 ∧ ch = 7) := by
  constructor <;>
  · rintro ⟨hi, h15, h⟩
    interval_cases i <;> first
      | exact ⟨rfl, h.symm.trans (by decide)⟩
      | exact absurd (h.symm.trans (by decide)) h15
theorem witness_SpektrumDualFrame :
    Inv (mode .spektrum) ∧ (mode .spektrum).proto = .spektrum ∧
    (spkOne 0).length = 16 ∧ (spkOne 7).length = 16 ∧ (samples 5001 14).length = 15 ∧
    StartsFrame .spektrum 5001 (mode .spektrum) ∧ Unbroken (mode .spektrum).par .spektrum 5001 (samples 5001 14) ∧
    Unbroken (mode .spektrum).par .spektrum 20000 (samples 20000 14) ∧
    (mode .spektrum).par.silenceSpektrum < (elapsed 20000 ((samples 5001 14).getLastD 5001)).toNat ∧
    SpkCarries (spkOne 0) 0 0 ∧ SpkCarries (spkOne 7) 0 7 ∧
    (∀ i j ch, SpkCarries (spkOne 0) i ch → SpkCarries (spkOne 0) j ch → i = j) ∧
    (∀ i j ch, SpkCarries (spkOne 7) i ch → SpkCarries (spkOne 7) j ch → i = j) ∧
    (∀ i j ch, SpkCarries (spkOne 0) i ch → ¬SpkCarries (spkOne 7) j ch) := by
  refine ⟨inv_mode _, by decide, by decide, by decide, by decide, witness_StartsFrame.2.2, unbroken_samples _ _ _,
    unbroken_samples _ _ _, by decide, ⟨by decide, by decide, by decide⟩, ⟨by decide, by decide, by decide⟩,
    fun i j ch h k => (spkOne_carries.1 h).1.trans (spkOne_carries.1 k).1.symm,
    fun i j ch h k => (spkOne_carries.2 h).1.trans (spkOne_carries.2 k).1.symm, fun i j ch h k => ?_⟩
  exact absurd ((spkOne_carries.1 h).2.symm.trans (spkOne_carries.2 k).2) (by decide)
theorem witness_StrobeCountsCommits :
    seen (fun t => t.record.strobe) (exec (.pwmFall 7 5100) (mode .pwm)) = some true ∧
    seen (fun t => t.record.strobe) (exec (.pwmFall 6 5100) (mode .pwm)) = some false := by decide
theorem witness_SerialWritesRawOnlyByCommit :
    serialOf xtReady.proto = some .xtreme ∧ outOf (exec (.rxByte 0xC6 0x2320) xtReady) = some ⟨none, [.rejXtChecksum], false⟩ := by
  decide
theorem witness_UnchangedCommitCountMeansSameRaw :
    xtReady.proto ≠ .pwm ∧ xtReady.proto ≠ .cppm ∧
    (∀ i ∈ ([.rxByte 0xC6 0x2320, .stRd, .cfg .sbus] : List Instr), i ≠ .cfg .pwm ∧ i ≠ .cfg .cppm) ∧
    commitsIn [.rxByte 0xC6 0x2320, .stRd, .cfg .sbus] xtReady = 0 ∧ commitsIn [.rxByte 0xC7 0x2320, .stRd] xtReady = 1 ∧
    seen State.commitCnt (execAll [.rxByte 0xC6 0x2320, .stRd, .cfg .sbus] xtReady) = some xtReady.commitCnt := by decide
/-- For TransformIsAffineFloor and TransformCentreAndMonotone. -/
theorem witness_Transform :
    Config.exampleParams.Valid ∧ 1000 ≤ 2000 ∧ 0 ≤ affine Config.exampleParams .xtreme 0 ∧
    affine Config.exampleParams .xtreme 2000 < 65536 := ⟨exampleParams_valid, by decide⟩
theorem witness_ValidTableMapsInjectively :
    OrderValid State.reset.order ∧ remap State.reset.order 7 = some 7 ∧ remap State.reset.order 15 = none := by decide
theorem witness_CfgSelectsAndFlushes :
    Proto.sbus ≠ .disabled ∧
    ¬OrderValid #v[0, 0, 2, 3, 4, 5, 6, 7, 0xFF, 0xFF, 0xFF, 0xFF, 0xFF, 0xFF, 0xFF, 0xFF] ∧
    OrderValid State.reset.order := by decide
theorem witness_OrdWrWritesOneEntry :
    (mode .sbus).proto ≠ .disabled ∧ ((8 : Byte) ≠ 0xFF ∧ State.reset.par.nCh ≤ (8 : Byte).toNat) ∧
    State.reset.proto = .disabled ∧ (7 : Byte).toNat < State.reset.par.nCh := by decide
theorem witness_ChRdReturnsChannel :
    State.reset.par.nCh ≤ (8 : Nibble).toNat ∧ (7 : Nibble).toNat < State.reset.par.nCh ∧
    State.reset.raw[(7 : Nibble).toNat]? = some 3750 := by decide
theorem witness_ReadsHaveNoSideEffect :
    Completes (exec (.tmrRd 5) State.reset) ∧ Completes (exec (.ordRd 15) State.reset) ∧
    Completes (exec (.chRd 7) State.reset) ∧ Completes (exec .stRd State.reset) := ⟨⟨_, rfl⟩, ⟨_, rfl⟩, ⟨_, rfl⟩, _, rfl⟩
theorem witness_InactiveEventsIgnored :
    Inv (mode .cppm) ∧ (Instr.pwmRise 7 0).wellFormed (mode .cppm).par = true ∧ (mode .cppm).proto ≠ .pwm ∧
    (mode .cppm).proto ≠ .xtreme ∧ (mode .cppm).proto ≠ .sbus ∧ (mode .cppm).proto ≠ .spektrum ∧
    ¬(mode .cppm).proto ≠ .cppm := ⟨inv_mode _, by decide⟩
theorem witness_RegisterWriters :
    seen State.proto (exec (.cfg .sbus) State.reset) = some .sbus ∧
    seen (fun t => (t.sbusFs, t.record.strobe)) (exec (.rxByte 0 0x28FC) (sbReady 0x10)) = some (true, true) ∧
    seen (fun t => (t.parseDone, t.spkPrev, t.spkPrevValid)) (exec (.rxByte 0xFF 0x22BC) { spReady 0 with spkPrev := 9 }) =
      some (true, 0, true) ∧
    seen (fun t => (t.cppmLast, t.chNum, t.maxChan)) (exec (.cppmEdge 5) (mode .cppm)) = some (5, 1, 1) ∧
    seen (fun t => (t.xtSum, t.byteCount, t.lastByteT)) (exec (.rxByte 5 9) (mode .xtreme)) = some (5, 1, 9) ∧
    seen (fun t => (t.parseDone, tagsOf t)) (exec (.rxByte 5 5001) { mode .sbus with parseDone := true }) =
      some (false, [.frameStart]) ∧
    seen (fun t => decide (t.pulseStart = State.reset.pulseStart)) (exec (.pwmRise 7 5) (mode .pwm)) = some false ∧
    seen (fun t => decide (t.order = State.reset.order)) (exec (.ordWr 1 0xFF) State.reset) = some false ∧
    seen State.overdueReq (exec .overdue State.reset) = some true ∧
    seen State.overdueReq (exec (.cppmEdge 5) { mode .cppm with overdueReq := true }) = some false ∧
    seen State.fr (exec .frClr { mode .cppm with fr := true }) = some false ∧
    seen State.cfgErr (exec (.ordWr 1 9) State.reset) = some true ∧
    seen State.cfgErr (exec (.cfg .pwm) { State.reset with cfgErr := true }) = some false ∧
    seen State.buf (exec (.rxByte 5 9) (mode .sbus)) = some [(0, 5)] := by decide +kernel
theorem witness_ConfigureInstallsTable :
    Proto.sbus ≠ .disabled ∧
    (∀ w : Fin 16, State.reset.order[w] = 0xFF ∨ State.reset.order[w].toNat < State.reset.par.nCh) ∧
    OrderValid State.reset.order ∧
    (∀ w : Fin 16, (Vector.replicate 16 (7 : Byte))[w] = 0xFF ∨ (Vector.replicate 16 (7 : Byte))[w].toNat < State.reset.par.nCh) ∧
    ¬OrderValid (Vector.replicate 16 7) := by decide
theorem witness_ConfigureUndisturbedByEvents :
    Inv (mode .cppm) ∧
    (∀ i ∈ Instr.cppmEdge 5 :: (orderWrites State.reset.order ++ [.tmrRd 9]), i.wellFormed (mode .cppm).par = true) ∧
    (Instr.cppmEdge 5 :: (orderWrites State.reset.order ++ [.tmrRd 9])).filter
      (fun i => !(i.isReceiverEvent || match i with | .tmrRd _ => true | _ => false)) = orderWrites State.reset.order :=
  ⟨inv_mode _, by decide⟩

end Sys2Proof.Machine.Tests
end

/-! # What every operation leaves of the input (O5)

What each branching operation can answer is said once, as a lemma of the form `exec…_cases`; that no operation touches
the words still to come is read off them. -/

namespace Sys2Proof.Machine

/-- What PWM_RISE can answer (R101, R232). -/
theorem execPwmRise_cases {ch : Nibble} {t : Tick} {s u : State} (h : exec (.pwmRise ch t) s = .next u) :
    (∃ old, s.pulseStart? ch.toNat = some old) ∧
    ((s.proto = .pwm ∧ u = State.emit .pwmStart { s.begin with pulseStart := s.pulseStart.set ch.toNat t }) ∨
     (s.proto ≠ .pwm ∧ u = s.begin.emit .ignored)) := by
  simp only [exec, execPwmRise] at h
  split at h
  next => cases h
  next old hold =>
    split at h
    next hp => cases h; exact ⟨⟨old, hold⟩, .inl ⟨hp, rfl⟩⟩
    next hp => cases h; exact ⟨⟨old, hold⟩, .inr ⟨hp, rfl⟩⟩

/-- What PWM_FALL can answer (R102, R232). -/
theorem execPwmFall_cases {ch : Nibble} {t : Tick} {s u : State} (h : exec (.pwmFall ch t) s = .next u) :
    ∃ rise, s.pulseStart? ch.toNat = some rise ∧
    ((s.proto = .pwm ∧ ch.toNat = s.par.pwmFrameCh ∧
        u = ((s.begin.writeRaw ch.toNat (elapsed t rise)).emit .pwmWidth).commit Stage.empty) ∨
     (s.proto = .pwm ∧ ch.toNat ≠ s.par.pwmFrameCh ∧
        u = (s.begin.writeRaw ch.toNat (elapsed t rise)).emit .pwmWidth) ∨
     (s.proto ≠ .pwm ∧ u = s.begin.emit .ignored)) := by
  simp only [exec, execPwmFall] at h
  split at h
  next => cases h
  next rise hrise =>
    refine ⟨rise, hrise, ?_⟩
    split at h
    next hp =>
      split at h
      next hc => cases h; exact .inl ⟨hp, hc, rfl⟩
      next hc => cases h; exact .inr (.inl ⟨hp, hc, rfl⟩)
    next hp => cases h; exact .inr (.inr ⟨hp, rfl⟩)

/-- What CPPM_EDGE can answer (R105, R232). -/
theorem execCppmEdge_cases {t : Tick} {s u : State} (h : exec (.cppmEdge t) s = .next u) :
    (s.proto = .cppm ∧ u = cppmEdge t s.begin) ∨ (s.proto ≠ .cppm ∧ u = s.begin.emit .ignored) := by
  simp only [exec, execCppmEdge] at h
  split at h
  next hp => cases h; exact .inl ⟨hp, rfl⟩
  next hp => cases h; exact .inr ⟨hp, rfl⟩

/-- What CFG can answer (R203). -/
theorem execCfg_cases {p : Proto} {s u : State} (h : exec (.cfg p) s = .next u) :
    ((p ≠ .disabled ∧ ¬OrderValid s.order) ∧
      u = State.emit .cfgBad { ({ s.begin with proto := .disabled } : State).flush with cfgErr := true }) ∨
    ((p = .disabled ∨ OrderValid s.order) ∧
      u = State.emit .cfgOk { ({ s.begin with proto := p } : State).flush with cfgErr := false }) := by
  simp only [exec, execCfg] at h
  split at h
  next hb => cases h; exact .inl ⟨hb, rfl⟩
  next hb => cases h; exact .inr ⟨(not_and_or.mp hb).imp not_not.mp not_not.mp, rfl⟩

/-- What ORD_WR can answer (R205). -/
theorem execOrdWr_cases {w : Nibble} {c : Byte} {s u : State} (h : exec (.ordWr w c) s = .next u) :
    ((s.proto ≠ .disabled ∨ orderValueLegal s.par c = false) ∧
      u = State.emit .ordDropped { s.begin with cfgErr := true }) ∨
    ((s.proto = .disabled ∧ orderValueLegal s.par c = true) ∧
      u = State.emit .ordOk { s.begin with order := setOrderAt s.order w c }) := by
  simp only [exec, execOrdWr] at h
  split at h
  next hd => cases h; exact .inl ⟨hd, rfl⟩
  next hd => cases h; exact .inr ⟨by simpa using hd, rfl⟩

/-- What CH_RD can answer (R209). -/
theorem execChRd_cases {c : Nibble} {s u : State} (h : exec (.chRd c) s = .next u) :
    ∃ v, s.raw? c.toNat = some v ∧ u = s.begin.answer (.half v) := by
  simp only [exec, execChRd] at h
  split at h
  next v hv => cases h; exact ⟨v, hv, rfl⟩
  next => cases h

/-- A CPPM edge takes no word. -/
@[simp] theorem cppmEdge_input (t : Tick) (s : State) : (cppmEdge t s).input = s.input := by
  simp only [cppmEdge, cppmComplete_eq, cppmRelearn_eq, cppmSlot_eq]

/-- The gap test of a byte takes no word. -/
@[simp] theorem frameGap_input (p : SerialProto) (t : Tick) (s : State) : (frameGap p t s).input = s.input := by
  rcases le_or_gt (elapsed t s.lastByteT).toNat (silenceTicks s.par p) with h | h
  · rw [frameGap_within h]
  · rw [frameGap_boundary h, State.emit_input, State.clearFrame_input]

/-- The append of a byte takes no word. -/
@[simp] theorem appendByte_input (b : Byte) (s : State) : (appendByte b s).input = s.input := by
  rcases lt_or_ge s.byteCount.toNat s.par.bufCap with h | h
  · rw [appendByte_fits h, State.bufWrite_input]
  · rw [appendByte_full h, State.emit_input]

/-- A byte in a serial mode takes no word: its parser keeps the input, and so do the parts before it. -/
theorem rxByte_input {p : SerialProto} {b : Byte} {t : Tick} {s u : State} (h : rxByte p b t s = some u) :
    u.input = s.input := by
  obtain ⟨parsed, hparse, rfl⟩ := rxByte_eq_some_iff.mp h
  calc parsed.input = (appendByte b (frameGap p t s)).input := (parse_keeps hparse).input
    _ = s.input := by rw [appendByte_input, frameGap_input]

/-- No operation takes a word of the input or adds one (log 3). -/
theorem exec_input {i : Instr} {s u : State} (h : exec i s = .next u) : u.input = s.input := by
  cases i with
  | pwmRise ch t => obtain ⟨-, ⟨-, rfl⟩ | ⟨-, rfl⟩⟩ := execPwmRise_cases h <;> rfl
  | pwmFall ch t => obtain ⟨_, -, ⟨-, -, rfl⟩ | ⟨-, -, rfl⟩ | ⟨-, rfl⟩⟩ := execPwmFall_cases h <;> rfl
  | cppmEdge t =>
    obtain ⟨-, rfl⟩ | ⟨-, rfl⟩ := execCppmEdge_cases h
    · rw [cppmEdge_input, State.begin_input]
    · rfl
  | rxByte b t =>
    obtain ⟨-, rfl⟩ | ⟨p, -, hrx⟩ := execRxByte_cases h
    · rfl
    · rw [rxByte_input hrx, State.begin_input]
  | cfg p => obtain ⟨-, rfl⟩ | ⟨-, rfl⟩ := execCfg_cases h <;> rfl
  | ordWr w c => obtain ⟨-, rfl⟩ | ⟨-, rfl⟩ := execOrdWr_cases h <;> rfl
  | chRd c => obtain ⟨v, -, rfl⟩ := execChRd_cases h; rfl
  | tmrRd t => cases h; rfl
  | ordRd w => cases h; rfl
  | frClr => cases h; rfl
  | overdue => cases h; rfl
  | stRd => cases h; rfl

/-- A step whose next word spells an operation is that operation on the state with the word taken (R59, R76). -/
theorem step_of_decode {s : State} {w : Word} {rest : List Word} {i : Instr} (hin : s.input = w :: rest)
    (hdec : decode w = .ok i) : step s = exec i { s with input := rest } := by
  simp only [step, hin, stepWord, hdec]

/-- Settles O5: the step is the decoded operation by `step_of_decode`, and no operation touches the input. -/
theorem stepRunsDecodedInstruction : Obligations.StepRunsDecodedInstruction := by
  intro s w rest i hin hdec
  have hstep : step s = exec i { s with input := rest } := step_of_decode hin hdec
  exact ⟨hstep, fun t ht => exec_input (hstep.symm.trans ht)⟩

end Sys2Proof.Machine

/-! # The registers of 10_state.md (O9, O14, O54, O45)

The registers are grouped by who writes them, each group with the statement that an operation keeps it. -/

namespace Sys2Proof.Machine

/-- The Xtreme part of ProtocolParseState is kept (R41). -/
structure XtremeKept (s t : State) : Prop where
  xtSum : t.xtSum = s.xtSum
  xtPoison : t.xtPoison = s.xtPoison
  xtMask : t.xtMask = s.xtMask
  xtLen : t.xtLen = s.xtLen

/-- The frame being received is kept: its count, its bytes and what the parser knows of it (R39–R41). -/
structure FrameKept (s t : State) : Prop where
  byteCount : t.byteCount = s.byteCount
  buf : t.buf = s.buf
  parseDone : t.parseDone = s.parseDone
  xtreme : XtremeKept s t

/-- The parameters, the sizes of RAW and PULSE_START, PROTO and ORDER are kept. -/
structure ConfigKept (s t : State) : Prop where
  par : t.par = s.par
  rawLength : t.raw.length = s.raw.length
  pulseLength : t.pulseStart.length = s.pulseStart.length
  proto : t.proto = s.proto
  order : t.order = s.order

/-! ## The parts of a serial byte in closed form -/

/-- The append of a byte changes BUF and the record only (R123). -/
theorem appendByte_eq (b : Byte) (s : State) :
    appendByte b s = { s with
      buf := appendedBuf b s
      out := if s.byteCount.toNat < s.par.bufCap then s.out
        else some { s.record with tags := s.record.tags ++ [.byteDropped] } } := by
  by_cases h : s.byteCount.toNat < s.par.bufCap
  · rw [appendByte_fits h]
    simp only [appendedBuf, h, if_true]
    rfl
  · rw [appendByte_full (Nat.le_of_not_lt h)]
    simp only [appendedBuf, h, if_false]
    rfl

/-- The append keeps BUF canonical. -/
theorem appendedBuf_wf {b : Byte} {s : State} (h : s.buf.wf = true) : (appendedBuf b s).wf = true := by
  unfold appendedBuf
  split
  · exact Memory.wf_write _ _ h
  · exact h

/-- The append writes only below BUF_CAP (R127). -/
theorem appendedBuf_bounded {b : Byte} {s : State} (h : ∀ c ∈ s.buf, c.1 < s.par.bufCap) :
    ∀ c ∈ appendedBuf b s, c.1 < s.par.bufCap := by
  intro c hc
  unfold appendedBuf at hc
  split at hc
  next hfits =>
    rcases Memory.mem_write hc with rfl | hc
    · exact hfits
    · exact h c hc
  next => exact h c hc

/-! ## The invariant is kept -/

/-- The bytes of the frame depend on BUF and BUF_CAP only. -/
theorem State.frameByte_congr {s t : State} (hpar : t.par = s.par) (hbuf : t.buf = s.buf) :
    t.frameByte = s.frameByte := by
  funext i
  simp only [State.frameByte, State.bufRead_congr hpar hbuf]

/-- What the frame's registers say depends on BUF, BYTE_COUNT and themselves only. -/
theorem XtremeTracksFrame.of_kept {s t : State} (h : XtremeTracksFrame s) (hpar : t.par = s.par)
    (hk : FrameKept s t) : XtremeTracksFrame t := by
  have hbyte : t.frameByte = s.frameByte := State.frameByte_congr hpar hk.buf
  constructor
  · rw [hk.xtreme.xtSum, hk.byteCount, hbyte, h.sum]
  · rw [hk.xtreme.xtPoison, hk.byteCount, hbyte, h.poison]
  · rw [hk.xtreme.xtMask, hk.byteCount, hbyte, h.mask]
  · rw [hk.xtreme.xtLen, hk.xtreme.xtMask, hk.byteCount]
    exact h.length

/-- With no byte received the cleared registers are right (R122, R204). -/
theorem XtremeTracksFrame.of_idle {s : State} (hcount : s.byteCount = 0) (h : XtremeIdle s) : XtremeTracksFrame s := by
  constructor <;> simp [hcount, h.xtSum, h.xtPoison, h.xtMask]

/-- An operation that keeps the configuration keeps the invariant if it leaves BUF and the open frame sound. -/
theorem Inv.of_configKept {s t : State} (h : Inv s) (hk : ConfigKept s t) (hwf : t.buf.wf = true)
    (hbound : ∀ c ∈ t.buf, c.1 < s.par.bufCap)
    (htracks : t.proto = .xtreme → t.parseDone = false → XtremeTracksFrame t) : Inv t where
  parValid := hk.par ▸ h.parValid
  rawLength := by rw [hk.rawLength, hk.par, h.rawLength]
  pulseLength := by rw [hk.pulseLength, hk.par, h.pulseLength]
  orderLegal := by rw [hk.order, hk.par]; exact h.orderLegal
  enabledOrderValid := by rw [hk.proto, hk.order]; exact h.enabledOrderValid
  bufWf := hwf
  bufBounded := hk.par ▸ hbound
  xtremeTracks := htracks

/-- An operation that keeps the configuration and the frame keeps the invariant. -/
theorem Inv.of_kept {s t : State} (h : Inv s) (hc : ConfigKept s t) (hf : FrameKept s t) : Inv t :=
  h.of_configKept hc (hf.buf ▸ h.bufWf) (hf.buf ▸ h.bufBounded) fun hx hd =>
    (h.xtremeTracks (hc.proto ▸ hx) (hf.parseDone ▸ hd)).of_kept hc.par hf

/-- A change of the output record and of the words to come keeps the invariant. -/
theorem Inv.of_record {s : State} (h : Inv s) (out : Option Output) (input : List Word) :
    Inv { s with out := out, input := input } :=
  h.of_kept ⟨rfl, rfl, rfl, rfl, rfl⟩ ⟨rfl, rfl, rfl, rfl, rfl, rfl, rfl⟩

/-- A frame boundary keeps the invariant: the frame it opens has no byte yet (R122). -/
theorem Inv.clearFrame {s : State} (h : Inv s) : Inv s.clearFrame :=
  h.of_configKept ⟨rfl, rfl, rfl, rfl, rfl⟩ h.bufWf h.bufBounded fun _ _ => .of_idle rfl ⟨rfl, rfl, rfl, rfl⟩

/-- A CPPM edge keeps the configuration (R105). -/
theorem cppmEdge_configKept (t : Tick) (s : State) : ConfigKept s (cppmEdge t s) := by
  constructor <;> simp only [cppmEdge, cppmComplete_eq, cppmRelearn_eq, cppmSlot_eq]
  case rawLength =>
    split
    · rw [List.length_set]
    · rfl

/-- A CPPM edge keeps the serial frame (R105). -/
theorem cppmEdge_frameKept (t : Tick) (s : State) : FrameKept s (cppmEdge t s) := by
  refine ⟨?_, ?_, ?_, ?_, ?_, ?_, ?_⟩ <;>
    simp only [cppmEdge, cppmComplete_eq, cppmRelearn_eq, cppmSlot_eq]

/-- CFG keeps the invariant: it enables a protocol only with a valid table, and Flush closes the frame (R203, R204). -/
theorem execCfg_keeps_inv {p : Proto} {s u : State} (hi : Inv s) (h : exec (.cfg p) s = .next u) : Inv u := by
  obtain ⟨-, rfl⟩ | ⟨hok, rfl⟩ := execCfg_cases h
  · exact { hi with
      enabledOrderValid := fun hne => absurd rfl hne
      xtremeTracks := fun _ _ => .of_idle rfl ⟨rfl, rfl, rfl, rfl⟩ }
  · exact { hi with
      enabledOrderValid := fun hne => hok.resolve_left hne
      xtremeTracks := fun _ _ => .of_idle rfl ⟨rfl, rfl, rfl, rfl⟩ }

/-- A legal ORDER value is a channel or unmapped (R205). -/
theorem orderValueLegal_iff {par : Params} {c : Byte} :
    orderValueLegal par c = true ↔ c = Config.unmapped ∨ c.toNat < par.nCh := by
  simp [orderValueLegal]

/-- ORD_WR keeps the invariant: an accepted write puts a legal value into the table of a disabled block (R205). -/
theorem execOrdWr_keeps_inv {w : Nibble} {c : Byte} {s u : State} (hi : Inv s)
    (h : exec (.ordWr w c) s = .next u) : Inv u := by
  obtain ⟨-, rfl⟩ | ⟨⟨hdis, hlegal⟩, rfl⟩ := execOrdWr_cases h
  · exact hi.of_kept ⟨rfl, rfl, rfl, rfl, rfl⟩ ⟨rfl, rfl, rfl, rfl, rfl, rfl, rfl⟩
  · refine { hi with
      orderLegal := fun v => ?_
      enabledOrderValid := fun hne => absurd hdis hne
      xtremeTracks := fun hx => absurd (hdis.symm.trans hx) (by decide) }
    change (setOrderAt s.order w c)[v] = Config.unmapped ∨ (setOrderAt s.order w c)[v].toNat < s.par.nCh
    simp only [setOrderAt, Fin.getElem_fin, Vector.getElem_set]
    split
    · exact orderValueLegal_iff.mp hlegal
    · exact hi.orderLegal v

/-! ### A serial byte -/

/-- The gap test keeps the invariant: it stamps the byte and may open a frame (R121, R122). -/
theorem frameGap_keeps_inv {p : SerialProto} {t : Tick} {s : State} (hi : Inv s) : Inv (frameGap p t s) := by
  have hstamped : Inv { s with lastByteT := t } :=
    hi.of_kept ⟨rfl, rfl, rfl, rfl, rfl⟩ ⟨rfl, rfl, rfl, rfl, rfl, rfl, rfl⟩
  rcases le_or_gt (elapsed t s.lastByteT).toNat (silenceTicks s.par p) with h | h
  · rw [frameGap_within h]
    exact hstamped
  · rw [frameGap_boundary h]
    exact hstamped.clearFrame.of_record _ _

/-- The byte just appended, and the bytes of the frame before it. -/
theorem frameByte_bufWrite {s : State} {k : Nat} (b : Byte) (hwf : s.buf.wf = true) (hk : k < s.par.bufCap) (i : Nat) :
    (s.bufWrite k b).frameByte i = if i = k then b else s.frameByte i := by
  split
  next h => rw [h, State.frameByte, State.bufRead_bufWrite_same b hwf hk, Option.getD_some]
  next h => rw [State.frameByte, State.bufRead_bufWrite_other b hwf h, State.frameByte]

/-- Byte 0 alone can poison the frame (R144). -/
theorem xtPoisons_eq (k b : Byte) :
    xtPoisons k b = (decide (k.toNat = 0) && decide (b.extractLsb' 5 3 ≠ 0)) := by
  have hzero : k = 0 ↔ k.toNat = 0 := BitVec.toNat_inj.symm
  simp only [xtPoisons, hzero]

/-- Byte 3 alone fixes XT_LEN (R143). -/
theorem xtLenAfter_of_ne_three {k b : Byte} {mask : BitVec 16} {len : Byte} (hk : k.toNat ≠ 3) :
    xtLenAfter k b mask len = len :=
  if_neg fun e => hk (by rw [e]; rfl)

/-- An Xtreme frame takes its bytes before the checksum at indices below 36 (R143). -/
theorem XtremeTracksFrame.count_lt {s : State} (h : XtremeTracksFrame s) {b : Byte}
    (hk : s.byteCount.toNat ≤ 3 ∨ s.byteCount.toNat < (xtHeader s.byteCount b s).xtLen.toNat) :
    s.byteCount.toNat < 36 := by
  by_cases h4 : 4 ≤ s.byteCount.toNat
  · have hlen : (xtHeader s.byteCount b s).xtLen = s.xtLen := xtLenAfter_of_ne_three (by omega)
    have hpop := popcount_le s.xtMask
    have hxt := (h.length h4).1
    rw [hlen] at hk
    omega
  · omega

/-- XT_MASK after byte `k`: bytes 2 and 3 of a frame of `k + 1` bytes, as far as they have come (R145). -/
theorem xtMaskAfter_tracks (k b hi lo : Byte) :
    xtMaskAfter k b ((if 3 ≤ k.toNat then hi else 0) ++ (if 4 ≤ k.toNat then lo else 0)) =
      (if 3 ≤ k.toNat + 1 then (if 2 = k.toNat then b else hi) else 0) ++
      (if 4 ≤ k.toNat + 1 then (if 3 = k.toNat then b else lo) else 0) := by
  have two : k = 2 ↔ k.toNat = 2 := BitVec.toNat_inj.symm
  have three : k = 3 ↔ k.toNat = 3 := BitVec.toNat_inj.symm
  simp only [xtMaskAfter, two, three]
  rcases Nat.lt_trichotomy k.toNat 2 with h | h | h
  · simp [show ¬3 ≤ k.toNat by omega, show ¬4 ≤ k.toNat by omega, show ¬2 ≤ k.toNat by omega,
      show k.toNat ≠ 2 by omega, show k.toNat ≠ 3 by omega]
  · simp [h]
  · by_cases h3 : k.toNat = 3
    · have hi_kept : (hi ++ (0 : Byte)).extractLsb' 8 8 = hi := BitVec.extractLsb'_append_eq_left
      simpa [h3] using congrArg (· ++ b) hi_kept
    · simp [h3, show 3 ≤ k.toNat by omega, show 4 ≤ k.toNat by omega, show 2 ≤ k.toNat by omega,
      show k.toNat ≠ 2 by omega, show 3 ≠ k.toNat by omega, show 2 ≠ k.toNat by omega]

/-- The state after a byte before the checksum: the header parts, the sum and the count (R142, R125). -/
def xtAccumulated (b : Byte) (s : State) : State :=
  { xtHeader s.byteCount b (appendByte b s) with
    xtSum := s.xtSum + b
    byteCount := satInc s.byteCount }

@[simp] theorem xtAccumulated_xtSum (b : Byte) (s : State) : (xtAccumulated b s).xtSum = s.xtSum + b := rfl

@[simp] theorem xtAccumulated_byteCount (b : Byte) (s : State) :
    (xtAccumulated b s).byteCount = satInc s.byteCount := rfl

@[simp] theorem xtAccumulated_xtPoison (b : Byte) (s : State) :
    (xtAccumulated b s).xtPoison = (s.xtPoison || xtPoisons s.byteCount b) := by
  simp only [xtAccumulated, xtHeader, appendByte_eq]

@[simp] theorem xtAccumulated_xtMask (b : Byte) (s : State) :
    (xtAccumulated b s).xtMask = xtMaskAfter s.byteCount b s.xtMask := by
  simp only [xtAccumulated, xtHeader, appendByte_eq]

@[simp] theorem xtAccumulated_xtLen (b : Byte) (s : State) :
    (xtAccumulated b s).xtLen = xtLenAfter s.byteCount b s.xtMask s.xtLen := by
  simp only [xtAccumulated, xtHeader, appendByte_eq]

/-- The frame's bytes after the append: the new one at its index, the others as they were. -/
theorem xtAccumulated_frameByte {b : Byte} {s : State} (hwf : s.buf.wf = true)
    (hcap : s.byteCount.toNat < s.par.bufCap) (i : Nat) :
    (xtAccumulated b s).frameByte i = if i = s.byteCount.toNat then b else s.frameByte i := by
  have happend : (xtAccumulated b s).frameByte = (s.bufWrite s.byteCount.toNat b).frameByte :=
    State.frameByte_congr (by simp only [xtAccumulated, xtHeader, appendByte_eq, State.bufWrite_par])
      (by simp only [xtAccumulated, xtHeader, appendByte_eq, appendedBuf, hcap, if_true, State.bufWrite_buf])
  rw [happend, frameByte_bufWrite b hwf hcap]

/-- Byte 3 fixes XT_LEN at the checksum's index, and the later bytes stay below it (R143). -/
theorem XtremeTracksFrame.accumulated_length {s : State} (h : XtremeTracksFrame s) {b : Byte}
    (hk : s.byteCount.toNat ≤ 3 ∨ s.byteCount.toNat < (xtHeader s.byteCount b s).xtLen.toNat)
    (h4 : 4 ≤ s.byteCount.toNat + 1) :
    (xtAccumulated b s).xtLen.toNat = 4 + 2 * popcount (xtAccumulated b s).xtMask ∧
      s.byteCount.toNat + 1 ≤ (xtAccumulated b s).xtLen.toNat := by
  rw [xtAccumulated_xtMask, xtAccumulated_xtLen]
  by_cases h3 : s.byteCount.toNat = 3
  · have hthree : s.byteCount = 3 := BitVec.eq_of_toNat_eq h3
    have hfix : (xtLenAfter s.byteCount b s.xtMask s.xtLen).toNat =
        4 + 2 * popcount (xtMaskAfter s.byteCount b s.xtMask) := by
      rw [xtLenAfter, if_pos hthree, xtLen_toNat]
    omega
  · have hthree : s.byteCount ≠ 3 := fun e => h3 (by rw [e]; rfl)
    have htwo : s.byteCount ≠ 2 := fun e => by rw [e] at h4; exact absurd h4 (by decide)
    have hkeep : xtMaskAfter s.byteCount b s.xtMask = s.xtMask := by
      rw [xtMaskAfter, if_neg htwo, if_neg hthree]
    have hxt := (h.length (by omega)).1
    simp only [xtHeader, xtLenAfter_of_ne_three h3] at hk
    rw [xtLenAfter_of_ne_three h3, hkeep]
    omega

/-- A byte before the checksum keeps the registers of the open frame in step with its bytes in BUF (R142–R146). -/
theorem XtremeTracksFrame.accumulated {s : State} (h : XtremeTracksFrame s) (hwf : s.buf.wf = true)
    (hcap : 37 ≤ s.par.bufCap) {b : Byte}
    (hk : s.byteCount.toNat ≤ 3 ∨ s.byteCount.toNat < (xtHeader s.byteCount b s).xtLen.toNat) :
    XtremeTracksFrame (xtAccumulated b s) := by
  have hlt : s.byteCount.toNat < 36 := h.count_lt hk
  have hbyte := xtAccumulated_frameByte (b := b) hwf (show s.byteCount.toNat < s.par.bufCap by omega)
  have hcount : (xtAccumulated b s).byteCount.toNat = s.byteCount.toNat + 1 := by
    rw [xtAccumulated_byteCount, satInc_toNat]
    omega
  constructor
  case sum =>
    have hold : (List.range s.byteCount.toNat).map (xtAccumulated b s).frameByte =
        (List.range s.byteCount.toNat).map s.frameByte := by
      refine List.map_congr_left fun i hi => ?_
      rw [hbyte, if_neg (Nat.ne_of_lt (List.mem_range.mp hi))]
    rw [hcount, List.range_succ, List.map_append, hold, List.sum_append, ← h.sum]
    rw [xtAccumulated_xtSum, List.map_singleton, List.sum_singleton, hbyte, if_pos rfl]
  case poison =>
    rw [xtAccumulated_xtPoison, h.poison, hcount, hbyte, xtPoisons_eq]
    rcases Nat.eq_zero_or_pos s.byteCount.toNat with h0 | hpos
    · simp [h0]
    · simp [Nat.ne_of_gt hpos, Nat.ne_of_lt hpos, Nat.succ_le_of_lt hpos]
  case mask =>
    rw [xtAccumulated_xtMask, h.mask, xtMaskAfter_tracks, hcount, hbyte, hbyte]
  case length =>
    rw [hcount]
    exact h.accumulated_length hk

/-- A parser that answers on an open Xtreme frame completes the frame or takes the byte into it (R142). -/
theorem parseXtreme_open {b : Byte} {s parsed : State}
    (h : parseXtreme s.byteCount b (appendByte b s) = some parsed) :
    parsed.parseDone = true ∨
    ((s.byteCount.toNat ≤ 3 ∨ s.byteCount.toNat < (xtHeader s.byteCount b s).xtLen.toNat) ∧ s.parseDone = false ∧
      { parsed with byteCount := satInc s.byteCount } = xtAccumulated b s) := by
  rcases parseXtreme_cases h with ⟨hdone, rfl⟩ | ⟨hopen, hk, rfl⟩ | ⟨-, -, hc⟩
  · exact .inl hdone
  · simp only [appendByte_eq, xtHeader] at hk hopen
    refine .inr ⟨hk, hopen, ?_⟩
    simp only [xtAccumulated, xtHeader, appendByte_eq]
  · left
    rcases xtComplete_cases hc with ⟨-, rfl⟩ | ⟨-, -, rfl⟩ | ⟨-, -, -, rfl⟩ | ⟨-, -, -, st, -, rfl⟩ <;> rfl

/-- A byte in a serial mode keeps the invariant (R120). -/
theorem rxByte_keeps_inv {p : SerialProto} {b : Byte} {t : Tick} {s u : State} (hi : Inv s)
    (hp : serialOf s.proto = some p) (h : rxByte p b t s = some u) : Inv u := by
  obtain ⟨parsed, hparse, rfl⟩ := rxByte_eq_some_iff.mp h
  have hproto : (frameGap p t s).proto = s.proto := by
    unfold frameGap
    split <;> rfl
  have hf : Inv (frameGap p t s) := frameGap_keeps_inv hi
  generalize frameGap p t s = f at hproto hf hparse ⊢
  have hkeeps := parse_keeps hparse
  simp only [appendByte_eq] at hkeeps
  have hconfig : ConfigKept f { parsed with byteCount := satInc f.byteCount } :=
    ⟨hkeeps.par, hkeeps.rawLength, congrArg List.length hkeeps.pulseStart, hkeeps.proto, hkeeps.order⟩
  have hbuf : parsed.buf = appendedBuf b f := hkeeps.buf
  refine hf.of_configKept hconfig ?_ ?_ fun hx hd => ?_
  · exact hbuf ▸ appendedBuf_wf hf.bufWf
  · exact hbuf ▸ appendedBuf_bounded hf.bufBounded
  · have hfx : f.proto = .xtreme := hconfig.proto ▸ hx
    rw [← hproto, hfx] at hp
    obtain rfl : SerialProto.xtreme = p := Option.some.inj hp
    obtain hdone | ⟨hk, hopen, hacc⟩ := parseXtreme_open hparse
    · exact absurd (hd.symm.trans hdone) (by decide)
    · rw [hacc]
      exact (hf.xtremeTracks hfx hopen).accumulated hf.bufWf hf.parValid.bufCap_ge hk

/-- Every operation keeps the invariant. -/
theorem exec_keeps_inv {i : Instr} {s u : State} (hi : Inv s) (h : exec i s = .next u) : Inv u := by
  have record : ∀ out, Inv { s with out := out } := fun out => hi.of_record out s.input
  cases i with
  | pwmRise ch t =>
    obtain ⟨-, ⟨-, rfl⟩ | ⟨-, rfl⟩⟩ := execPwmRise_cases h
    · exact hi.of_kept ⟨rfl, rfl, List.length_set, rfl, rfl⟩ ⟨rfl, rfl, rfl, rfl, rfl, rfl, rfl⟩
    · exact record _
  | pwmFall ch t =>
    obtain ⟨_, -, ⟨-, -, rfl⟩ | ⟨-, -, rfl⟩ | ⟨-, rfl⟩⟩ := execPwmFall_cases h
    · refine hi.of_kept ⟨rfl, ?_, rfl, rfl, rfl⟩ ⟨rfl, rfl, rfl, rfl, rfl, rfl, rfl⟩
      rw [commit_raw_length]
      exact List.length_set
    · exact hi.of_kept ⟨rfl, List.length_set, rfl, rfl, rfl⟩ ⟨rfl, rfl, rfl, rfl, rfl, rfl, rfl⟩
    · exact record _
  | cppmEdge t =>
    obtain ⟨-, rfl⟩ | ⟨-, rfl⟩ := execCppmEdge_cases h
    · exact (record (some Output.empty)).of_kept (cppmEdge_configKept t s.begin) (cppmEdge_frameKept t s.begin)
    · exact record _
  | rxByte b t =>
    obtain ⟨-, rfl⟩ | ⟨p, hp, hrx⟩ := execRxByte_cases h
    · exact record _
    · exact rxByte_keeps_inv (record (some Output.empty)) hp hrx
  | cfg p => exact execCfg_keeps_inv hi h
  | ordWr w c => exact execOrdWr_keeps_inv hi h
  | chRd c => obtain ⟨v, -, rfl⟩ := execChRd_cases h; exact record _
  | tmrRd t => cases h; exact record _
  | ordRd w => cases h; exact record _
  | frClr => cases h; exact hi.of_kept ⟨rfl, rfl, rfl, rfl, rfl⟩ ⟨rfl, rfl, rfl, rfl, rfl, rfl, rfl⟩
  | overdue => cases h; exact hi.of_kept ⟨rfl, rfl, rfl, rfl, rfl⟩ ⟨rfl, rfl, rfl, rfl, rfl, rfl, rfl⟩
  | stRd => cases h; exact record _

/-- What a step that answers did: it was idle, or it executed the next word's operation (R59, R76, R247). -/
theorem step_cases {s u : State} (h : step s = .next u) :
    (s.input = [] ∧ u = { s with out := none }) ∨
    ∃ w rest i, s.input = w :: rest ∧ decode w = .ok i ∧ exec i { s with input := rest } = .next u := by
  cases hin : s.input with
  | nil =>
    simp only [step, hin] at h
    cases h
    exact .inl ⟨rfl, rfl⟩
  | cons w rest =>
    cases hdec : decode w with
    | ok i =>
      rw [step_of_decode hin hdec] at h
      exact .inr ⟨w, rest, i, rfl, hdec, h⟩
    | error e =>
      simp only [step, hin, stepWord, hdec] at h
      cases h

/-- Settles O9: an idle step writes the record only, and every operation keeps the invariant. -/
theorem stepKeepsInvariant : Obligations.StepKeepsInvariant := by
  intro s t hi h
  obtain ⟨-, rfl⟩ | ⟨w, rest, i, -, -, hexec⟩ := step_cases h
  · exact hi.of_record none s.input
  · exact exec_keeps_inv (hi.of_record s.out rest) hexec

/-! ## The reset values and the table (O14, O45) -/

/-- A read that stands alone in its step: nothing but the record, which holds the value (R84). -/
theorem begin_answer_eq (v : Ret) (s : State) : s.begin.answer v = { s with out := answered v } := rfl

/-- The table after reset: the identity below N_CH, unmapped above (R25). -/
theorem orderAt_resetOrder (nCh : Nat) (w : Nibble) :
    orderAt (resetOrder nCh) w = if w.toNat < nCh then BitVec.ofNat 8 w.toNat else Config.unmapped := by
  simp [orderAt, resetOrder, Vector.get_eq_getElem]

/-- A memory that holds a given byte at each index below `n`. -/
def Memory.ofBytes (bytes : Nat → Byte) : Nat → Memory
  | 0 => []
  | n + 1 => (Memory.ofBytes bytes n).write n (bytes n)

theorem Memory.wf_ofBytes (bytes : Nat → Byte) (n : Nat) : (Memory.ofBytes bytes n).wf = true := by
  induction n with
  | zero => rfl
  | succ n ih => exact Memory.wf_write n (bytes n) ih

theorem Memory.ofBytes_bounded (bytes : Nat → Byte) (n : Nat) : ∀ c ∈ Memory.ofBytes bytes n, c.1 < n := by
  induction n with
  | zero => intro c hc; cases hc
  | succ n ih =>
    intro c hc
    rcases Memory.mem_write hc with rfl | hc
    · exact Nat.lt_succ_self n
    · exact Nat.lt_succ_of_lt (ih c hc)

theorem Memory.read_ofBytes (bytes : Nat → Byte) {n i : Nat} (hi : i < n) :
    (Memory.ofBytes bytes n).read i = bytes i := by
  induction n with
  | zero => omega
  | succ n ih =>
    rw [Memory.ofBytes, Memory.read_write n (bytes n) (Memory.wf_ofBytes bytes n)]
    split
    next h => rw [h]
    next h => exact ih (by omega)

/-- Every choice of bytes below BUF_CAP is the contents of a BUF (R40, R260). -/
theorem bufContents_ofBytes (p : Params) (bytes : Nat → Byte) : BufContents p (Memory.ofBytes bytes p.bufCap) :=
  ⟨Memory.wf_ofBytes bytes p.bufCap, Memory.ofBytes_bounded bytes p.bufCap⟩

/-- CH_RD after reset returns the channel's default fill (R16, R22). -/
theorem exec_chRd_resetWith {p : Params} (hp : p.Valid) (contents : Memory) {c : Nibble} {v : Tick}
    (h : p.defaultFill[c.toNat]? = some v) :
    exec (.chRd c) (State.resetWith p contents) =
      .next { State.resetWith p contents with out := answered (.half v) } := by
  have hc : c.toNat < p.nCh := hp.defaultFill_length ▸ (List.getElem?_eq_some_iff.mp h).1
  have hraw : (State.resetWith p contents).raw? c.toNat = some v := raw?_eq_some_iff.mpr ⟨hc, h⟩
  simp only [exec, execChRd, hraw, begin_answer_eq]

/-- ORD_RD after reset returns the wire index below N_CH and 0x00FF above (R25). -/
theorem exec_ordRd_resetWith (p : Params) (contents : Memory) (w : Nibble) :
    exec (.ordRd w) (State.resetWith p contents) = .next { State.resetWith p contents with
      out := answered (.half (if w.toNat < p.nCh then w.setWidth 16 else 0x00FF)) } := by
  have hentry : (orderAt (State.resetWith p contents).order w).setWidth 16 =
      if w.toNat < p.nCh then w.setWidth 16 else 0x00FF := by
    rw [State.resetWith, orderAt_resetOrder]
    split
    · exact BitVec.eq_of_toNat_eq (by simp)
    · rfl
  simp only [exec, execOrdRd, hentry, begin_answer_eq]

/-- Settles O14: the three reads one by one, and for BUF the memory that holds the given bytes. -/
theorem resetReadsDefaults : Obligations.ResetReadsDefaults := by
  intro p hp
  refine ⟨fun contents => ⟨fun c v h => exec_chRd_resetWith hp contents h, exec_ordRd_resetWith p contents, ?_⟩,
    fun bytes => ⟨Memory.ofBytes bytes p.bufCap, bufContents_ofBytes p bytes, fun i hi => ?_⟩⟩
  · intro ch hch
    exact pulseStart?_eq_some_iff.mpr ⟨hch, by simp [State.resetWith, hch]⟩
  · rw [State.bufRead_eq hi, State.resetWith_buf, Memory.read_ofBytes bytes hi]

/-- Settles O45, by `remap_inj`; only an index of the table is mapped. -/
theorem validTableMapsInjectively : Obligations.ValidTableMapsInjectively := by
  intro o v w c hvalid hv hw
  obtain ⟨hv16, -, -⟩ := remap_eq_some_iff.mp hv
  exact ⟨remap_inj hvalid hv hw, hv16⟩

/-! ## Who writes each register (O54) -/

/-- The Spektrum registers are kept (R29, R30, R42). -/
structure SpektrumKept (s t : State) : Prop where
  spkDrop : t.spkDrop = s.spkDrop
  spkRes11 : t.spkRes11 = s.spkRes11
  spkPrev : t.spkPrev = s.spkPrev
  spkPrevValid : t.spkPrevValid = s.spkPrevValid

/-- The step committed and set FR, or FR and COMMIT_CNT are kept (R27, R33, R186). -/
def CommitsOrKeeps (s t : State) : Prop :=
  (t.record.strobe = true ∧ t.fr = true) ∨ (t.fr = s.fr ∧ t.commitCnt = s.commitCnt)

theorem CommitsOrKeeps.fr_stays {s t : State} (h : CommitsOrKeeps s t) (hfr : s.fr = true) : t.fr = true := by
  obtain ⟨-, h⟩ | ⟨h, -⟩ := h
  · exact h
  · rw [h, hfr]

theorem CommitsOrKeeps.strobe_of_fr {s t : State} (h : CommitsOrKeeps s t) (hs : s.fr = false) (ht : t.fr = true) :
    t.record.strobe = true := by
  obtain ⟨h, -⟩ | ⟨h, -⟩ := h
  · exact h
  · rw [h, hs] at ht; cases ht

theorem CommitsOrKeeps.strobe_of_commitCnt {s t : State} (h : CommitsOrKeeps s t) (hne : t.commitCnt ≠ s.commitCnt) :
    t.record.strobe = true :=
  h.elim And.left fun ⟨_, hkept⟩ => absurd hkept hne

/-- What came before the publishing part does not matter if it kept FR and COMMIT_CNT. -/
theorem CommitsOrKeeps.of_eq {s v t : State} (h : CommitsOrKeeps v t) (hfr : v.fr = s.fr)
    (hcnt : v.commitCnt = s.commitCnt) : CommitsOrKeeps s t :=
  h.imp_right fun ⟨h1, h2⟩ => ⟨h1.trans hfr, h2.trans hcnt⟩

/-! ### What a parser writes -/

/-- What a parser may write besides what `ParserKeeps` forbids: it publishes by a commit only, and the registers of a
protocol are written in that protocol's frames only (R140). -/
structure ParserWrites (p : SerialProto) (k : Byte) (s s' : State) : Prop where
  publish : CommitsOrKeeps s s'
  raw : s'.raw = s.raw ∨ s'.record.strobe = true
  sbusFs : s'.sbusFs = s.sbusFs ∨ (p = .sbus ∧ s'.record.strobe = true)
  spektrum : SpektrumKept s s' ∨ (p = .spektrum ∧ k = 15 ∧ s.parseDone = false ∧ s'.parseDone = true)
  xtreme : XtremeKept s s' ∨ p = .xtreme
  parseDone : s.parseDone = true → s'.parseDone = true
  tags : s.record.tags ⊆ s'.record.tags

theorem ParserWrites.refl (p : SerialProto) (k : Byte) (s : State) : ParserWrites p k s s :=
  ⟨.inr ⟨rfl, rfl⟩, .inl rfl, .inl rfl, .inl ⟨rfl, rfl, rfl, rfl⟩, .inl ⟨rfl, rfl, rfl, rfl⟩, id, List.Subset.refl _⟩

/-- A parser may end in a tag. -/
theorem ParserWrites.emit {p : SerialProto} {k : Byte} {s s' : State} (h : ParserWrites p k s s') (g : Tag) :
    ParserWrites p k s (s'.emit g) where
  publish := h.publish
  raw := h.raw
  sbusFs := h.sbusFs
  spektrum := h.spektrum.imp_left fun hk => ⟨hk.spkDrop, hk.spkRes11, hk.spkPrev, hk.spkPrevValid⟩
  xtreme := h.xtreme.imp_left fun hk => ⟨hk.xtSum, hk.xtPoison, hk.xtMask, hk.xtLen⟩
  parseDone := h.parseDone
  tags := List.subset_append_of_subset_left _ h.tags

/-- A parser may end in a commit. -/
theorem ParserWrites.commit {p : SerialProto} {k : Byte} {s s' : State} (h : ParserWrites p k s s') (st : Stage) :
    ParserWrites p k s (s'.commit st) where
  publish := .inl ⟨rfl, rfl⟩
  raw := .inr rfl
  sbusFs := h.sbusFs.imp_right fun ⟨hp, _⟩ => ⟨hp, rfl⟩
  spektrum := h.spektrum.imp_left fun hk => ⟨hk.spkDrop, hk.spkRes11, hk.spkPrev, hk.spkPrevValid⟩
  xtreme := h.xtreme.imp_left fun hk => ⟨hk.xtSum, hk.xtPoison, hk.xtMask, hk.xtLen⟩
  parseDone := h.parseDone
  tags := List.subset_append_of_subset_left _ h.tags

/-- A completing frame sets PARSE_DONE. -/
theorem ParserWrites.done (p : SerialProto) (k : Byte) (s : State) : ParserWrites p k s { s with parseDone := true } :=
  ⟨.inr ⟨rfl, rfl⟩, .inl rfl, .inl rfl, .inl ⟨rfl, rfl, rfl, rfl⟩, .inl ⟨rfl, rfl, rfl, rfl⟩, fun _ => rfl,
    List.Subset.refl _⟩

/-- The loss counter's part may add a tag (R159). -/
theorem spkLoss_tags (loss : Byte) (s : State) : s.record.tags ⊆ (spkLoss loss s).record.tags := by
  unfold spkLoss
  split
  · exact List.subset_append_left _ _
  · exact List.Subset.refl _

/-- What the Xtreme parser writes (R142). -/
theorem parseXtreme_writes {k b : Byte} {s s' : State} (h : parseXtreme k b s = some s') :
    ParserWrites .xtreme k s s' := by
  rcases parseXtreme_cases h with ⟨-, rfl⟩ | ⟨-, -, rfl⟩ | ⟨-, -, hc⟩
  · exact .refl _ _ _
  · exact ⟨.inr ⟨rfl, rfl⟩, .inl rfl, .inl rfl, .inl ⟨rfl, rfl, rfl, rfl⟩, .inr rfl, id, List.Subset.refl _⟩
  · have hdone : ParserWrites .xtreme k s { xtHeader k b s with parseDone := true } :=
      ⟨.inr ⟨rfl, rfl⟩, .inl rfl, .inl rfl, .inl ⟨rfl, rfl, rfl, rfl⟩, .inr rfl, fun _ => rfl, List.Subset.refl _⟩
    rcases xtComplete_cases hc with ⟨-, rfl⟩ | ⟨-, -, rfl⟩ | ⟨-, -, -, rfl⟩ | ⟨-, -, -, st, -, rfl⟩
    · exact hdone.emit _
    · exact hdone.emit _
    · exact hdone.emit _
    · exact hdone.commit st

/-- What the S-Bus parser writes (R150). -/
theorem parseSbus_writes {k b : Byte} {s s' : State} (h : parseSbus k b s = some s') :
    ParserWrites .sbus k s s' := by
  rcases parseSbus_cases h with ⟨-, rfl⟩ | ⟨-, -, hc⟩
  · exact .refl _ _ _
  · have hdone := ParserWrites.done .sbus k s
    rcases sbusComplete_cases hc with ⟨-, rfl⟩ | ⟨-, flags, -, ⟨-, rfl⟩ | ⟨-, data, -, rfl⟩⟩
    · exact hdone.emit _
    · exact hdone.emit _
    · exact ⟨.inl ⟨rfl, rfl⟩, .inr rfl, .inr ⟨rfl, rfl⟩, .inl ⟨rfl, rfl, rfl, rfl⟩, .inl ⟨rfl, rfl, rfl, rfl⟩,
        fun _ => rfl, List.subset_append_left _ _⟩

/-- What the Spektrum parser writes (R158). -/
theorem parseSpektrum_writes {k : Byte} {s s' : State} (h : parseSpektrum k s = some s') :
    ParserWrites .spektrum k s s' := by
  rcases parseSpektrum_cases h with ⟨-, rfl⟩ | ⟨hopen, hk, hc⟩
  · exact .refl _ _ _
  · obtain ⟨loss, second, st, any, -, -, -, rfl⟩ := spkComplete_cases hc
    have hcounted : ParserWrites .spektrum k s
        { spkLoss loss { s with parseDone := true } with spkRes11 := second.getLsbD 4 } := by
      refine ⟨.inr ⟨?_, ?_⟩, .inl ?_, .inl ?_, .inr ⟨rfl, hk, hopen, ?_⟩, .inl ⟨?_, ?_, ?_, ?_⟩, fun _ => ?_,
        spkLoss_tags loss { s with parseDone := true }⟩ <;> simp only [spkLoss_eq]
    cases any
    · exact hcounted.emit _
    · exact hcounted.commit st

/-- What a parser writes (R140). -/
theorem parse_writes {p : SerialProto} {k b : Byte} {s s' : State} (h : parse p k b s = some s') :
    ParserWrites p k s s' := by
  cases p with
  | xtreme => exact parseXtreme_writes h
  | sbus => exact parseSbus_writes h
  | spektrum => exact parseSpektrum_writes h

/-! ### What a serial byte writes -/

/-- The gap test in closed form (R121, R122). -/
theorem frameGap_eq (p : SerialProto) (t : Tick) (s : State) :
    frameGap p t s =
      let boundary : Prop := silenceTicks s.par p < (elapsed t s.lastByteT).toNat
      { s with
        lastByteT := t
        byteCount := if boundary then 0 else s.byteCount
        xtSum := if boundary then 0 else s.xtSum
        xtPoison := if boundary then false else s.xtPoison
        xtMask := if boundary then 0 else s.xtMask
        xtLen := if boundary then 0 else s.xtLen
        parseDone := if boundary then false else s.parseDone
        out := if boundary then some { s.record with tags := s.record.tags ++ [.frameStart] } else s.out } := by
  by_cases h : silenceTicks s.par p < (elapsed t s.lastByteT).toNat
  · rw [frameGap_boundary h]
    simp only [h, if_true]
    rfl
  · rw [frameGap_within (Nat.le_of_not_lt h)]
    simp only [h, if_false]

/-- The append keeps the tags there are. -/
theorem appendByte_tags (b : Byte) (s : State) : s.record.tags ⊆ (appendByte b s).record.tags := by
  unfold appendByte
  split
  · exact List.Subset.refl _
  · exact List.subset_append_left _ _

/-- Before the parser runs, the step is at a frame boundary and says so, or the open frame's registers are kept. -/
theorem received_cases (p : SerialProto) (b : Byte) (t : Tick) (s : State) :
    (.frameStart ∈ (appendByte b (frameGap p t s)).record.tags ∧ (frameGap p t s).byteCount = 0) ∨
    (XtremeKept s (appendByte b (frameGap p t s)) ∧ (appendByte b (frameGap p t s)).parseDone = s.parseDone) := by
  rcases le_or_gt (elapsed t s.lastByteT).toNat (silenceTicks s.par p) with h | h
  · rw [frameGap_within h]
    right
    rw [appendByte_eq]
    exact ⟨⟨rfl, rfl, rfl, rfl⟩, rfl⟩
  · rw [frameGap_boundary h]
    exact .inl ⟨appendByte_tags b _ (by simp), rfl⟩

/-- What a byte in the serial mode `p` may write of the registers a commit, a completed frame or a frame boundary
changes (R120). -/
structure ByteWrites (p : SerialProto) (s u : State) : Prop where
  publish : CommitsOrKeeps s u
  raw : u.raw = s.raw ∨ u.record.strobe = true
  sbusFs : u.sbusFs = s.sbusFs ∨ (p = .sbus ∧ u.record.strobe = true)
  spektrum : SpektrumKept s u ∨ (p = .spektrum ∧ s.parseDone = false ∧ u.parseDone = true)
  xtreme : XtremeKept s u ∨ .frameStart ∈ u.record.tags ∨ p = .xtreme
  parseDone : s.parseDone = true → u.parseDone = true ∨ .frameStart ∈ u.record.tags

/-- A byte step writes what its parser writes, and clears the open frame at a boundary (R120, R122). -/
theorem rxByte_writes {p : SerialProto} {b : Byte} {t : Tick} {s u : State} (h : rxByte p b t s = some u) :
    ByteWrites p s u := by
  obtain ⟨parsed, hparse, rfl⟩ := rxByte_eq_some_iff.mp h
  have hw := parse_writes hparse
  have hreceived := received_cases p b t s
  have hs := hw
  simp only [appendByte_eq, frameGap_eq] at hs
  constructor
  case publish => exact hs.publish
  case raw => exact hs.raw
  case sbusFs => exact hs.sbusFs
  case spektrum =>
    obtain hk | ⟨hp, hk, hopen, hdone⟩ := hw.spektrum
    · simp only [appendByte_eq, frameGap_eq] at hk
      exact .inl ⟨hk.spkDrop, hk.spkRes11, hk.spkPrev, hk.spkPrevValid⟩
    · obtain ⟨-, hzero⟩ | ⟨-, hkept⟩ := hreceived
      · exact absurd (hzero.symm.trans hk) (by decide)
      · exact .inr ⟨hp, hkept.symm.trans hopen, hdone⟩
  case xtreme =>
    obtain hx | hx := hw.xtreme
    · obtain ⟨htag, -⟩ | ⟨hkept, -⟩ := hreceived
      · exact .inr (.inl (hw.tags htag))
      · exact .inl ⟨hx.xtSum.trans hkept.xtSum, hx.xtPoison.trans hkept.xtPoison, hx.xtMask.trans hkept.xtMask,
          hx.xtLen.trans hkept.xtLen⟩
    · exact .inr (.inr hx)
  case parseDone =>
    intro hdone
    obtain ⟨htag, -⟩ | ⟨-, hkept⟩ := hreceived
    · exact .inr (hw.tags htag)
    · exact .inl (hw.parseDone (hkept.trans hdone))

/-- A byte in a serial mode writes by the rules (R120). -/
theorem writesByRule_rxByte {p : SerialProto} {b : Byte} {t : Tick} {s u : State} (hp : serialOf s.proto = some p)
    (h : rxByte p b t s.begin = some u) : WritesByRule (.rxByte b t) s u := by
  have hw := rxByte_writes h
  have hbyte : IsByteIn p s (.rxByte b t) := ⟨hp, b, t, rfl⟩
  have hserial : IsSerialByte s (.rxByte b t) := ⟨p, hbyte⟩
  have hspektrum : SpektrumKept s u ∨ CompletesSpektrum s (.rxByte b t) u :=
    hw.spektrum.imp (fun hk => ⟨hk.spkDrop, hk.spkRes11, hk.spkPrev, hk.spkPrevValid⟩)
      fun ⟨(hq : p = .spektrum), hdone⟩ => ⟨hq ▸ hbyte, hdone⟩
  have hxtreme : XtremeKept s u ∨ IsCfg (.rxByte b t) ∨ StartsNewFrame s (.rxByte b t) u ∨
      IsByteIn .xtreme s (.rxByte b t) :=
    hw.xtreme.imp (fun hk => ⟨hk.xtSum, hk.xtPoison, hk.xtMask, hk.xtLen⟩) fun hx =>
      .inr (hx.imp (fun htag => ⟨hserial, htag⟩) fun (hq : p = .xtreme) => hq ▸ hbyte)
  obtain ⟨parsed, hparse, rfl⟩ := rxByte_eq_some_iff.mp h
  have hk := parse_keeps hparse
  simp only [appendByte_eq, frameGap_eq] at hk
  exact {
    strobe := fun _ => .inr (.inr hserial)
    raw := fun hne => .inr (.inr ⟨hserial, hw.raw.resolve_left hne⟩)
    pulseStart := fun hne => absurd hk.pulseStart hne
    proto := fun hne => absurd hk.proto hne
    order := fun hne => absurd hk.order hne
    frFalls := fun hs ht => absurd (ht.symm.trans (hw.publish.fr_stays hs)) (by decide)
    frRises := hw.publish.strobe_of_fr
    sbusFs := fun hne => .inr ((hw.sbusFs.resolve_left hne).imp_left fun (hq : p = .sbus) => hq ▸ hbyte)
    spkDrop := fun hne => .inr (hspektrum.resolve_left fun hs => hne hs.spkDrop)
    spkRes11 := fun hne => .inr (hspektrum.resolve_left fun hs => hne hs.spkRes11)
    overdueRises := fun hs ht => absurd (hs.symm.trans (hk.overdueReq.symm.trans ht)) (by decide)
    overdueFalls := fun hs ht => absurd (hs.symm.trans (hk.overdueReq.symm.trans ht)) (by decide)
    cfgErrFalls := fun hs ht => absurd (hs.symm.trans (hk.cfgErr.symm.trans ht)) (by decide)
    cfgErrRises := fun hs ht => absurd (hs.symm.trans (hk.cfgErr.symm.trans ht)) (by decide)
    commitCnt := hw.publish.strobe_of_commitCnt
    cppmLast := fun hne => absurd hk.cppmLast hne
    chNum := fun hne => absurd hk.chNum hne
    maxChan := fun hne => absurd hk.maxChan hne
    lastByteT := fun _ => .inr hserial
    byteCount := fun _ => .inr hserial
    buf := fun _ => hserial
    xtSum := fun hne => hxtreme.resolve_left fun hx => hne hx.xtSum
    xtPoison := fun hne => hxtreme.resolve_left fun hx => hne hx.xtPoison
    xtMask := fun hne => hxtreme.resolve_left fun hx => hne hx.xtMask
    xtLen := fun hne => hxtreme.resolve_left fun hx => hne hx.xtLen
    parseDoneRises := fun _ _ => hserial
    parseDoneFalls := fun hs ht =>
      .inr ⟨hserial, (hw.parseDone hs).resolve_left fun hd => absurd (ht.symm.trans hd) (by decide)⟩
    spkPrev := fun hne => .inr (hspektrum.resolve_left fun hs => hne hs.spkPrev)
    spkPrevValid := fun hne => .inr (hspektrum.resolve_left fun hs => hne hs.spkPrevValid) }

/-! ### What the other operations write -/

/-- An operation that changes the record only, and does not commit, writes by the rules. -/
theorem writesByRule_of_sameButOutput {i : Instr} {s u : State} (h : SameButOutput s u)
    (hquiet : u.record.strobe = false) : WritesByRule i s u := by
  obtain ⟨out, rfl⟩ : ∃ out, u = { s with out := out } := ⟨u.out, h.symm⟩
  constructor <;> simp +contextual [hquiet]

/-- CFG writes by the rules: PROTO, CFG_ERR and what Flush clears, and no channel (R203, R204). -/
theorem writesByRule_cfg {p : Proto} {s u : State} (h : exec (.cfg p) s = .next u) : WritesByRule (.cfg p) s u := by
  have hcfg : IsCfg (.cfg p) := ⟨p, rfl⟩
  obtain ⟨-, rfl⟩ | ⟨-, rfl⟩ := execCfg_cases h
  · constructor <;> simp +contextual [hcfg, State.record, Output.empty]
  · constructor <;> simp +contextual [hcfg, State.record, Output.empty]

/-- PWM_RISE writes by the rules: PULSE_START in PWM mode (R101). -/
theorem writesByRule_pwmRise {ch : Nibble} {t : Tick} {s u : State} (h : exec (.pwmRise ch t) s = .next u) :
    WritesByRule (.pwmRise ch t) s u := by
  obtain ⟨-, ⟨hp, rfl⟩ | ⟨-, rfl⟩⟩ := execPwmRise_cases h
  · constructor <;> simp +contextual [hp, State.record, Output.empty]
  · exact writesByRule_of_sameButOutput rfl rfl

/-- PWM_FALL writes by the rules: a channel and, on the designated one, the commit's registers (R102). -/
theorem writesByRule_pwmFall {ch : Nibble} {t : Tick} {s u : State} (h : exec (.pwmFall ch t) s = .next u) :
    WritesByRule (.pwmFall ch t) s u := by
  obtain ⟨_, -, ⟨hp, -, rfl⟩ | ⟨hp, -, rfl⟩ | ⟨-, rfl⟩⟩ := execPwmFall_cases h
  · constructor <;> simp +contextual [hp]
  · constructor <;> simp +contextual [hp]
  · exact writesByRule_of_sameButOutput rfl rfl

/-- ORD_WR writes by the rules: CFG_ERR if dropped, ORDER while disabled (R205). -/
theorem writesByRule_ordWr {w : Nibble} {c : Byte} {s u : State} (h : exec (.ordWr w c) s = .next u) :
    WritesByRule (.ordWr w c) s u := by
  obtain ⟨-, rfl⟩ | ⟨⟨hdis, -⟩, rfl⟩ := execOrdWr_cases h
  · constructor <;> simp +contextual [State.record, Output.empty]
  · constructor <;> simp +contextual [hdis, State.record, Output.empty]

/-- FR_CLR writes FR (R207). -/
theorem writesByRule_frClr {s u : State} (h : exec .frClr s = .next u) : WritesByRule .frClr s u := by
  cases h
  constructor <;> simp +contextual [State.record, Output.empty]

/-- OVERDUE writes OVERDUE_REQ (R208). -/
theorem writesByRule_overdue {s u : State} (h : exec .overdue s = .next u) : WritesByRule .overdue s u := by
  cases h
  constructor <;> simp +contextual [State.record, Output.empty]

/-- The last part of a CPPM edge commits or keeps FR and COMMIT_CNT (R105). -/
theorem cppmComplete_publishes (saturated : Bool) (s : State) : CommitsOrKeeps s (cppmComplete saturated s) := by
  unfold cppmComplete
  split
  · exact .inr ⟨rfl, rfl⟩
  split
  · exact .inr ⟨rfl, rfl⟩
  split
  · exact .inl ⟨rfl, rfl⟩
  · exact .inr ⟨rfl, rfl⟩

/-- A CPPM edge commits or keeps FR and COMMIT_CNT: only its last part publishes (R105). -/
theorem cppmEdge_publishes (t : Tick) (s : State) : CommitsOrKeeps s (cppmEdge t s) := by
  unfold cppmEdge
  refine (cppmComplete_publishes _ _).of_eq ?_ ?_ <;> simp only [cppmRelearn_eq, cppmSlot_eq]

@[simp] theorem cppmEdge_pulseStart (t : Tick) (s : State) : (cppmEdge t s).pulseStart = s.pulseStart := by
  simp only [cppmEdge, cppmComplete_eq, cppmRelearn_eq, cppmSlot_eq]

@[simp] theorem cppmEdge_cfgErr (t : Tick) (s : State) : (cppmEdge t s).cfgErr = s.cfgErr := by
  simp only [cppmEdge, cppmComplete_eq, cppmRelearn_eq, cppmSlot_eq]

@[simp] theorem cppmEdge_sbusFs (t : Tick) (s : State) : (cppmEdge t s).sbusFs = s.sbusFs := by
  simp only [cppmEdge, cppmComplete_eq, cppmRelearn_eq, cppmSlot_eq]

@[simp] theorem cppmEdge_lastByteT (t : Tick) (s : State) : (cppmEdge t s).lastByteT = s.lastByteT := by
  simp only [cppmEdge, cppmComplete_eq, cppmRelearn_eq, cppmSlot_eq]

/-- A CPPM edge consumes a pending report (R109). -/
@[simp] theorem cppmEdge_overdueReq (t : Tick) (s : State) : (cppmEdge t s).overdueReq = false := by
  simp only [cppmEdge, cppmComplete_eq, cppmRelearn_eq]

/-- A CPPM edge keeps the Spektrum registers (R105). -/
theorem cppmEdge_spektrumKept (t : Tick) (s : State) : SpektrumKept s (cppmEdge t s) := by
  constructor <;> simp only [cppmEdge, cppmComplete_eq, cppmRelearn_eq, cppmSlot_eq]

/-- CPPM_EDGE writes by the rules: channels, the CPPM registers, the pending report and the commit's registers
(R105). -/
theorem writesByRule_cppmEdge {t : Tick} {s u : State} (h : exec (.cppmEdge t) s = .next u) :
    WritesByRule (.cppmEdge t) s u := by
  obtain ⟨hp, rfl⟩ | ⟨-, rfl⟩ := execCppmEdge_cases h
  · have hedge : IsCppmEdge s (.cppmEdge t) := ⟨hp, t, rfl⟩
    have hconfig := cppmEdge_configKept t s.begin
    have hframe := cppmEdge_frameKept t s.begin
    have hspektrum := cppmEdge_spektrumKept t s.begin
    have hpublish := cppmEdge_publishes t s.begin
    constructor
    case frFalls => exact fun hs ht => absurd (ht.symm.trans (hpublish.fr_stays hs)) (by decide)
    case frRises => exact hpublish.strobe_of_fr
    case commitCnt => exact hpublish.strobe_of_commitCnt
    all_goals simp +contextual [hedge, hconfig.proto, hconfig.order, hframe.byteCount, hframe.buf,
      hframe.parseDone, hframe.xtreme.xtSum, hframe.xtreme.xtPoison, hframe.xtreme.xtMask, hframe.xtreme.xtLen,
      hspektrum.spkDrop, hspektrum.spkRes11, hspektrum.spkPrev, hspektrum.spkPrevValid]
  · exact writesByRule_of_sameButOutput rfl rfl

/-- Settles O54, one operation at a time. -/
theorem registerWriters : Obligations.RegisterWriters := by
  intro i s u h
  cases i with
  | pwmRise ch t => exact writesByRule_pwmRise h
  | pwmFall ch t => exact writesByRule_pwmFall h
  | cppmEdge t => exact writesByRule_cppmEdge h
  | rxByte b t =>
    obtain ⟨-, rfl⟩ | ⟨p, hp, hrx⟩ := execRxByte_cases h
    · exact writesByRule_of_sameButOutput rfl rfl
    · exact writesByRule_rxByte hp hrx
  | cfg p => exact writesByRule_cfg h
  | ordWr w c => exact writesByRule_ordWr h
  | chRd c => obtain ⟨v, -, rfl⟩ := execChRd_cases h; exact writesByRule_of_sameButOutput rfl rfl
  | tmrRd t => cases h; exact writesByRule_of_sameButOutput rfl rfl
  | ordRd w => cases h; exact writesByRule_of_sameButOutput rfl rfl
  | frClr => exact writesByRule_frClr h
  | overdue => exact writesByRule_overdue h
  | stRd => cases h; exact writesByRule_of_sameButOutput rfl rfl

end Sys2Proof.Machine

/-! # BUF, the reads and the commits (O25, O41, O52)

Replacing BUF by other contents commutes with every operation but RX_BYTE, and with a byte of RX_BYTE too as long as
the contents agree on the entries its parser may read: those of the frame, up to and with the byte just appended. -/

namespace Sys2Proof.Machine

/-! ## A state with other contents of BUF -/

/-- The state with BUF replaced. -/
def State.withBuf (m : Memory) (s : State) : State := { s with buf := m }

/-- The outcome with BUF replaced in the next state. -/
def resultWithBuf (m : Memory) : Result → Result
  | .next s => .next (s.withBuf m)
  | .fault f => .fault f
  | .refused r => .refused r

@[simp] theorem resultWithBuf_next (m : Memory) (s : State) :
    resultWithBuf m (.next s) = .next (s.withBuf m) := rfl

@[simp] theorem State.withBuf_par (m : Memory) (s : State) : (s.withBuf m).par = s.par := rfl
@[simp] theorem State.withBuf_order (m : Memory) (s : State) : (s.withBuf m).order = s.order := rfl
@[simp] theorem State.withBuf_byteCount (m : Memory) (s : State) : (s.withBuf m).byteCount = s.byteCount := rfl
@[simp] theorem State.withBuf_xtMask (m : Memory) (s : State) : (s.withBuf m).xtMask = s.xtMask := rfl
@[simp] theorem State.withBuf_pulseStart? (m : Memory) (s : State) (ch : Nat) :
    (s.withBuf m).pulseStart? ch = s.pulseStart? ch := rfl
@[simp] theorem State.withBuf_raw? (m : Memory) (s : State) (c : Nat) : (s.withBuf m).raw? c = s.raw? c := rfl

/-- With BUF replaced, a read depends on BUF_CAP only. -/
theorem State.bufRead_withBuf_congr {s u : State} (hpar : u.par = s.par) (m : Memory) (a : Nat) :
    (u.withBuf m).bufRead a = (s.withBuf m).bufRead a :=
  State.bufRead_congr (s := s.withBuf m) (s' := u.withBuf m) hpar rfl a

/-! ## The operations other than RX_BYTE -/

/-- A CPPM edge does not touch BUF (R105). -/
theorem cppmEdge_withBuf (t : Tick) (m : Memory) (s : State) :
    cppmEdge t (s.withBuf m) = (cppmEdge t s).withBuf m := by
  simp only [cppmEdge, cppmComplete_eq, cppmRelearn_eq, cppmSlot_eq]
  rfl

/-- No operation but RX_BYTE reads or writes BUF (R40, R54). -/
theorem exec_withBuf {i : Instr} (m : Memory) (s : State) (hi : ∀ b t, i ≠ .rxByte b t) :
    exec i (s.withBuf m) = resultWithBuf m (exec i s) := by
  cases i with
  | pwmRise ch t =>
    simp only [exec, execPwmRise, State.withBuf_pulseStart?]
    cases s.pulseStart? ch.toNat with
    | none => rfl
    | some old => simp only [apply_ite (resultWithBuf m)]; rfl
  | pwmFall ch t =>
    simp only [exec, execPwmFall, State.withBuf_pulseStart?]
    cases s.pulseStart? ch.toNat with
    | none => rfl
    | some rise => simp only [apply_ite (resultWithBuf m), resultWithBuf_next, apply_ite (State.withBuf m)]; rfl
  | cppmEdge t =>
    simp only [exec, execCppmEdge, apply_ite (resultWithBuf m), resultWithBuf_next, ← cppmEdge_withBuf]
    rfl
  | rxByte b t => exact absurd rfl (hi b t)
  | cfg p => simp only [exec, execCfg, apply_ite (resultWithBuf m)]; rfl
  | ordWr w c => simp only [exec, execOrdWr, apply_ite (resultWithBuf m)]; rfl
  | chRd c =>
    simp only [exec, execChRd, State.withBuf_raw?]
    cases s.raw? c.toNat <;> rfl
  | tmrRd t => rfl
  | ordRd w => rfl
  | frClr => rfl
  | overdue => rfl
  | stRd => rfl

/-- An operation other than RX_BYTE keeps BUF, and the frame's byte count or closes the frame (R39, R40). -/
theorem exec_frame_of_ne_rxByte {i : Instr} {s u : State} (hi : ∀ b t, i ≠ .rxByte b t) (h : exec i s = .next u) :
    u.buf = s.buf ∧ (u.byteCount = s.byteCount ∨ u.byteCount = 0) := by
  have hw : WritesByRule i s u := registerWriters i s u h
  have hserial : ¬IsSerialByte s i := fun ⟨_, _, b, t, he⟩ => hi b t he
  refine ⟨by_contra fun hne => hserial (hw.buf hne), or_iff_not_imp_left.mpr fun hne => ?_⟩
  obtain ⟨p, rfl⟩ := (hw.byteCount hne).resolve_right hserial
  obtain ⟨-, rfl⟩ | ⟨-, rfl⟩ := execCfg_cases h <;> rfl

/-! ## The parsers read the frame only -/

/-- A word of BUF depends on its two bytes. -/
theorem bufWordBE_congr {s t : State} {i : Nat} (h0 : t.bufRead i = s.bufRead i)
    (h1 : t.bufRead (i + 1) = s.bufRead (i + 1)) : t.bufWordBE i = s.bufWordBE i := by
  simp only [State.bufWordBE, h0, h1]

/-- A block of BUF depends on its bytes. -/
theorem bufReadFrom_congr {s t : State} {i n : Nat} (h : ∀ a < i + n, t.bufRead a = s.bufRead a) :
    t.bufReadFrom i n = s.bufReadFrom i n := by
  induction n generalizing i with
  | zero => rfl
  | succ n ih =>
    simp only [State.bufReadFrom, h i (by omega), ih (i := i + 1) fun a ha => h a (by omega)]

/-- The Xtreme loop reads one word for each set mask bit left (R147). -/
theorem xtStage_withBuf {m : Memory} {s : State} {ws : List Nat} {n : Nat} (st : Stage)
    (h : ∀ a < 4 + 2 * (n + ws.countP fun w => s.xtMask.getLsbD w), (s.withBuf m).bufRead a = s.bufRead a) :
    xtStage (s.withBuf m) ws n st = xtStage s ws n st := by
  induction ws generalizing n st with
  | nil => rfl
  | cons w ws ih =>
    simp only [xtStage, State.withBuf_xtMask, State.withBuf_order, State.withBuf_par]
    refine ite_congr rfl (fun hw => ?_) fun hw => ?_
    · simp only [List.countP_cons, hw, if_true] at h
      rw [bufWordBE_congr (h _ (by omega)) (h _ (by omega))]
      refine congrArg (Option.bind _) (funext fun v => ih _ fun a ha => h a (by omega))
    · simp only [List.countP_cons, hw] at h
      exact ih _ h

/-- The S-Bus fields are staged from the data bytes given, not from BUF (R155). -/
theorem sbusStage_withBuf (m : Memory) (s : State) (data : List Byte) (js : List Nat) (st : Stage) :
    sbusStage (s.withBuf m) data js st = sbusStage s data js st := by
  induction js generalizing st with
  | nil => rfl
  | cons j js ih => exact ih _

/-- The Spektrum loop reads the words left (R161). -/
theorem spkStage_withBuf {m : Memory} {s : State} {res11 : Bool} {is : List Nat} (st : Stage) (any : Bool)
    (h : ∀ i ∈ is, (s.withBuf m).bufWordBE (2 + 2 * i) = s.bufWordBE (2 + 2 * i)) :
    spkStage (s.withBuf m) res11 is st any = spkStage s res11 is st any := by
  induction is generalizing st any with
  | nil => rfl
  | cons i is ih =>
    have hrest := fun st any => ih st any fun j hj => h j (List.mem_cons_of_mem _ hj)
    simp only [spkStage, h i List.mem_cons_self, hrest, State.withBuf_order, State.withBuf_par]

/-- The completion of an Xtreme frame reads the bytes before the checksum (R142, R147). -/
theorem xtComplete_withBuf {b : Byte} {m : Memory} {s : State}
    (h : ∀ a < 4 + 2 * popcount s.xtMask, (s.withBuf m).bufRead a = s.bufRead a) :
    xtComplete b (s.withBuf m) = (xtComplete b s).map (State.withBuf m) := by
  have hstage : xtStage (s.withBuf m) (List.range 16) 0 Stage.empty = xtStage s (List.range 16) 0 Stage.empty :=
    xtStage_withBuf _ (by simpa [popcount] using h)
  simp only [xtComplete, hstage, apply_ite (Option.map (State.withBuf m))]
  refine ite_congr rfl (fun _ => rfl) fun _ => ite_congr rfl (fun _ => rfl) fun _ =>
    ite_congr rfl (fun _ => rfl) fun _ => ?_
  cases xtStage s (List.range 16) 0 Stage.empty <;> rfl

/-- The completion of an S-Bus frame reads the bytes before the end marker (R150). -/
theorem sbusComplete_withBuf {b : Byte} {m : Memory} {s : State}
    (h : ∀ a < 24, (s.withBuf m).bufRead a = s.bufRead a) :
    sbusComplete b (s.withBuf m) = (sbusComplete b s).map (State.withBuf m) := by
  have hdata : (s.withBuf m).bufReadFrom 1 22 = s.bufReadFrom 1 22 :=
    bufReadFrom_congr fun a ha => h a (by omega)
  unfold sbusComplete
  rw [h 23 (by omega), hdata, State.withBuf_par]
  split
  · cases s.bufRead 23 with
    | none => rfl
    | some flags =>
      simp only [Option.bind_eq_bind, Option.bind_some, sbusStage_withBuf]
      split
      · rfl
      · cases s.bufReadFrom 1 22 <;> rfl
  · rfl

/-- The loss counter's part does not touch BUF (R159). -/
theorem spkLoss_withBuf (loss : Byte) (m : Memory) (s : State) :
    spkLoss loss (s.withBuf m) = (spkLoss loss s).withBuf m := by
  simp only [spkLoss_eq]
  rfl

/-- The last part of a Spektrum completion: the words staged in the resolution set, then a commit or a discard
(R163, R164). -/
def spkPublish (s : State) : Option State :=
  (spkStage s s.spkRes11 (List.range 7) Stage.empty false).map fun r =>
    if r.2 then s.commit r.1 else s.emit .discSpEmpty

/-- The completion of a Spektrum frame: loss counter, resolution, then the words (R158). -/
theorem spkComplete_eq (s : State) :
    spkComplete s = (s.bufRead 0).bind fun loss => (s.bufRead 1).bind fun second =>
      spkPublish { spkLoss loss s with spkRes11 := second.getLsbD 4 } := by
  simp only [spkComplete, spkPublish, Option.map_eq_bind]
  rfl

/-- The words of a Spektrum frame are its bytes 2 to 15 (R161). -/
theorem spkPublish_withBuf {m : Memory} {s : State} (h : ∀ a < 16, (s.withBuf m).bufRead a = s.bufRead a) :
    spkPublish (s.withBuf m) = (spkPublish s).map (State.withBuf m) := by
  have hstage : spkStage (s.withBuf m) s.spkRes11 (List.range 7) Stage.empty false =
      spkStage s s.spkRes11 (List.range 7) Stage.empty false := by
    refine spkStage_withBuf _ _ fun i hi => ?_
    have hi7 : i < 7 := List.mem_range.mp hi
    exact bufWordBE_congr (h _ (by omega)) (h _ (by omega))
  unfold spkPublish
  change (spkStage (s.withBuf m) s.spkRes11 (List.range 7) Stage.empty false).map _ = _
  rw [hstage, Option.map_map]
  refine Option.map_congr fun r _ => ?_
  simp only [Function.comp_apply, apply_ite (State.withBuf m)]
  rfl

/-- The completion of a Spektrum frame reads the frame's sixteen bytes (R158). -/
theorem spkComplete_withBuf {m : Memory} {s : State} (h : ∀ a < 16, (s.withBuf m).bufRead a = s.bufRead a) :
    spkComplete (s.withBuf m) = (spkComplete s).map (State.withBuf m) := by
  rw [spkComplete_eq, spkComplete_eq, h 0 (by omega), h 1 (by omega)]
  cases s.bufRead 0 with
  | none => rfl
  | some loss =>
    cases s.bufRead 1 with
    | none => rfl
    | some second =>
      simp only [Option.bind_some, spkLoss_withBuf]
      refine spkPublish_withBuf (s := { spkLoss loss s with spkRes11 := second.getLsbD 4 }) ?_
      simp only [spkLoss_eq]
      exact h

/-- Bytes 2 and 3 alone fix XT_MASK (R145). -/
theorem xtMaskAfter_of_three_lt {k b : Byte} {mask : BitVec 16} (hk : 3 < k.toNat) : xtMaskAfter k b mask = mask := by
  have htwo : k ≠ 2 := by rintro rfl; exact absurd hk (by decide)
  have hthree : k ≠ 3 := by rintro rfl; exact absurd hk (by decide)
  rw [xtMaskAfter, if_neg htwo, if_neg hthree]

/-- Before its last byte no Xtreme frame reads BUF; there the bytes before the checksum are read, as XT_LEN is the
checksum's index (R142, R143). -/
theorem parseXtreme_withBuf {k b : Byte} {m : Memory} {s : State}
    (h : ∀ a ≤ k.toNat, (s.withBuf m).bufRead a = s.bufRead a)
    (hlen : s.parseDone = false → 4 ≤ k.toNat → s.xtLen.toNat = 4 + 2 * popcount s.xtMask) :
    parseXtreme k b (s.withBuf m) = (parseXtreme k b s).map (State.withBuf m) := by
  simp only [parseXtreme, apply_ite (Option.map (State.withBuf m))]
  refine ite_congr rfl (fun _ => rfl) fun hd => ite_congr rfl (fun _ => rfl) fun hk => ?_
  obtain ⟨hk3, hk⟩ := not_or.mp hk
  have hmask : xtMaskAfter k b s.xtMask = s.xtMask := xtMaskAfter_of_three_lt (by omega)
  have hkeep : xtLenAfter k b s.xtMask s.xtLen = s.xtLen := xtLenAfter_of_ne_three (by omega)
  have hpast : s.xtLen.toNat ≤ k.toNat := by simpa [xtHeader, hkeep] using hk
  have hcount := hlen (by simpa using hd) (by omega)
  refine xtComplete_withBuf (s := { xtHeader k b s with parseDone := true }) fun a ha => h a ?_
  simp only [xtHeader, hmask] at ha
  omega

/-- Byte `k`'s parser reads the entries up to `k` only: those the current frame has written (R54). -/
theorem parse_withBuf {p : SerialProto} {k b : Byte} {m : Memory} {s : State}
    (h : ∀ a ≤ k.toNat, (s.withBuf m).bufRead a = s.bufRead a)
    (hlen : p = .xtreme → s.parseDone = false → 4 ≤ k.toNat → s.xtLen.toNat = 4 + 2 * popcount s.xtMask) :
    parse p k b (s.withBuf m) = (parse p k b s).map (State.withBuf m) := by
  cases p with
  | xtreme => exact parseXtreme_withBuf h (hlen rfl)
  | sbus =>
    simp only [parse, parseSbus, apply_ite (Option.map (State.withBuf m))]
    refine ite_congr rfl (fun _ => rfl) fun hk => ?_
    obtain ⟨-, rfl⟩ : s.parseDone = false ∧ k = 24 := by simpa using hk
    exact sbusComplete_withBuf (s := { s with parseDone := true }) fun a ha => h a (Nat.le_of_lt ha)
  | spektrum =>
    simp only [parse, parseSpektrum, apply_ite (Option.map (State.withBuf m))]
    refine ite_congr rfl (fun _ => rfl) fun hk => ?_
    obtain ⟨-, rfl⟩ : s.parseDone = false ∧ k = 15 := by simpa using hk
    exact spkComplete_withBuf (s := { s with parseDone := true }) fun a ha => h a (Nat.le_of_lt_succ ha)

/-! ## A serial byte -/

/-- The gap test does not touch BUF (R121, R122). -/
theorem frameGap_withBuf (p : SerialProto) (t : Tick) (m : Memory) (s : State) :
    frameGap p t (s.withBuf m) = (frameGap p t s).withBuf m := by
  simp only [frameGap_eq]
  rfl

/-- The append writes its byte into the contents there are (R123). -/
theorem appendByte_withBuf (b : Byte) (m : Memory) (s : State) :
    appendByte b (s.withBuf m) = (appendByte b s).withBuf (appendedBuf b (s.withBuf m)) := by
  simp only [appendByte_eq]
  rfl

/-- BUF as it is and with the contents `m` agree on the entries of the current frame. -/
def FrameAgrees (m : Memory) (s : State) : Prop := ∀ a < s.byteCount.toNat, (s.withBuf m).bufRead a = s.bufRead a

/-- After a frame boundary there is no entry to agree on; without one the frame is the same (R122). -/
theorem FrameAgrees.afterGap {m : Memory} {s : State} (h : FrameAgrees m s) (p : SerialProto) (t : Tick) :
    FrameAgrees m (frameGap p t s) := by
  rcases le_or_gt (elapsed t s.lastByteT).toNat (silenceTicks s.par p) with hgap | hgap
  · rw [frameGap_within hgap]
    exact h
  · rw [frameGap_boundary hgap]
    exact fun a ha => absurd ha (Nat.not_lt_zero a)

/-- The entries of the frame after the append: those before it, then the byte if there is an entry for it (R123). -/
theorem bufRead_appendByte {b : Byte} {s : State} {a : Nat} (hwf : s.buf.wf = true) (ha : a ≤ s.byteCount.toNat) :
    (appendByte b s).bufRead a =
      if a < s.byteCount.toNat then s.bufRead a else if s.byteCount.toNat < s.par.bufCap then some b else none := by
  rcases Nat.lt_or_eq_of_le ha with hlt | rfl <;> rcases lt_or_ge s.byteCount.toNat s.par.bufCap with hcap | hfull
  · rw [appendByte_fits hcap, State.bufRead_bufWrite_other b hwf (Nat.ne_of_lt hlt), if_pos hlt]
  · rw [appendByte_full hfull, if_pos hlt]
    rfl
  · rw [appendByte_fits hcap, State.bufRead_bufWrite_same b hwf hcap, if_neg (lt_irrefl _), if_pos hcap]
  · rw [appendByte_full hfull, if_neg (lt_irrefl _), if_neg (Nat.not_lt.mpr hfull)]
    exact if_neg (Nat.not_lt.mpr hfull)

/-- Contents that agree on the frame agree up to the appended byte (R123). -/
theorem FrameAgrees.afterAppend {m : Memory} {s : State} (h : FrameAgrees m s) (b : Byte) (hwf : s.buf.wf = true)
    (hm : m.wf = true) (a : Nat) (ha : a ≤ s.byteCount.toNat) :
    ((appendByte b s).withBuf (appendedBuf b (s.withBuf m))).bufRead a = (appendByte b s).bufRead a := by
  rw [← appendByte_withBuf, bufRead_appendByte hwf ha, bufRead_appendByte (s := s.withBuf m) hm ha]
  exact ite_congr rfl (h a) fun _ => rfl

/-- A byte in a serial mode does the same on contents that agree on the frame, and they still agree (R54). The Xtreme
parser's reads stay inside the frame because XT_LEN counts its value bytes, as the invariant says (R143). -/
theorem rxByte_withBuf {p : SerialProto} {b : Byte} {t : Tick} {m : Memory} {s u : State} (hi : Inv s)
    (hm : m.wf = true) (hp : serialOf s.proto = some p) (hagree : FrameAgrees m s) (h : rxByte p b t s = some u) :
    ∃ m', rxByte p b t (s.withBuf m) = some (u.withBuf m') ∧ FrameAgrees m' u := by
  obtain ⟨parsed, hparse, rfl⟩ := rxByte_eq_some_iff.mp h
  have hproto : (frameGap p t s).proto = s.proto := by simp only [frameGap_eq]
  have hf : Inv (frameGap p t s) := frameGap_keeps_inv hi
  have hread := (hagree.afterGap p t).afterAppend b hf.bufWf hm
  have hgap := frameGap_withBuf p t m s
  generalize frameGap p t s = f at hproto hf hparse hread hgap ⊢
  have hlen : p = .xtreme → (appendByte b f).parseDone = false → 4 ≤ f.byteCount.toNat →
      (appendByte b f).xtLen.toNat = 4 + 2 * popcount (appendByte b f).xtMask := by
    rintro rfl hopen h4
    simp only [appendByte_eq] at hopen ⊢
    have hx : s.proto = .xtreme := by simpa using serialOf_eq_some_iff.mp hp
    exact ((hf.xtremeTracks (hproto.trans hx) hopen).length h4).1
  have hkeeps := parse_keeps hparse
  generalize hm' : appendedBuf b (f.withBuf m) = m' at hread
  refine ⟨m', rxByte_eq_some_iff.mpr ⟨parsed.withBuf m', ?_, ?_⟩, fun a ha => ?_⟩
  · rw [hgap, appendByte_withBuf, hm', State.withBuf_byteCount, parse_withBuf hread hlen, hparse]
    rfl
  · rw [hgap]
    rfl
  · have hle : a ≤ f.byteCount.toNat := by
      have hlt : a < (satInc f.byteCount).toNat := ha
      rw [satInc_toNat] at hlt
      omega
    calc (State.withBuf m' { parsed with byteCount := satInc f.byteCount }).bufRead a
        = ((appendByte b f).withBuf m').bufRead a := State.bufRead_withBuf_congr hkeeps.par m' a
      _ = (appendByte b f).bufRead a := hread a hle
      _ = _ := (State.bufRead_congr hkeeps.par hkeeps.buf a).symm

/-! ## Every operation -/

/-- No operation changes the parameters (R213). -/
theorem exec_par {i : Instr} {s u : State} (h : exec i s = .next u) : u.par = s.par := by
  cases i with
  | pwmRise ch t => obtain ⟨-, ⟨-, rfl⟩ | ⟨-, rfl⟩⟩ := execPwmRise_cases h <;> rfl
  | pwmFall ch t => obtain ⟨_, -, ⟨-, -, rfl⟩ | ⟨-, -, rfl⟩ | ⟨-, rfl⟩⟩ := execPwmFall_cases h <;> rfl
  | cppmEdge t =>
    obtain ⟨-, rfl⟩ | ⟨-, rfl⟩ := execCppmEdge_cases h
    · exact (cppmEdge_configKept t s.begin).par
    · rfl
  | rxByte b t =>
    obtain ⟨-, rfl⟩ | ⟨p, -, hrx⟩ := execRxByte_cases h
    · rfl
    · obtain ⟨parsed, hparse, rfl⟩ := rxByte_eq_some_iff.mp hrx
      simpa only [appendByte_eq, frameGap_eq, State.begin_par] using (parse_keeps hparse).par
  | cfg p => obtain ⟨-, rfl⟩ | ⟨-, rfl⟩ := execCfg_cases h <;> rfl
  | ordWr w c => obtain ⟨-, rfl⟩ | ⟨-, rfl⟩ := execOrdWr_cases h <;> rfl
  | chRd c => obtain ⟨v, -, rfl⟩ := execChRd_cases h; rfl
  | tmrRd t => cases h; rfl
  | ordRd w => cases h; rfl
  | frClr => cases h; rfl
  | overdue => cases h; rfl
  | stRd => cases h; rfl

/-- An operation that keeps BUF, and keeps the byte count or closes the frame, keeps the agreement. -/
theorem FrameAgrees.of_kept {m : Memory} {s u : State} (h : FrameAgrees m s) (hpar : u.par = s.par)
    (hbuf : u.buf = s.buf) (hcount : u.byteCount = s.byteCount ∨ u.byteCount = 0) : FrameAgrees m u := by
  intro a ha
  obtain hkept | hzero := hcount
  · rw [hkept] at ha
    rw [State.bufRead_congr hpar hbuf, ← h a ha]
    exact State.bufRead_withBuf_congr hpar m a
  · rw [hzero] at ha
    exact absurd ha (Nat.not_lt_zero a)

/-- Every operation that completes does the same on contents that agree on the frame, and they still agree (R54). -/
theorem exec_withBuf_of_frameAgrees {i : Instr} {m : Memory} {s u : State} (hi : Inv s) (hm : m.wf = true)
    (hagree : FrameAgrees m s) (h : exec i s = .next u) :
    ∃ m', exec i (s.withBuf m) = .next (u.withBuf m') ∧ FrameAgrees m' u := by
  by_cases hrx : ∃ b t, i = .rxByte b t
  · obtain ⟨b, t, rfl⟩ := hrx
    obtain ⟨hnone, rfl⟩ | ⟨p, hp, hbyte⟩ := execRxByte_cases h
    · exact ⟨m, execRxByte_ignored (s := s.withBuf m) hnone, hagree⟩
    · obtain ⟨m', hm', hagree'⟩ := rxByte_withBuf (hi.of_record (some Output.empty) s.input) hm hp hagree hbyte
      exact ⟨m', (execRxByte_next_iff (s := s.withBuf m) hp).mpr hm', hagree'⟩
  · have hne : ∀ b t, i ≠ .rxByte b t := fun b t he => hrx ⟨b, t, he⟩
    obtain ⟨hbuf, hcount⟩ := exec_frame_of_ne_rxByte hne h
    refine ⟨m, ?_, hagree.of_kept (exec_par h) hbuf hcount⟩
    rw [exec_withBuf m s hne, h, resultWithBuf_next]

/-- Settles O25: the second state is the first with other contents of BUF, which agree on the frame. -/
theorem oldBufferBytesUnobservable : Obligations.OldBufferBytesUnobservable := by
  intro s t i u hs ht hst hagree h
  obtain ⟨m, rfl⟩ : ∃ m, t = s.withBuf m := ⟨t.buf, hst.symm⟩
  obtain ⟨m', hexec, hagree'⟩ := exec_withBuf_of_frameAgrees hs ht.bufWf (fun a ha => (hagree a ha).symm) h
  exact ⟨u.withBuf m', hexec, rfl, fun a ha => (hagree' a ha).symm⟩

/-! ## Commits and reads (O41, O52) -/

/-- Settles O41: a byte step publishes by a commit only, and a commit pulses the strobe. -/
theorem serialWritesRawOnlyByCommit : Obligations.SerialWritesRawOnlyByCommit := by
  intro b t s u o p hp h hout hquiet
  have hw : ByteWrites p s.begin u := rxByte_writes ((execRxByte_next_iff hp).mp h)
  have hstrobe : u.record.strobe ≠ true := by simp [State.record_of_out hout, hquiet]
  obtain ⟨hfr, hcnt⟩ := hw.publish.resolve_left fun hc => hstrobe hc.1
  exact ⟨hw.raw.resolve_right hstrobe, hfr, hcnt, hw.sbusFs.resolve_right fun hc => hstrobe hc.2⟩

/-- Settles O52: what each read answers does not depend on the output record, the only field it writes. -/
theorem readsHaveNoSideEffect : Obligations.ReadsHaveNoSideEffect := by
  rintro i s t (⟨v, rfl⟩ | ⟨w, rfl⟩ | ⟨c, rfl⟩ | rfl) h
  · cases h; exact ⟨rfl, rfl⟩
  · cases h; exact ⟨rfl, rfl⟩
  · obtain ⟨v, hv, rfl⟩ := execChRd_cases h
    have hagain : (s.begin.answer (.half v)).raw? c.toNat = some v := hv
    refine ⟨rfl, ?_⟩
    simp only [exec, execChRd, hagain]
    rfl
  · cases h; exact ⟨rfl, rfl⟩

end Sys2Proof.Machine

/-! # The encoding (O1, O2, O3, O4)

What the decoder answers is said once for every OP, and which words an operation has is said field by field (`Spells`).
Decoding, the encoder and the used bits are each tied to that table. -/

namespace Sys2Proof

/-! ## What the decoder answers -/

section
variable {w : Word}

theorem decode_pwmRise (h : w.op = 0x1) : decode w = .ok (.pwmRise w.fieldA w.fieldT) := by simp [decode, h]

theorem decode_pwmFall (h : w.op = 0x2) : decode w = .ok (.pwmFall w.fieldA w.fieldT) := by simp [decode, h]

theorem decode_cppmEdge (h : w.op = 0x3) : decode w = .ok (.cppmEdge w.fieldT) := by simp [decode, h]

theorem decode_rxByte (h : w.op = 0x4) : decode w = .ok (.rxByte w.fieldD w.fieldT) := by simp [decode, h]

theorem decode_tmrRd (h : w.op = 0x5) : decode w = .ok (.tmrRd w.fieldT) := by simp [decode, h]

theorem decode_of_op_cfg (h : w.op = 0x8) : decode w = decodeCfg w.fieldA := by simp [decode, h]

theorem decode_ordWr (h : w.op = 0x9) : decode w = .ok (.ordWr w.fieldA w.fieldD) := by simp [decode, h]

theorem decode_ordRd (h : w.op = 0xA) : decode w = .ok (.ordRd w.fieldA) := by simp [decode, h]

theorem decode_frClr (h : w.op = 0xB) : decode w = .ok .frClr := by simp [decode, h]

theorem decode_overdue (h : w.op = 0xC) : decode w = .ok .overdue := by simp [decode, h]

theorem decode_chRd (h : w.op = 0xD) : decode w = .ok (.chRd w.fieldA) := by simp [decode, h]

theorem decode_stRd (h : w.op = 0xE) : decode w = .ok .stRd := by simp [decode, h]

/-- A reserved OP is refused (R77). -/
theorem decode_reservedOp (h : w.op = 0x0 ∨ w.op = 0x6 ∨ w.op = 0x7 ∨ w.op = 0xF) :
    decode w = .error (.reservedOp w.op) := by
  rcases h with h | h | h | h <;> simp [decode, h]

end

/-- The code of a protocol names it (R24). -/
@[simp] theorem decodeCfg_fieldA (p : Proto) : decodeCfg p.fieldA = .ok (.cfg p) := by cases p <;> rfl

/-- The protocol codes from 6 are refused (R78(c)). -/
theorem decodeCfg_reserved : ∀ a : Nibble, 6 ≤ a.toNat → decodeCfg a = .error (.reservedProtocol a) := by decide

/-- A CFG word with a protocol code from 6 is refused (R78(c)). -/
theorem decode_reservedProtocol {w : Word} (hop : w.op = 0x8) (hcode : 6 ≤ w.fieldA.toNat) :
    decode w = .error (.reservedProtocol w.fieldA) := by
  rw [decode_of_op_cfg hop, decodeCfg_reserved _ hcode]

/-- The codes below 6 name a protocol (R24). -/
theorem exists_fieldA_eq {a : Nibble} (h : a.toNat < 6) : ∃ p : Proto, p.fieldA = a := by
  have hcode : ∀ c : Nibble, c.toNat < 6 → (Proto.ofCode? c).map Proto.fieldA = some c := by decide
  obtain ⟨p, -, hp⟩ := Option.map_eq_some_iff.mp (hcode a h)
  exact ⟨p, hp⟩

/-! ## The words of an operation -/

/-- The fields a word of the operation has, as far as the operation uses them (R73–R75). -/
def Spells (w : Word) : Instr → Prop
  | .pwmRise ch t => w.op = 0x1 ∧ w.fieldA = ch ∧ w.fieldT = t
  | .pwmFall ch t => w.op = 0x2 ∧ w.fieldA = ch ∧ w.fieldT = t
  | .cppmEdge t => w.op = 0x3 ∧ w.fieldT = t
  | .rxByte b t => w.op = 0x4 ∧ w.fieldD = b ∧ w.fieldT = t
  | .tmrRd t => w.op = 0x5 ∧ w.fieldT = t
  | .cfg p => w.op = 0x8 ∧ w.fieldA = p.fieldA
  | .ordWr v c => w.op = 0x9 ∧ w.fieldA = v ∧ w.fieldD = c
  | .ordRd v => w.op = 0xA ∧ w.fieldA = v
  | .frClr => w.op = 0xB
  | .overdue => w.op = 0xC
  | .chRd c => w.op = 0xD ∧ w.fieldA = c
  | .stRd => w.op = 0xE

/-- A word with the fields of an operation decodes to it. -/
theorem decode_of_spells {w : Word} {i : Instr} (h : Spells w i) : decode w = .ok i := by
  cases i with
  | pwmRise ch t => obtain ⟨hop, rfl, rfl⟩ := h; exact decode_pwmRise hop
  | pwmFall ch t => obtain ⟨hop, rfl, rfl⟩ := h; exact decode_pwmFall hop
  | cppmEdge t => obtain ⟨hop, rfl⟩ := h; exact decode_cppmEdge hop
  | rxByte b t => obtain ⟨hop, rfl, rfl⟩ := h; exact decode_rxByte hop
  | tmrRd t => obtain ⟨hop, rfl⟩ := h; exact decode_tmrRd hop
  | cfg p => obtain ⟨hop, hp⟩ := h; rw [decode_of_op_cfg hop, hp, decodeCfg_fieldA]
  | ordWr v c => obtain ⟨hop, rfl, rfl⟩ := h; exact decode_ordWr hop
  | ordRd v => obtain ⟨hop, rfl⟩ := h; exact decode_ordRd hop
  | frClr => exact decode_frClr h
  | overdue => exact decode_overdue h
  | chRd c => obtain ⟨hop, rfl⟩ := h; exact decode_chRd hop
  | stRd => exact decode_stRd h

/-- Every word has a reserved OP, is a CFG word with a reserved code, or has the fields of an operation (R76–R78). -/
theorem word_cases (w : Word) :
    (w.op = 0x0 ∨ w.op = 0x6 ∨ w.op = 0x7 ∨ w.op = 0xF) ∨ (w.op = 0x8 ∧ 6 ≤ w.fieldA.toNat) ∨ ∃ i, Spells w i := by
  rcases nibble_cases w.op with h | h | h | h | h | h | h | h | h | h | h | h | h | h | h | h
  · exact .inl (.inl h)
  · exact .inr (.inr ⟨.pwmRise _ _, h, rfl, rfl⟩)
  · exact .inr (.inr ⟨.pwmFall _ _, h, rfl, rfl⟩)
  · exact .inr (.inr ⟨.cppmEdge _, h, rfl⟩)
  · exact .inr (.inr ⟨.rxByte _ _, h, rfl, rfl⟩)
  · exact .inr (.inr ⟨.tmrRd _, h, rfl⟩)
  · exact .inl (.inr (.inl h))
  · exact .inl (.inr (.inr (.inl h)))
  · rcases Nat.lt_or_ge w.fieldA.toNat 6 with hlt | hge
    · obtain ⟨p, hp⟩ := exists_fieldA_eq hlt
      exact .inr (.inr ⟨.cfg p, h, hp.symm⟩)
    · exact .inr (.inl ⟨h, hge⟩)
  · exact .inr (.inr ⟨.ordWr _ _, h, rfl, rfl⟩)
  · exact .inr (.inr ⟨.ordRd _, h, rfl⟩)
  · exact .inr (.inr ⟨.frClr, h⟩)
  · exact .inr (.inr ⟨.overdue, h⟩)
  · exact .inr (.inr ⟨.chRd _, h, rfl⟩)
  · exact .inr (.inr ⟨.stRd, h⟩)
  · exact .inl (.inr (.inr (.inr h)))

/-- No operation has a reserved OP (R77). -/
theorem Spells.op_not_reserved {w : Word} {i : Instr} (h : Spells w i) :
    ¬(w.op = 0x0 ∨ w.op = 0x6 ∨ w.op = 0x7 ∨ w.op = 0xF) := fun hres => by
  cases (decode_of_spells h).symm.trans (decode_reservedOp hres)

/-- No operation is a CFG word with a reserved protocol code (R78(c)). -/
theorem Spells.code_not_reserved {w : Word} {i : Instr} (h : Spells w i) : ¬(w.op = 0x8 ∧ 6 ≤ w.fieldA.toNat) :=
  fun ⟨hop, hcode⟩ => by cases (decode_of_spells h).symm.trans (decode_reservedProtocol hop hcode)

/-- The decoder follows the table of fields. -/
theorem decode_eq_ok_iff {w : Word} {i : Instr} : decode w = .ok i ↔ Spells w i := by
  refine ⟨fun h => ?_, decode_of_spells⟩
  obtain hres | ⟨hop, hcode⟩ | ⟨j, hj⟩ := word_cases w
  · rw [decode_reservedOp hres] at h
    cases h
  · rw [decode_reservedProtocol hop hcode] at h
    cases h
  · rw [decode_of_spells hj] at h
    cases h
    exact hj

/-- The encoder writes a word with the operation's fields (R82). -/
theorem spells_encode (i : Instr) : Spells (encode i) i := by cases i <;> simp [Spells, encode]

/-- A word masked field by field. -/
theorem and_eq_formatE (w : Word) (o a : Nibble) (d : Byte) (t : Tick) :
    w &&& formatE o a d t = formatE (w.op &&& o) (w.fieldA &&& a) (w.fieldD &&& d) (w.fieldT &&& t) := by
  rw [← and_formatE, ← word_eq_formatE]

theorem and_zero_mask {n : Nat} (x : BitVec n) : x &&& 0 = 0 := BitVec.and_zero

theorem formatE_eq_iff {o a o' a' : Nibble} {d d' : Byte} {t t' : Tick} :
    formatE o a d t = formatE o' a' d' t' ↔ o = o' ∧ a = a' ∧ d = d' ∧ t = t' :=
  ⟨formatE_inj, fun ⟨ho, ha, hd, ht⟩ => by rw [ho, ha, hd, ht]⟩

/-- The used bits are those of the fields in the table: a word has an operation's fields exactly if its used bits are
those of the operation's own word (R72). -/
theorem spells_iff_and_usedBits {w : Word} {i : Instr} : Spells w i ↔ w &&& usedBits i = encode i := by
  cases i <;>
    simp only [Spells, usedBits_eq, and_eq_formatE, encode, formatE_eq_iff, and_nibble_mask, and_byte_mask,
      and_tick_mask, and_zero_mask, true_and, and_true]

/-- Settles O1: the encoder's word has the operation's fields, and the decoder follows the fields. -/
theorem decodeEncodeRoundTrip : Obligations.DecodeEncodeRoundTrip := fun i => decode_of_spells (spells_encode i)

/-- Settles O2: decoding to `i` is having the used bits of `encode i`. -/
theorem unusedFieldsIgnored : Obligations.UnusedFieldsIgnored := by
  intro w i hw
  have hused : w &&& usedBits i = encode i := spells_iff_and_usedBits.mp (decode_eq_ok_iff.mp hw)
  exact ⟨hused.symm, fun v hv => decode_of_spells (spells_iff_and_usedBits.mpr (hv.trans hused))⟩

/-- Settles O3: the three cases of `word_cases` exclude each other. -/
theorem decoderRefusesExactlyReserved : Obligations.DecoderRefusesExactlyReserved := by
  intro w
  obtain hres | ⟨hop, hcode⟩ | ⟨i, hi⟩ := word_cases w
  · have hd := decode_reservedOp hres
    have hne : w.op ≠ 0x8 := by rcases hres with h | h | h | h <;> rw [h] <;> decide
    exact ⟨iff_of_true hd hres, iff_of_false (by simp [hd]) fun h => hne h.1,
      iff_of_false (by simp [hd]) fun h => h.1 hres⟩
  · have hd := decode_reservedProtocol hop hcode
    have hne : ¬(w.op = 0x0 ∨ w.op = 0x6 ∨ w.op = 0x7 ∨ w.op = 0xF) := by rw [hop]; decide
    exact ⟨iff_of_false (by simp [hd]) hne, iff_of_true hd ⟨hop, hcode⟩,
      iff_of_false (by simp [hd]) fun h => h.2 ⟨hop, hcode⟩⟩
  · have hd := decode_of_spells hi
    exact ⟨iff_of_false (by simp [hd]) hi.op_not_reserved, iff_of_false (by simp [hd]) hi.code_not_reserved,
      iff_of_true ⟨i, hd⟩ ⟨hi.op_not_reserved, hi.code_not_reserved⟩⟩

/-- Settles O4: each word is the encoder's for its operation, and the encoder's words decode. -/
theorem spelledWordsDecode : Obligations.SpelledWordsDecode :=
  ⟨decodeEncodeRoundTrip (.pwmRise 2 0xFF00), decodeEncodeRoundTrip (.pwmFall 7 5100),
    decodeEncodeRoundTrip (.cppmEdge 10000), decodeEncodeRoundTrip (.rxByte 0xF8 0x2258),
    decodeEncodeRoundTrip (.tmrRd 0x1234), decodeEncodeRoundTrip (.cfg .sbus),
    decodeEncodeRoundTrip (.ordWr 2 0xFF), decodeEncodeRoundTrip .stRd⟩

end Sys2Proof

/-! # Refused, ignored and completing operations (O6, O53)

Under the invariant an operation completes exactly if its pin or channel exists; what it emits is `IGNORED` exactly if
it is an event of a source that PROTO does not select. -/

namespace Sys2Proof.Machine

/-! ## The pins and channels there are -/

/-- An existing pin has its PULSE_START entry (R23). -/
theorem exists_pulseStart {s : State} (hi : Inv s) {ch : Nat} (h : ch < s.par.nPwm) : ∃ v, s.pulseStart? ch = some v := by
  have hlt : ch < s.pulseStart.length := hi.pulseLength.symm ▸ h
  exact ⟨s.pulseStart[ch], pulseStart?_eq_some_iff.mpr ⟨h, List.getElem?_eq_getElem hlt⟩⟩

/-- An existing channel has its RAW entry (R22). -/
theorem exists_raw {s : State} (hi : Inv s) {c : Nat} (h : c < s.par.nCh) : ∃ v, s.raw? c = some v := by
  have hlt : c < s.raw.length := hi.rawLength.symm ▸ h
  exact ⟨s.raw[c], raw?_eq_some_iff.mpr ⟨h, List.getElem?_eq_getElem hlt⟩⟩

theorem pulseStart?_of_ge {s : State} {ch : Nat} (h : s.par.nPwm ≤ ch) : s.pulseStart? ch = none :=
  if_neg (Nat.not_lt.mpr h)

theorem raw?_of_ge {s : State} {c : Nat} (h : s.par.nCh ≤ c) : s.raw? c = none := if_neg (Nat.not_lt.mpr h)

/-! ## A serial byte completes

No parser reads BUF at or above index 37 (R12, R54), so with a valid BUF_CAP each one answers. -/

/-- An Xtreme completion reads at most sixteen words from index 4 on (R147). -/
theorem xtComplete_isSome (b : Byte) {s : State} (h : 37 ≤ s.par.bufCap) : (xtComplete b s).isSome := by
  have hwords : (xtStage s (List.range 16) 0 Stage.empty).isSome := by
    refine xtStage_isSome _ fun m hm => ?_
    have hm16 : m < 16 := lt_of_lt_of_le hm (by simpa using List.countP_le_length (l := List.range 16))
    rw [bufWordBE_eq (by omega), Option.isSome_some]
  obtain ⟨st, hst⟩ := Option.isSome_iff_exists.mp hwords
  unfold xtComplete
  split
  · rfl
  split
  · rfl
  split
  · rfl
  · simp [hst]

/-- An S-Bus completion reads BUF[1..23] (R150). -/
theorem sbusComplete_isSome (b : Byte) {s : State} (h : 37 ≤ s.par.bufCap) : (sbusComplete b s).isSome := by
  obtain ⟨data, hdata⟩ := Option.isSome_iff_exists.mp (bufReadFrom_isSome (s := s) (i := 1) (n := 22) (by omega))
  unfold sbusComplete
  split
  · rw [State.bufRead_eq (show 23 < s.par.bufCap by omega), hdata]
    simp only [Option.bind_eq_bind, Option.bind_some, Option.pure_def]
    split <;> rfl
  · rfl

/-- A Spektrum completion reads BUF[0..15] (R158). -/
theorem spkComplete_isSome {s : State} (h : 37 ≤ s.par.bufCap) : (spkComplete s).isSome := by
  have hpublish : ∀ u : State, 37 ≤ u.par.bufCap → (spkPublish u).isSome := by
    intro u hu
    have hwords : (spkStage u u.spkRes11 (List.range 7) Stage.empty false).isSome := by
      refine spkStage_isSome _ _ fun i hi => ?_
      have := List.mem_range.mp hi
      rw [bufWordBE_eq (by omega), Option.isSome_some]
    obtain ⟨⟨st, any⟩, hst⟩ := Option.isSome_iff_exists.mp hwords
    simp [spkPublish, hst]
  rw [spkComplete_eq, State.bufRead_eq (show 0 < s.par.bufCap by omega),
    State.bufRead_eq (show 1 < s.par.bufCap by omega)]
  refine hpublish _ ?_
  simpa only [spkLoss_eq] using h

/-- Every parser answers (R54). -/
theorem parse_isSome (p : SerialProto) (k b : Byte) {s : State} (h : 37 ≤ s.par.bufCap) : (parse p k b s).isSome := by
  cases p with
  | xtreme =>
    simp only [parse, parseXtreme]
    split
    · rfl
    split
    · rfl
    · exact xtComplete_isSome b h
  | sbus =>
    simp only [parse, parseSbus]
    split
    · rfl
    · exact sbusComplete_isSome b h
  | spektrum =>
    simp only [parse, parseSpektrum]
    split
    · rfl
    · exact spkComplete_isSome h

/-- A byte in a serial mode completes (R54, R120). -/
theorem exists_rxByte (p : SerialProto) (b : Byte) (t : Tick) {s : State} (h : 37 ≤ s.par.bufCap) :
    ∃ u, rxByte p b t s = some u := by
  have hcap : 37 ≤ (appendByte b (frameGap p t s)).par.bufCap := by simpa only [appendByte_eq, frameGap_eq] using h
  obtain ⟨parsed, hparsed⟩ := Option.isSome_iff_exists.mp (parse_isSome p (frameGap p t s).byteCount b hcap)
  exact ⟨_, rxByte_eq_some_iff.mpr ⟨parsed, hparsed, rfl⟩⟩

/-! ## Which operations are refused -/

/-- Every well-formed operation completes (R230, R236). -/
theorem exec_completes {i : Instr} {s : State} (hi : Inv s) (hw : i.wellFormed s.par = true) :
    Completes (exec i s) := by
  cases i with
  | pwmRise ch t =>
    obtain ⟨v, hv⟩ := exists_pulseStart hi (of_decide_eq_true hw)
    simp only [exec, execPwmRise, hv]
    split <;> exact ⟨_, rfl⟩
  | pwmFall ch t =>
    obtain ⟨v, hv⟩ := exists_pulseStart hi (of_decide_eq_true hw)
    simp only [exec, execPwmFall, hv]
    split <;> exact ⟨_, rfl⟩
  | cppmEdge t =>
    simp only [exec, execCppmEdge]
    split <;> exact ⟨_, rfl⟩
  | rxByte b t =>
    cases hp : serialOf s.proto with
    | none => exact ⟨_, execRxByte_ignored hp⟩
    | some p =>
      obtain ⟨u, hu⟩ := exists_rxByte p b t (s := s.begin) hi.parValid.bufCap_ge
      exact ⟨u, (execRxByte_next_iff hp).mpr hu⟩
  | cfg p =>
    simp only [exec, execCfg]
    split <;> exact ⟨_, rfl⟩
  | ordWr w c =>
    simp only [exec, execOrdWr]
    split <;> exact ⟨_, rfl⟩
  | chRd c =>
    obtain ⟨v, hv⟩ := exists_raw hi (of_decide_eq_true hw)
    simp only [exec, execChRd, hv]
    exact ⟨_, rfl⟩
  | tmrRd t => exact ⟨_, rfl⟩
  | ordRd w => exact ⟨_, rfl⟩
  | frClr => exact ⟨_, rfl⟩
  | overdue => exact ⟨_, rfl⟩
  | stRd => exact ⟨_, rfl⟩

/-- An operation on a pin or channel that does not exist is refused (R78(a), R78(b)). -/
theorem exec_refused_of_illFormed {i : Instr} {s : State} (hw : i.wellFormed s.par = false) : IsRefused (exec i s) := by
  cases i with
  | pwmRise ch t =>
    simp only [exec, execPwmRise, pulseStart?_of_ge (Nat.le_of_not_lt (of_decide_eq_false hw))]
    exact ⟨_, rfl⟩
  | pwmFall ch t =>
    simp only [exec, execPwmFall, pulseStart?_of_ge (Nat.le_of_not_lt (of_decide_eq_false hw))]
    exact ⟨_, rfl⟩
  | chRd c =>
    simp only [exec, execChRd, raw?_of_ge (Nat.le_of_not_lt (of_decide_eq_false hw))]
    exact ⟨_, rfl⟩
  | cppmEdge _ | rxByte _ _ | tmrRd _ | cfg _ | ordWr _ _ | ordRd _ | frClr | overdue | stRd => cases hw

/-- An operation is refused exactly if its pin or channel does not exist (R78). -/
theorem exec_refused_iff {i : Instr} {s : State} (hi : Inv s) :
    IsRefused (exec i s) ↔ i.wellFormed s.par = false := by
  refine ⟨fun ⟨why, hwhy⟩ => ?_, exec_refused_of_illFormed⟩
  by_contra hw
  obtain ⟨u, hu⟩ := exec_completes hi (Bool.not_eq_false _ ▸ hw)
  cases hu.symm.trans hwhy

/-- Which words of an operation name a pin or channel that does not exist (R78(a), R78(b)). -/
theorem wellFormed_eq_false_iff {w : Word} {i : Instr} (p : Params) (h : Spells w i) :
    i.wellFormed p = false ↔
      ((w.op = 0x1 ∨ w.op = 0x2) ∧ p.nPwm ≤ w.fieldA.toNat) ∨ (w.op = 0xD ∧ p.nCh ≤ w.fieldA.toNat) := by
  cases i with
  | pwmRise ch t => obtain ⟨hop, rfl, -⟩ := h; simp [Instr.wellFormed, hop]
  | pwmFall ch t => obtain ⟨hop, rfl, -⟩ := h; simp [Instr.wellFormed, hop]
  | chRd c => obtain ⟨hop, rfl⟩ := h; simp [Instr.wellFormed, hop]
  | cppmEdge t => simp [Instr.wellFormed, h.1]
  | rxByte b t => simp [Instr.wellFormed, h.1]
  | tmrRd t => simp [Instr.wellFormed, h.1]
  | cfg q => simp [Instr.wellFormed, h.1]
  | ordWr v c => simp [Instr.wellFormed, h.1]
  | ordRd v => simp [Instr.wellFormed, h.1]
  | frClr => simp [Instr.wellFormed, show w.op = 0xB from h]
  | overdue => simp [Instr.wellFormed, show w.op = 0xC from h]
  | stRd => simp [Instr.wellFormed, show w.op = 0xE from h]

/-- A step whose next word spells no operation is refused (R77, R78(c)). -/
theorem step_of_decode_error {s : State} {w : Word} {rest : List Word} {e : DecodeError} (hin : s.input = w :: rest)
    (hdec : decode w = .error e) : step s = .refused (.undecodable e) := by
  simp only [step, hin, stepWord, hdec]

/-- ORD_WR while a protocol is enabled, or of an illegal value, is dropped (R205). -/
theorem exec_ordWr_dropped {w : Nibble} {c : Byte} {s : State}
    (h : s.proto ≠ .disabled ∨ orderValueLegal s.par c = false) :
    exec (.ordWr w c) s = .next { s with cfgErr := true, out := quiet [.ordDropped] } := by
  simp only [exec, execOrdWr, if_pos h]
  rfl

/-- Settles O6: a word that spells an operation is refused exactly if its pin or channel does not exist. -/
theorem refusedWordsExactly : Obligations.RefusedWordsExactly := by
  refine ⟨fun s w rest hi hin => ?_, fun w c s hne hge => ?_⟩
  · obtain hres | hcfg | ⟨i, hspells⟩ := word_cases w
    · exact iff_of_true ⟨_, step_of_decode_error hin (decode_reservedOp hres)⟩ (.inl hres)
    · exact iff_of_true ⟨_, step_of_decode_error hin (decode_reservedProtocol hcfg.1 hcfg.2)⟩
        (.inr (.inr (.inr hcfg)))
    · rw [step_of_decode hin (decode_of_spells hspells), exec_refused_iff (hi.of_record s.out rest),
        wellFormed_eq_false_iff _ hspells]
      simp only [hspells.op_not_reserved, hspells.code_not_reserved, false_or, or_false]
  · refine exec_ordWr_dropped (.inr (Bool.eq_false_iff.mpr fun hlegal => ?_))
    exact (orderValueLegal_iff.mp hlegal).elim hne (Nat.not_lt.mpr hge)

/-! ## Which operations are ignored -/

/-- An event whose source PROTO does not select (R80, R100). -/
def SourceInactive (s : State) : Instr → Prop
  | .pwmRise _ _ => s.proto ≠ .pwm
  | .pwmFall _ _ => s.proto ≠ .pwm
  | .cppmEdge _ => s.proto ≠ .cppm
  | .rxByte _ _ => s.proto ≠ .xtreme ∧ s.proto ≠ .sbus ∧ s.proto ≠ .spektrum
  | _ => False

/-- RX_BYTE has no source exactly outside the serial modes (R120). -/
theorem serialOf_eq_none_iff {p : Proto} : serialOf p = none ↔ p ≠ .xtreme ∧ p ≠ .sbus ∧ p ≠ .spektrum := by
  cases p <;> simp [serialOf]

/-- An event of an inactive source is ignored (R232). -/
theorem exec_of_sourceInactive {i : Instr} {s : State} (hi : Inv s) (hw : i.wellFormed s.par = true)
    (h : SourceInactive s i) : exec i s = ignored s := by
  cases i with
  | pwmRise ch t =>
    obtain ⟨v, hv⟩ := exists_pulseStart hi (of_decide_eq_true hw)
    simp only [exec, execPwmRise, hv]
    exact if_neg h
  | pwmFall ch t =>
    obtain ⟨v, hv⟩ := exists_pulseStart hi (of_decide_eq_true hw)
    simp only [exec, execPwmFall, hv]
    exact if_neg h
  | cppmEdge t => exact if_neg h
  | rxByte b t => exact execRxByte_ignored (serialOf_eq_none_iff.mpr h)
  | tmrRd _ | cfg _ | ordWr _ _ | ordRd _ | frClr | overdue | chRd _ | stRd => exact h.elim

/-- The step's record is there, without IGNORED in it. -/
structure NotIgnored (s : State) : Prop where
  recorded : ∃ o, s.out = some o
  tags : .ignored ∉ s.record.tags

theorem NotIgnored.begin (s : State) : NotIgnored s.begin := ⟨⟨_, rfl⟩, List.not_mem_nil⟩

/-- Only the output record matters. -/
theorem NotIgnored.of_out {s t : State} (h : NotIgnored s) (hout : t.out = s.out := by rfl) : NotIgnored t := by
  have hrecord : t.record = s.record := by rw [State.record, hout, State.record]
  exact ⟨hout ▸ h.recorded, hrecord ▸ h.tags⟩

theorem NotIgnored.emit {s : State} (h : NotIgnored s) {g : Tag} (hg : .ignored ≠ g) : NotIgnored (s.emit g) :=
  ⟨⟨_, rfl⟩, by simp [h.tags, hg]⟩

theorem NotIgnored.commit {s : State} (h : NotIgnored s) (st : Stage) : NotIgnored (s.commit st) :=
  ⟨⟨_, rfl⟩, by rw [State.commit_record]; simp [h.tags]⟩

theorem NotIgnored.answer {s : State} (h : NotIgnored s) (v : Ret) : NotIgnored (s.answer v) :=
  ⟨⟨_, rfl⟩, h.tags⟩

/-- No parser emits IGNORED (R140). -/
theorem parse_notIgnored {p : SerialProto} {k b : Byte} {s s' : State} (hs : NotIgnored s)
    (h : parse p k b s = some s') : NotIgnored s' := by
  cases p with
  | xtreme =>
    rcases parseXtreme_cases h with ⟨-, rfl⟩ | ⟨-, -, rfl⟩ | ⟨-, -, hc⟩
    · exact hs
    · exact hs.of_out
    · have hdone : NotIgnored { xtHeader k b s with parseDone := true } := hs.of_out
      rcases xtComplete_cases hc with ⟨-, rfl⟩ | ⟨-, -, rfl⟩ | ⟨-, -, -, rfl⟩ | ⟨-, -, -, st, -, rfl⟩
      · exact hdone.emit (by decide)
      · exact hdone.emit (by decide)
      · exact hdone.emit (by decide)
      · exact hdone.commit st
  | sbus =>
    rcases parseSbus_cases h with ⟨-, rfl⟩ | ⟨-, -, hc⟩
    · exact hs
    · have hdone : NotIgnored { s with parseDone := true } := hs.of_out
      rcases sbusComplete_cases hc with ⟨-, rfl⟩ | ⟨-, flags, -, ⟨-, rfl⟩ | ⟨-, data, -, rfl⟩⟩
      · exact hdone.emit (by decide)
      · exact hdone.emit (by decide)
      · exact hdone.of_out.commit _
  | spektrum =>
    rcases parseSpektrum_cases h with ⟨-, rfl⟩ | ⟨-, -, hc⟩
    · exact hs
    · obtain ⟨loss, second, st, any, -, -, -, rfl⟩ := spkComplete_cases hc
      have hdone : NotIgnored { s with parseDone := true } := hs.of_out
      have hloss : NotIgnored (spkLoss loss { s with parseDone := true }) := by
        unfold spkLoss
        split
        · exact hdone.of_out.emit (by decide)
        · exact hdone.of_out
      cases any
      · exact hloss.of_out.emit (by decide)
      · exact hloss.of_out.commit st

/-- A byte in a serial mode does not emit IGNORED (R120). -/
theorem rxByte_notIgnored {p : SerialProto} {b : Byte} {t : Tick} {s u : State} (hs : NotIgnored s)
    (h : rxByte p b t s = some u) : NotIgnored u := by
  have hgap : NotIgnored (frameGap p t s) := by
    unfold frameGap
    split
    · exact hs.of_out.emit (by decide)
    · exact hs.of_out
  have happend : NotIgnored (appendByte b (frameGap p t s)) := by
    unfold appendByte
    split
    · exact hgap.of_out
    · exact hgap.emit (by decide)
  obtain ⟨parsed, hparse, rfl⟩ := rxByte_eq_some_iff.mp h
  exact (parse_notIgnored happend hparse).of_out

/-- A CPPM edge in CPPM mode does not emit IGNORED (R105). -/
theorem cppmEdge_notIgnored {t : Tick} {s : State} (hs : NotIgnored s) : NotIgnored (cppmEdge t s) := by
  have hslot : NotIgnored (cppmSlot (elapsed t s.cppmLast) { s with cppmLast := t }) := by
    unfold cppmSlot
    split
    · exact hs.of_out.emit (by decide)
    split
    · split
      · exact hs.of_out.emit (by decide)
      · exact hs.of_out
    · exact hs.of_out
  have hrelearn : ∀ v : State, NotIgnored v → NotIgnored (cppmRelearn v) := by
    intro v hv
    unfold cppmRelearn
    split
    · exact hv.of_out.emit (by decide)
    · exact hv
  have hcomplete : ∀ (saturated : Bool) (v : State), NotIgnored v → NotIgnored (cppmComplete saturated v) := by
    intro saturated v hv
    unfold cppmComplete
    split
    · exact hv.emit (by decide)
    split
    · exact hv.of_out.emit (by decide)
    split
    · exact hv.commit _
    · exact hv
  exact hcomplete _ _ (hrelearn _ (hslot.of_out))

/-- An operation that completes emits IGNORED only if its source is inactive (R80, R232). -/
theorem exec_notIgnored {i : Instr} {s u : State} (h : exec i s = .next u) (hactive : ¬SourceInactive s i) :
    NotIgnored u := by
  have hbegin : NotIgnored s.begin := .begin s
  cases i with
  | pwmRise ch t =>
    obtain ⟨-, ⟨-, rfl⟩ | ⟨hp, -⟩⟩ := execPwmRise_cases h
    · exact hbegin.of_out.emit (by decide)
    · exact absurd hp hactive
  | pwmFall ch t =>
    obtain ⟨rise, -, ⟨-, -, rfl⟩ | ⟨-, -, rfl⟩ | ⟨hp, -⟩⟩ := execPwmFall_cases h
    · exact (hbegin.of_out.emit (by decide)).commit _
    · exact hbegin.of_out.emit (by decide)
    · exact absurd hp hactive
  | cppmEdge t =>
    obtain ⟨-, rfl⟩ | ⟨hp, -⟩ := execCppmEdge_cases h
    · exact cppmEdge_notIgnored hbegin
    · exact absurd hp hactive
  | rxByte b t =>
    obtain ⟨hp, -⟩ | ⟨p, -, hrx⟩ := execRxByte_cases h
    · exact absurd (serialOf_eq_none_iff.mp hp) hactive
    · exact rxByte_notIgnored hbegin hrx
  | cfg p => obtain ⟨-, rfl⟩ | ⟨-, rfl⟩ := execCfg_cases h <;> exact hbegin.of_out.emit (by decide)
  | ordWr w c => obtain ⟨-, rfl⟩ | ⟨-, rfl⟩ := execOrdWr_cases h <;> exact hbegin.of_out.emit (by decide)
  | chRd c => obtain ⟨v, -, rfl⟩ := execChRd_cases h; exact hbegin.answer _
  | tmrRd t => cases h; exact hbegin.answer _
  | ordRd w => cases h; exact hbegin.answer _
  | frClr => cases h; exact hbegin.of_out
  | overdue => cases h; exact hbegin.of_out
  | stRd => cases h; exact hbegin.answer _

/-- Settles O53: the inactive events are ignored, and every other operation completes without IGNORED. -/
theorem inactiveEventsIgnored : Obligations.InactiveEventsIgnored := by
  intro i s hi hw
  have hinactive : SourceInactive s i → exec i s = .next { s with out := quiet [.ignored] } :=
    fun h => (exec_of_sourceInactive hi hw h).trans (ignored_eq s)
  have hactive : ¬SourceInactive s i → ∃ t o, exec i s = .next t ∧ t.out = some o ∧ .ignored ∉ o.tags := by
    intro h
    obtain ⟨t, ht⟩ := exec_completes hi hw
    obtain ⟨⟨o, ho⟩, htags⟩ := exec_notIgnored ht h
    exact ⟨t, o, ht, ho, State.record_of_out ho ▸ htags⟩
  cases i <;> exact ⟨hinactive, hactive⟩

end Sys2Proof.Machine

/-! # CONFIGURE (O55)

A disabled block takes every legal table write, so after the sixteen writes the table is the one given; the CFG at the
end then decides by its validity. -/

namespace Sys2Proof.Machine

/-- The block after a CFG that selects `q`, sets CFG_ERR to `err` and emits `g` (R203, R204). -/
def State.reselected (q : Proto) (err : Bool) (g : Tag) (s : State) : State :=
  { s with
    proto := q
    sbusFs := false
    spkDrop := false
    spkRes11 := false
    overdueReq := false
    cfgErr := err
    cppmLast := 0
    chNum := 0
    maxChan := 0
    lastByteT := 0
    byteCount := 0
    xtSum := 0
    xtPoison := false
    xtMask := 0
    xtLen := 0
    parseDone := false
    spkPrev := 0
    spkPrevValid := false
    out := quiet [g] }

/-- The step of a CFG in closed form: PROTO and CFG_ERR are written and the registers of R204 flushed. -/
theorem flush_eq_reselected (q : Proto) (err : Bool) (g : Tag) (s : State) :
    State.emit g { ({ s.begin with proto := q } : State).flush with cfgErr := err } = s.reselected q err g := by
  simp only [State.emit, State.flush, State.clearFrame, State.begin, State.reselected]
  rfl

/-- CFG that is not barred by the table selects its protocol (R203). -/
theorem exec_cfg_ok {p : Proto} {s : State} (h : p = .disabled ∨ OrderValid s.order) :
    exec (.cfg p) s = .next (s.reselected p false .cfgOk) := by
  have hok : ¬(p ≠ .disabled ∧ ¬OrderValid s.order) := fun ⟨hp, ho⟩ => h.elim hp ho
  simp only [exec, execCfg, if_neg hok, flush_eq_reselected]

/-- An enabling CFG with an invalid table leaves the block disabled (R203). -/
theorem exec_cfg_bad {p : Proto} {s : State} (hp : p ≠ .disabled) (ho : ¬OrderValid s.order) :
    exec (.cfg p) s = .next (s.reselected .disabled true .cfgBad) := by
  simp only [exec, execCfg, if_pos (And.intro hp ho), flush_eq_reselected]

/-- What an enabling CFG selects and reports depends on the table alone (R203). -/
theorem exec_cfg_of_enabling {p : Proto} (hp : p ≠ .disabled) (s : State) :
    ∃ q err g, exec (.cfg p) s = .next (s.reselected q err g) ∧
      (OrderValid s.order → q = p ∧ err = false ∧ g = .cfgOk) ∧
      (¬OrderValid s.order → q = .disabled ∧ err = true ∧ g = .cfgBad) := by
  by_cases hv : OrderValid s.order
  · exact ⟨_, _, _, exec_cfg_ok (.inr hv), fun _ => ⟨rfl, rfl, rfl⟩, absurd hv⟩
  · exact ⟨_, _, _, exec_cfg_bad hp hv, fun h => absurd h hv, fun _ => ⟨rfl, rfl, rfl⟩⟩

/-- A disabled block takes a legal table write (R205). -/
theorem exec_ordWr_ok {w : Nibble} {c : Byte} {s : State} (hp : s.proto = .disabled)
    (hc : orderValueLegal s.par c = true) :
    exec (.ordWr w c) s = .next { s with order := setOrderAt s.order w c, out := quiet [.ordOk] } := by
  have hok : ¬(s.proto ≠ .disabled ∨ orderValueLegal s.par c = false) := by simp [hp, hc]
  simp only [exec, execOrdWr, if_neg hok]
  rfl

/-- Writes of legal entries of a table into a disabled block change those entries of ORDER, and nothing else (R205). -/
theorem execAll_ordWr {o : Vector Byte 16} {s : State} (hp : s.proto = .disabled)
    (ho : ∀ w : Fin 16, orderValueLegal s.par o[w] = true) (ws : List (Fin 16)) :
    ∃ order out, execAll (ws.map fun w => .ordWr (BitVec.ofFin w) o[w]) s =
        .next { s with order := order, out := out } ∧
      ∀ w : Fin 16, order[w] = if w ∈ ws then o[w] else s.order[w] := by
  induction ws generalizing s with
  | nil => exact ⟨s.order, s.out, rfl, fun w => by simp⟩
  | cons v ws ih =>
    obtain ⟨order, out, hrun, horder⟩ :=
      ih (s := { s with order := setOrderAt s.order (BitVec.ofFin v) o[v], out := quiet [.ordOk] }) hp ho
    refine ⟨order, out, ?_, fun w => ?_⟩
    · exact execAll_cons_next_iff.mpr ⟨_, exec_ordWr_ok hp (ho v), hrun⟩
    · rw [horder]
      by_cases hv : w = v
      · subst hv
        simp [setOrderAt]
      · have hne : v.val ≠ w.val := fun e => hv (Fin.ext e.symm)
        simp [setOrderAt, hv, hne]

/-- The sixteen table writes of CONFIGURE install a legal table in a disabled block (R83, R205). -/
theorem execAll_orderWrites {o : Vector Byte 16} {s : State} (hp : s.proto = .disabled)
    (ho : ∀ w : Fin 16, orderValueLegal s.par o[w] = true) :
    ∃ out, execAll (orderWrites o) s = .next { s with order := o, out := out } := by
  obtain ⟨order, out, hrun, horder⟩ := execAll_ordWr hp ho (List.finRange 16)
  have heq : order = o := Vector.ext fun w hw => by simpa using horder ⟨w, hw⟩
  exact ⟨out, heq ▸ hrun⟩

/-- A run of one operation is that operation. -/
theorem execAll_singleton (i : Instr) (s : State) : execAll [i] s = exec i s := by
  simp only [execAll]
  cases exec i s <;> rfl

/-- The disabled block with the table `o` written that CONFIGURE has made before its last CFG. -/
def State.configured (o : Vector Byte 16) (out : Option Output) (s : State) : State :=
  { s.reselected .disabled false .cfgOk with order := o, out := out }

/-- CONFIGURE ends as its last CFG does on the disabled block with the table written (R83). -/
theorem execAll_configure (p : Proto) {o : Vector Byte 16} {s : State}
    (ho : ∀ w : Fin 16, orderValueLegal s.par o[w] = true) :
    ∃ out, execAll (configure p o) s = exec (.cfg p) (s.configured o out) := by
  have hdisable : exec (.cfg .disabled) s = .next (s.reselected .disabled false .cfgOk) := exec_cfg_ok (.inl rfl)
  obtain ⟨out, hwrites⟩ := execAll_orderWrites (s := s.reselected .disabled false .cfgOk) rfl ho
  refine ⟨out, ?_⟩
  rw [configure, execAll, hdisable]
  dsimp only
  rw [execAll_append, hwrites]
  exact execAll_singleton _ _

/-- Settles O55: the first CFG disables the block, the writes install the table, and the last CFG tests it. -/
theorem configureInstallsTable : Obligations.ConfigureInstallsTable := by
  intro s p o hp ho
  obtain ⟨out, hrun⟩ := execAll_configure p (s := s) fun w => orderValueLegal_iff.mpr (ho w)
  obtain ⟨q, err, g, hcfg, hvalid, hinvalid⟩ := exec_cfg_of_enabling hp (s.configured o out)
  refine ⟨_, hrun.trans hcfg, rfl, rfl, rfl, rfl, rfl, rfl, rfl, rfl, rfl, rfl, rfl, rfl, rfl, ⟨rfl, rfl, rfl, rfl⟩,
    ⟨rfl, rfl, rfl, rfl⟩, ⟨rfl, rfl, rfl⟩, fun hv => ?_, fun hv => ?_⟩
  · obtain ⟨rfl, rfl, rfl⟩ := hvalid hv
    exact ⟨rfl, rfl, rfl⟩
  · obtain ⟨rfl, rfl, rfl⟩ := hinvalid hv
    exact ⟨rfl, rfl, rfl⟩

end Sys2Proof.Machine

/-! # The timer (O15, O16)

The read answers with the sample of its T field. The subtraction is stated once over the integers, and once as the
inverse of advancing the counter: the wraps cancel, so only the interval's residue is left. -/

namespace Sys2Proof.Machine

/-- TMR_RD answers its sample and writes the output record only (R92). -/
theorem exec_tmrRd (t : Tick) (s : State) : exec (.tmrRd t) s = .next { s with out := answered (.half t) } := rfl

/-- Settles O15, by what the decoder and the dispatch answer for the timer read. -/
theorem tmrRdReturnsSample : Obligations.TmrRdReturnsSample :=
  ⟨fun _ hop => decode_tmrRd hop, exec_tmrRd⟩

/-- The elapsed time is the integer difference modulo the counter's period, whichever sample is larger (R91). -/
theorem elapsed_toNat_eq_emod (a b : Tick) : ((elapsed a b).toNat : Int) = ((a.toNat : Int) - b.toNat) % 65536 := by
  have hb : b.toNat < 65536 := b.isLt
  rw [elapsed_toNat]
  omega

/-- The time elapsed while the counter advances by `d` is `d`, wherever it started (R91). -/
theorem elapsed_add_left (b d : Tick) : elapsed (b + d) b = d := by
  rw [elapsed, BitVec.add_comm, BitVec.add_sub_cancel]

/-- After `e` ticks of the counter the elapsed time is `e` up to whole periods (R91, R266). -/
theorem elapsed_after_ticks (b : Tick) (e : Nat) : (elapsed (b + BitVec.ofNat 16 e) b).toNat = e % 65536 := by
  rw [elapsed_add_left, BitVec.toNat_ofNat]

/-- Settles O16: an interval shorter than the counter's period is its own residue. -/
theorem elapsedRecoversTrueInterval : Obligations.ElapsedRecoversTrueInterval :=
  ⟨elapsed_toNat_eq_emod, fun b e =>
    ⟨elapsed_after_ticks b e, fun he => (elapsed_after_ticks b e).trans (Nat.mod_eq_of_lt he)⟩⟩

end Sys2Proof.Machine

/-! # Edge-triggered capture (O11, O17, O18, O20, O21)

A CPPM edge is said once in closed form, in the numbers that R105 speaks of: the slot count before the increment, the
slot's channel, the count after the increment and the learned count. The frame of R107 is then a fold of edges, and each
clause of the law an induction over its widths, last one first. -/

namespace Sys2Proof.Machine

/-! ## PWM -/

/-- A pin below N_PWM has its PULSE_START entry (R23). -/
theorem exists_pulseStart_of_length {s : State} (hlen : s.pulseStart.length = s.par.nPwm) {ch : Nat}
    (h : ch < s.par.nPwm) : ∃ v, s.pulseStart? ch = some v :=
  ⟨s.pulseStart[ch], pulseStart?_eq_some_iff.mpr ⟨h, List.getElem?_eq_getElem (hlen.symm ▸ h)⟩⟩

/-- The entries of PULSE_START are those of the existing pins (R23). -/
theorem pulseStart?_of_getElem? {s : State} (hlen : s.pulseStart.length = s.par.nPwm) {ch : Nat} {v : Tick}
    (h : s.pulseStart[ch]? = some v) : s.pulseStart? ch = some v :=
  pulseStart?_eq_some_iff.mpr ⟨hlen ▸ (List.getElem?_eq_some_iff.mp h).1, h⟩

section
variable {ch : Nibble} {s : State}

/-- PWM_RISE of a pin that does not exist (R78(a)). -/
theorem exec_pwmRise_noSuchPin (t : Tick) (h : s.pulseStart? ch.toNat = none) :
    exec (.pwmRise ch t) s = .refused .noSuchPin := by simp only [exec, execPwmRise, h]

/-- PWM_RISE of an existing pin (R101, R232). -/
theorem exec_pwmRise_of_pin (t : Tick) {old : Tick} (h : s.pulseStart? ch.toNat = some old) :
    exec (.pwmRise ch t) s =
      if s.proto = .pwm then .next { s with pulseStart := s.pulseStart.set ch.toNat t, out := quiet [.pwmStart] }
      else ignored s := by
  simp only [exec, execPwmRise, h]
  rfl

/-- PWM_FALL of a pin that does not exist (R78(a)). -/
theorem exec_pwmFall_noSuchPin (t : Tick) (h : s.pulseStart? ch.toNat = none) :
    exec (.pwmFall ch t) s = .refused .noSuchPin := by simp only [exec, execPwmFall, h]

/-- PWM_FALL of an existing pin (R102, R232). -/
theorem exec_pwmFall_of_pin (t : Tick) {rise : Tick} (h : s.pulseStart? ch.toNat = some rise) :
    exec (.pwmFall ch t) s =
      if s.proto = .pwm then
        .next (if ch.toNat = s.par.pwmFrameCh then
          { s with
            raw := s.raw.set ch.toNat (elapsed t rise)
            fr := true
            commitCnt := s.commitCnt + 1
            out := committed [.pwmWidth, .commit] }
        else { s with raw := s.raw.set ch.toNat (elapsed t rise), out := quiet [.pwmWidth] })
      else ignored s := by
  simp only [exec, execPwmFall, h, commit_empty_eq]
  rfl

end

/-- Settles O17, by the existence of the pin and then by PROTO. -/
theorem pwmRiseRecordsSample : Obligations.PwmRiseRecordsSample := by
  refine ⟨fun _ hop => decode_pwmRise hop, fun ch t s hlen =>
    ⟨fun hge => ?_, fun hlt hp => ?_, fun hlt hp => ?_⟩⟩
  · exact exec_pwmRise_noSuchPin t (pulseStart?_of_ge hge)
  · obtain ⟨old, hpin⟩ := exists_pulseStart_of_length hlen hlt
    rw [exec_pwmRise_of_pin t hpin, if_neg hp, ignored_eq, quiet]
  · obtain ⟨old, hpin⟩ := exists_pulseStart_of_length hlen hlt
    rw [exec_pwmRise_of_pin t hpin, if_pos hp]

/-- Settles O18, by the existence of the pin, then by PROTO, then by the designated channel. -/
theorem pwmFallStoresWidth : Obligations.PwmFallStoresWidth := by
  refine ⟨fun _ hop => decode_pwmFall hop, fun ch t s hlen => ⟨fun hge => ?_, fun hlt hp => ?_,
    fun rise hrise hp hframe => ?_, fun rise hrise hp hframe => ?_⟩⟩
  · exact exec_pwmFall_noSuchPin t (pulseStart?_of_ge hge)
  · obtain ⟨rise, hpin⟩ := exists_pulseStart_of_length hlen hlt
    rw [exec_pwmFall_of_pin t hpin, if_neg hp, ignored_eq, quiet]
  · rw [exec_pwmFall_of_pin t (pulseStart?_of_getElem? hlen hrise), if_pos hp, if_neg hframe]
  · rw [exec_pwmFall_of_pin t (pulseStart?_of_getElem? hlen hrise), if_pos hp, if_pos hframe]

/-! ## A CPPM edge in closed form -/

/-- The gaps that restart the slot count (R105, R106). -/
theorem isSyncGap_iff {par : Params} {gap : Tick} :
    isSyncGap par gap = true ↔ par.syncTicks < gap.toNat ∨ gap.toNat < par.minPulseTicks := by simp [isSyncGap]

/-- The slot count after the sync test and before the increment (R105). -/
def cppmPrior (gap : Tick) (s : State) : Nat := if isSyncGap s.par gap then 0 else s.chNum.toNat

/-- The channel whose slot the edge ends, if there is one (R108, R111(a)). -/
def cppmTarget (gap : Tick) (s : State) : Option Nat :=
  if cppmPrior gap s = 0 then none else remap s.order (cppmPrior gap s - 1)

/-- RAW after the slot part (R105). -/
def cppmStored (gap : Tick) (s : State) : List Tick :=
  match cppmTarget gap s with
  | some c => s.raw.set c gap
  | none => s.raw

/-- CH_NUM after the increment (R36). -/
def cppmCount (gap : Tick) (s : State) : Nat := min (cppmPrior gap s + 1) 255

/-- MAX_CHAN after the overdue check (R109). -/
def cppmKnown (s : State) : Nat := if s.overdueReq then 0 else s.maxChan.toNat

/-- The edge raises the learned count (R110). -/
abbrev CppmLearns (gap : Tick) (s : State) : Prop := cppmPrior gap s ≠ 255 ∧ cppmKnown s < cppmCount gap s

/-- The edge completes the frame (R111(c)). -/
abbrev CppmCompletes (gap : Tick) (s : State) : Prop :=
  cppmPrior gap s ≠ 255 ∧ cppmCount gap s = cppmKnown s ∧ 2 ≤ cppmKnown s

/-- The tags of the slot part. -/
def cppmSlotTags (gap : Tick) (s : State) : List Tag :=
  if isSyncGap s.par gap then [.cppmSync] else if (cppmTarget gap s).isSome then [.cppmSlot] else []

theorem cppmPrior_of_sync {gap : Tick} {s : State} (h : isSyncGap s.par gap = true) : cppmPrior gap s = 0 := if_pos h

theorem cppmPrior_of_valid {gap : Tick} {s : State} (h : isSyncGap s.par gap = false) :
    cppmPrior gap s = s.chNum.toNat := if_neg (Bool.eq_false_iff.mp h)

theorem cppmPrior_lt (gap : Tick) (s : State) : cppmPrior gap s < 256 := by
  unfold cppmPrior
  have := s.chNum.isLt
  split <;> omega

theorem cppmCount_lt (gap : Tick) (s : State) : cppmCount gap s < 256 := Nat.lt_succ_of_le (Nat.min_le_right _ _)

theorem cppmKnown_lt (s : State) : cppmKnown s < 256 := by
  unfold cppmKnown
  have := s.maxChan.isLt
  split <;> omega

/-- A number below 256 is what a byte register holding it reads as. -/
theorem byte_ofNat_toNat {n : Nat} (h : n < 256) : (BitVec.ofNat 8 n).toNat = n :=
  Nat.mod_eq_of_lt h

theorem byte_ofNat_eq_iff {m n : Nat} (hm : m < 256) (hn : n < 256) :
    BitVec.ofNat 8 m = BitVec.ofNat 8 n ↔ m = n := by
  rw [← BitVec.toNat_inj, byte_ofNat_toNat hm, byte_ofNat_toNat hn]

/-- The saturating increment in numbers (R36). -/
theorem satInc_cppmPrior (gap : Tick) (s : State) :
    satInc (BitVec.ofNat 8 (cppmPrior gap s)) = BitVec.ofNat 8 (cppmCount gap s) := by
  apply BitVec.eq_of_toNat_eq
  rw [satInc_toNat, byte_ofNat_toNat (cppmPrior_lt gap s),
    byte_ofNat_toNat (cppmCount_lt gap s), cppmCount]

/-- MAX_CHAN after the overdue check, as the register holds it (R109). -/
theorem ofNat_cppmKnown (s : State) : (if s.overdueReq then 0 else s.maxChan) = BitVec.ofNat 8 (cppmKnown s) := by
  unfold cppmKnown
  split
  · rfl
  · rw [BitVec.ofNat_toNat, BitVec.setWidth_eq]

/-- The slot part of a step that has stamped the edge (R105). -/
theorem cppmSlot_stamped_eq (gap t : Tick) (s : State) :
    cppmSlot gap { s.begin with cppmLast := t } =
      { s with
        cppmLast := t
        raw := cppmStored gap s
        chNum := BitVec.ofNat 8 (cppmPrior gap s)
        out := quiet (cppmSlotTags gap s) } := by
  have hzero : s.chNum = 0 ↔ s.chNum.toNat = 0 := BitVec.toNat_inj.symm
  rw [cppmSlot_eq]
  cases h : isSyncGap s.par gap with
  | true => simp [h, cppmStored, cppmTarget, cppmSlotTags, cppmPrior_of_sync h, quiet, State.record, Output.empty]
  | false =>
    simp only [cppmStored, cppmTarget, cppmSlotTags, cppmPrior_of_valid h, State.begin_par, State.begin_chNum,
      State.begin_order, State.begin_raw, h, hzero, Bool.false_eq_true, if_false, BitVec.ofNat_toNat,
      BitVec.setWidth_eq]
    cases (if s.chNum.toNat = 0 then none else remap s.order (s.chNum.toNat - 1)) <;> rfl

/-- The overdue check of a step that has not committed (R109). -/
theorem cppmRelearn_of_quiet {s : State} {tags : List Tag} (hout : s.out = quiet tags) :
    cppmRelearn s =
      { s with
        maxChan := BitVec.ofNat 8 (cppmKnown s)
        overdueReq := false
        out := quiet (tags ++ if s.overdueReq then [.cppmRelearn] else []) } := by
  have hrecord : s.record = ⟨none, tags, false⟩ := State.record_of_out hout
  rw [cppmRelearn_eq, ofNat_cppmKnown, hrecord, hout]
  cases s.overdueReq <;> simp [quiet]

/-- The last part of a step that has not committed, with `c` the slot count and `k` the learned count (R110, R111). -/
theorem cppmComplete_of_quiet {saturated : Bool} {s : State} {tags : List Tag} {c k : Nat} (hc : c < 256) (hk : k < 256)
    (hcount : s.chNum = BitVec.ofNat 8 c) (hknown : s.maxChan = BitVec.ofNat 8 k) (hout : s.out = quiet tags) :
    cppmComplete saturated s =
      let learns : Prop := saturated = false ∧ k < c
      let completes : Prop := saturated = false ∧ c = k ∧ 2 ≤ k
      { s with
        maxChan := BitVec.ofNat 8 (if learns then c else k)
        fr := s.fr || decide completes
        commitCnt := if completes then s.commitCnt + 1 else s.commitCnt
        out := some
          { ret := none
            tags := tags ++ if saturated then [.cppmSaturated] else if learns then [.cppmLearn]
              else if completes then [.commit] else []
            strobe := decide completes } } := by
  have hrecord : s.record = ⟨none, tags, false⟩ := State.record_of_out hout
  have heq : s.chNum = s.maxChan ↔ c = k := by rw [hcount, hknown, byte_ofNat_eq_iff hc hk]
  have hcn : s.chNum.toNat = c := by rw [hcount, byte_ofNat_toNat hc]
  have hkn : s.maxChan.toNat = k := by rw [hknown, byte_ofNat_toNat hk]
  rw [cppmComplete_eq, hrecord]
  simp only [heq, hcn, hkn]
  cases saturated with
  | true => simp [hknown]
  | false =>
    rcases Nat.lt_trichotomy k c with h | h | h
    · simp [h, Nat.ne_of_gt h, hcount]
    · subst h
      by_cases h2 : 2 ≤ k <;> simp [h2, hout, hknown, quiet]
    · simp [Nat.lt_asymm h, Nat.ne_of_lt h, hout, hknown, quiet]

/-- A CPPM edge in CPPM mode, in closed form (R105). -/
theorem cppmEdge_begin_eq {t gap : Tick} {s : State} (hgap : elapsed t s.cppmLast = gap) :
    cppmEdge t s.begin =
      { s with
        cppmLast := t
        raw := cppmStored gap s
        chNum := BitVec.ofNat 8 (cppmCount gap s)
        overdueReq := false
        maxChan := BitVec.ofNat 8 (if CppmLearns gap s then cppmCount gap s else cppmKnown s)
        fr := s.fr || decide (CppmCompletes gap s)
        commitCnt := if CppmCompletes gap s then s.commitCnt + 1 else s.commitCnt
        out := some
          { ret := none
            tags := cppmSlotTags gap s ++ (if s.overdueReq then [.cppmRelearn] else []) ++
              (if cppmPrior gap s = 255 then [.cppmSaturated] else if CppmLearns gap s then [.cppmLearn]
                else if CppmCompletes gap s then [.commit] else [])
            strobe := decide (CppmCompletes gap s) } } := by
  have hsat : (BitVec.ofNat 8 (cppmPrior gap s) = 255) = (cppmPrior gap s = 255) :=
    propext (byte_ofNat_eq_iff (cppmPrior_lt gap s) (by decide : 255 < 256))
  simp only [cppmEdge, State.begin_cppmLast, hgap, cppmSlot_stamped_eq, satInc_cppmPrior]
  rw [cppmRelearn_of_quiet rfl, cppmComplete_of_quiet (cppmCount_lt gap s) (cppmKnown_lt s) rfl rfl rfl]
  simp only [hsat, decide_eq_false_iff_not, decide_eq_true_eq]

/-- CPPM_EDGE in CPPM mode (R105). -/
theorem exec_cppmEdge {s : State} (hp : s.proto = .cppm) (t : Tick) :
    exec (.cppmEdge t) s = .next (cppmEdge t s.begin) := if_pos hp

/-- Settles O20, by the closed form of the edge. -/
theorem cppmEdgeFollowsRule : Obligations.CppmEdgeFollowsRule := by
  refine ⟨fun _ hop => decode_cppmEdge hop, fun t s hp => ?_, fun t s hp => ?_⟩
  · exact if_neg hp
  · intro gap sync n slot count known learns completes
    rw [exec_cppmEdge hp, cppmEdge_begin_eq rfl]
    simp only [cppmSlotTags, cppmStored, CppmLearns, CppmCompletes, cppmCount, cppmKnown, cppmTarget,
      cppmPrior, isSyncGap_iff]
    rfl
/-! ## The registers after an edge -/

section
variable {t gap : Tick} {s : State}

theorem cppmEdge_begin_cppmLast (t : Tick) (s : State) : (cppmEdge t s.begin).cppmLast = t := by
  rw [cppmEdge_begin_eq rfl]

theorem cppmEdge_begin_raw (hgap : elapsed t s.cppmLast = gap) : (cppmEdge t s.begin).raw = cppmStored gap s := by
  rw [cppmEdge_begin_eq hgap]

theorem cppmEdge_begin_chNum_toNat (hgap : elapsed t s.cppmLast = gap) :
    (cppmEdge t s.begin).chNum.toNat = cppmCount gap s := by
  rw [cppmEdge_begin_eq hgap]
  exact byte_ofNat_toNat (cppmCount_lt gap s)

theorem cppmEdge_begin_maxChan_toNat (hgap : elapsed t s.cppmLast = gap) :
    (cppmEdge t s.begin).maxChan.toNat = if CppmLearns gap s then cppmCount gap s else cppmKnown s := by
  rw [cppmEdge_begin_eq hgap]
  refine byte_ofNat_toNat ?_
  split
  · exact cppmCount_lt gap s
  · exact cppmKnown_lt s

theorem cppmEdge_begin_commitCnt (hgap : elapsed t s.cppmLast = gap) :
    (cppmEdge t s.begin).commitCnt = if CppmCompletes gap s then s.commitCnt + 1 else s.commitCnt := by
  rw [cppmEdge_begin_eq hgap]

theorem cppmEdge_begin_fr (hgap : elapsed t s.cppmLast = gap) :
    (cppmEdge t s.begin).fr = if CppmCompletes gap s then true else s.fr := by
  rw [cppmEdge_begin_eq hgap]
  split
  next h => exact Bool.or_eq_true_iff.mpr (.inr (decide_eq_true h))
  next h => exact (congrArg (s.fr || ·) (decide_eq_false h)).trans (Bool.or_false s.fr)

end

/-- After an edge CH_NUM is within the learned count, or saturated, whatever it was before: an edge that is not
saturated either learns the new count or does not exceed the learned one (R110, R111(b)). -/
theorem cppmEdge_begin_chNum_le (t : Tick) (s : State) :
    (cppmEdge t s.begin).chNum.toNat ≤ (cppmEdge t s.begin).maxChan.toNat ∨ (cppmEdge t s.begin).chNum = 255 := by
  by_cases hsat : cppmPrior (elapsed t s.cppmLast) s = 255
  · refine .inr (BitVec.eq_of_toNat_eq ?_)
    rw [cppmEdge_begin_chNum_toNat rfl, cppmCount, hsat]
    rfl
  · refine .inl ?_
    rw [cppmEdge_begin_chNum_toNat rfl, cppmEdge_begin_maxChan_toNat rfl]
    split
    next => exact Nat.le_refl _
    next hlearns => exact Nat.le_of_not_lt fun hlt => hlearns ⟨hsat, hlt⟩

/-- CFG clears CH_NUM (R204). -/
theorem exec_cfg_chNum {p : Proto} {s u : State} (h : exec (.cfg p) s = .next u) : u.chNum = 0 := by
  obtain ⟨-, rfl⟩ | ⟨-, rfl⟩ := execCfg_cases h <;> rfl

/-- Settles O11: only CFG and a CPPM edge write the two counts, CFG clears the first, and an edge restores the bound. -/
theorem slotCountWithinLearnedCount : Obligations.SlotCountWithinLearnedCount := by
  intro s u h hstep
  obtain ⟨-, rfl⟩ | ⟨w, rest, i, -, -, hexec⟩ := step_cases hstep
  · exact h
  have hw := registerWriters i _ u hexec
  by_cases hkept : u.chNum = s.chNum ∧ u.maxChan = s.maxChan
  · rw [hkept.1, hkept.2]
    exact h
  have hwriter : IsCfg i ∨ IsCppmEdge { s with input := rest } i :=
    (not_and_or.mp hkept).elim hw.chNum hw.maxChan
  obtain ⟨p, rfl⟩ | ⟨hp, t, rfl⟩ := hwriter
  · rw [exec_cfg_chNum hexec]
    exact .inl (Nat.zero_le _)
  · rw [exec_cppmEdge hp] at hexec
    cases hexec
    exact cppmEdge_begin_chNum_le t _

/-! ## A frame of widths -/

/-- The state after the edge that ends a slot of width `w`. -/
def State.cppmPulse (s : State) (w : Tick) : State := cppmEdge (s.cppmLast + w) s.begin

/-- The state after the edge at `t0` and the slots of the widths `ws`. -/
def State.cppmFrame (t0 : Tick) (ws : List Tick) (s : State) : State := ws.foldl State.cppmPulse (cppmEdge t0 s.begin)

theorem State.cppmFrame_nil (t0 : Tick) (s : State) : s.cppmFrame t0 [] = cppmEdge t0 s.begin := rfl

theorem State.cppmFrame_concat (t0 : Tick) (ws : List Tick) (w : Tick) (s : State) :
    s.cppmFrame t0 (ws ++ [w]) = (s.cppmFrame t0 ws).cppmPulse w := List.foldl_concat ..

/-- In CPPM mode the frame's state is what the train of R83 leads to. -/
theorem execAll_cppmTrain {s : State} (hp : s.proto = .cppm) (t0 : Tick) (ws : List Tick) :
    execAll (cppmTrain t0 ws) s = .next (s.cppmFrame t0 ws) := by
  induction ws generalizing t0 s with
  | nil => exact execAll_cons_next_iff.mpr ⟨_, exec_cppmEdge hp t0, rfl⟩
  | cons w ws ih =>
    have hp' : (cppmEdge t0 s.begin).proto = .cppm := (cppmEdge_configKept t0 s.begin).proto.trans hp
    refine execAll_cons_next_iff.mpr ⟨_, exec_cppmEdge hp t0, (ih hp' (t0 + w)).trans ?_⟩
    rw [State.cppmFrame, State.cppmFrame, List.foldl_cons, State.cppmPulse, cppmEdge_begin_cppmLast]

/-- The first edges of a train are the train of the first widths (R83). -/
theorem cppmTrain_take (t0 : Tick) (ws : List Tick) (m : Nat) :
    (cppmTrain t0 ws).take (m + 1) = cppmTrain t0 (ws.take m) := by
  induction ws generalizing t0 m with
  | nil => rw [List.take_nil, cppmTrain, List.take_succ_cons, List.take_nil]
  | cons w ws ih =>
    cases m with
    | zero => rw [cppmTrain, List.take_succ_cons, List.take_zero, List.take_zero, cppmTrain]
    | succ m => rw [cppmTrain, List.take_succ_cons, ih, List.take_succ_cons, cppmTrain]

theorem State.cppmPulse_gap (s : State) (w : Tick) : elapsed (s.cppmLast + w) s.cppmLast = w := elapsed_add_left _ _

/-- A frame keeps the parameters, the sizes, PROTO and ORDER. -/
theorem State.cppmFrame_configKept (t0 : Tick) (ws : List Tick) (s : State) : ConfigKept s (s.cppmFrame t0 ws) := by
  induction ws using List.reverseRecOn with
  | nil =>
    have hk := cppmEdge_configKept t0 s.begin
    exact ⟨hk.par, hk.rawLength, hk.pulseLength, hk.proto, hk.order⟩
  | append_singleton ws w ih =>
    rw [State.cppmFrame_concat]
    have hk := cppmEdge_configKept ((s.cppmFrame t0 ws).cppmLast + w) (s.cppmFrame t0 ws).begin
    exact ⟨hk.par.trans ih.par, hk.rawLength.trans ih.rawLength, hk.pulseLength.trans ih.pulseLength,
      hk.proto.trans ih.proto, hk.order.trans ih.order⟩

/-- A frame leaves no overdue report pending (R109). -/
theorem State.cppmFrame_overdueReq (t0 : Tick) (ws : List Tick) (s : State) :
    (s.cppmFrame t0 ws).overdueReq = false := by
  cases ws using List.reverseRecOn with
  | nil => exact cppmEdge_overdueReq t0 s.begin
  | append_singleton ws w =>
    rw [State.cppmFrame_concat]
    exact cppmEdge_overdueReq _ _

/-- Within a frame the known count is the register's. -/
theorem State.cppmFrame_known (t0 : Tick) (ws : List Tick) (s : State) :
    cppmKnown (s.cppmFrame t0 ws) = (s.cppmFrame t0 ws).maxChan.toNat := by
  rw [cppmKnown, State.cppmFrame_overdueReq]
  rfl

/-! ## What an edge learns, completes and stores -/

section
variable {t gap : Tick} {s : State}

/-- An edge that finds the learned count equal to the slot count raises both together and commits nothing (R110). -/
theorem cppmEdge_begin_learning (hgap : elapsed t s.cppmLast = gap) (h : cppmKnown s = cppmPrior gap s) :
    (cppmEdge t s.begin).maxChan.toNat = cppmCount gap s ∧ (cppmEdge t s.begin).commitCnt = s.commitCnt ∧
      (cppmEdge t s.begin).fr = s.fr := by
  have hcount : cppmCount gap s = min (cppmPrior gap s + 1) 255 := rfl
  have hlt := cppmPrior_lt gap s
  have hopen : ¬CppmCompletes gap s := fun ⟨hsat, heq, _⟩ => by omega
  rw [cppmEdge_begin_maxChan_toNat hgap, cppmEdge_begin_commitCnt hgap, cppmEdge_begin_fr hgap, if_neg hopen,
    if_neg hopen]
  refine ⟨?_, rfl, rfl⟩
  split
  next => rfl
  next hsat =>
    simp only [not_and_or] at hsat
    omega

/-- An edge within the learned count keeps it, and commits exactly if it reaches it (R111(c)). -/
theorem cppmEdge_begin_learned (hgap : elapsed t s.cppmLast = gap) (hsat : cppmPrior gap s ≠ 255)
    (hle : cppmCount gap s ≤ cppmKnown s) (htwo : 2 ≤ cppmKnown s) :
    (cppmEdge t s.begin).maxChan.toNat = cppmKnown s ∧
      (cppmEdge t s.begin).commitCnt = (if cppmCount gap s = cppmKnown s then s.commitCnt + 1 else s.commitCnt) ∧
      (cppmEdge t s.begin).fr = (if cppmCount gap s = cppmKnown s then true else s.fr) := by
  have hlearns : ¬CppmLearns gap s := fun h => Nat.not_lt.mpr hle h.2
  have hcompletes : CppmCompletes gap s ↔ cppmCount gap s = cppmKnown s :=
    ⟨fun ⟨_, h, _⟩ => h, fun h => ⟨hsat, h, htwo⟩⟩
  rw [cppmEdge_begin_maxChan_toNat hgap, cppmEdge_begin_commitCnt hgap, cppmEdge_begin_fr hgap, if_neg hlearns]
  simp only [hcompletes, and_self]

/-- An edge stores its slot's width in the slot's channel and keeps the other channels (R108). -/
theorem State.raw?_cppmPulse {w : Tick} (hlen : s.raw.length = s.par.nCh) (c : Nat) :
    (s.cppmPulse w).raw? c = if cppmTarget w s = some c ∧ c < s.par.nCh then some w else s.raw? c := by
  have hpar : (s.cppmPulse w).par = s.par := (cppmEdge_configKept _ _).par
  have hraw : (s.cppmPulse w).raw = cppmStored w s := cppmEdge_begin_raw (s.cppmPulse_gap w)
  rw [State.raw?, State.raw?, hpar, hraw, cppmStored]
  cases cppmTarget w s with
  | none => simp
  | some d =>
    simp only [Option.some.injEq, List.getElem?_set, hlen]
    by_cases hd : d = c <;> by_cases hc : c < s.par.nCh <;> simp [hd, hc]

end

/-- A wire index is mapped to an existing channel (R25). -/
theorem remap_lt_nCh {s : State} (hi : Inv s) {w c : Nat} (h : remap s.order w = some c) : c < s.par.nCh := by
  obtain ⟨hw, hne, rfl⟩ := remap_eq_some_iff.mp h
  exact (hi.orderLegal ⟨w, hw⟩).resolve_left hne

/-! ## The learning law -/

/-- The edge at `t0` ends a sync gap or a glitch, and the widths `ws` are valid (R106). -/
structure IsCppmFrame (s : State) (t0 : Tick) (ws : List Tick) : Prop where
  sync : isSyncGap s.par (elapsed t0 s.cppmLast) = true
  valid : ∀ w ∈ ws, isSyncGap s.par w = false

namespace IsCppmFrame
variable {s : State} {t0 w : Tick} {ws : List Tick}

theorem take (h : IsCppmFrame s t0 ws) (m : Nat) : IsCppmFrame s t0 (ws.take m) :=
  ⟨h.sync, fun v hv => h.valid v (List.mem_of_mem_take hv)⟩

theorem dropLast (h : IsCppmFrame s t0 (ws ++ [w])) : IsCppmFrame s t0 ws :=
  ⟨h.sync, fun v hv => h.valid v (List.mem_append_left _ hv)⟩

/-- The last width's edge finds the count that the edges before it left. -/
theorem prior_eq_chNum (h : IsCppmFrame s t0 (ws ++ [w])) :
    cppmPrior w (s.cppmFrame t0 ws) = (s.cppmFrame t0 ws).chNum.toNat := by
  apply cppmPrior_of_valid
  rw [(s.cppmFrame_configKept t0 ws).par]
  exact h.valid w List.mem_concat_self

/-- Each edge counts one slot, up to saturation (R105, R111(b)). -/
theorem chNum (h : IsCppmFrame s t0 ws) : (s.cppmFrame t0 ws).chNum.toNat = min (ws.length + 1) 255 := by
  induction ws using List.reverseRecOn with
  | nil =>
    rw [State.cppmFrame_nil, cppmEdge_begin_chNum_toNat rfl, cppmCount, cppmPrior_of_sync h.sync]
    rfl
  | append_singleton ws w ih =>
    rw [State.cppmFrame_concat, State.cppmPulse, cppmEdge_begin_chNum_toNat (State.cppmPulse_gap _ _), cppmCount,
      h.prior_eq_chNum, ih h.dropLast, List.length_append, List.length_singleton]
    omega

theorem prior (h : IsCppmFrame s t0 (ws ++ [w])) : cppmPrior w (s.cppmFrame t0 ws) = min (ws.length + 1) 255 :=
  h.prior_eq_chNum.trans h.dropLast.chNum

theorem count (h : IsCppmFrame s t0 (ws ++ [w])) :
    cppmCount w (s.cppmFrame t0 ws) = min ((ws ++ [w]).length + 1) 255 := by
  rw [cppmCount, h.prior, List.length_append, List.length_singleton]
  omega

/-- The last width is that of slot `ws.length`; where CH_NUM has saturated, neither index is mapped (R108, R111(b)). -/
theorem target (h : IsCppmFrame s t0 (ws ++ [w])) : cppmTarget w (s.cppmFrame t0 ws) = remap s.order ws.length := by
  rw [cppmTarget, h.prior, (s.cppmFrame_configKept t0 ws).order, if_neg (by omega)]
  rcases Nat.lt_or_ge ws.length 16 with hlt | hge
  · rw [show min (ws.length + 1) 255 - 1 = ws.length by omega]
  · rw [remap_none_of_ge hge, remap_none_of_ge (by omega)]

/-- The last width goes to the channel of its slot, and every other channel stays. -/
theorem raw?_concat (h : IsCppmFrame s t0 (ws ++ [w])) (hi : Inv s) (c : Nat) :
    (s.cppmFrame t0 (ws ++ [w])).raw? c =
      if remap s.order ws.length = some c then some w else (s.cppmFrame t0 ws).raw? c := by
  have hk := s.cppmFrame_configKept t0 ws
  have hlen : (s.cppmFrame t0 ws).raw.length = (s.cppmFrame t0 ws).par.nCh := by
    rw [hk.rawLength, hk.par, hi.rawLength]
  rw [State.cppmFrame_concat, State.raw?_cppmPulse hlen, h.target, hk.par]
  simp only [and_iff_left_of_imp (remap_lt_nCh hi)]

/-- A mapped slot of the frame holds its width: no later slot has its channel (R26, R108). -/
theorem raw?_mapped (h : IsCppmFrame s t0 ws) (hi : Inv s) (hv : OrderValid s.order) {i c : Nat} {v : Tick}
    (hc : remap s.order i = some c) (hw : ws[i]? = some v) : (s.cppmFrame t0 ws).raw? c = some v := by
  induction ws using List.reverseRecOn with
  | nil => cases hw
  | append_singleton ws w ih =>
    rw [h.raw?_concat hi]
    split
    next hlast =>
      rw [remap_inj hv hc hlast, List.getElem?_concat_length] at hw
      exact hw
    next hlast =>
      have hne : i ≠ ws.length := fun e => hlast (e ▸ hc)
      have hlt : i < ws.length := by
        have := (List.getElem?_eq_some_iff.mp hw).1
        rw [List.length_append, List.length_singleton] at this
        omega
      exact ih h.dropLast ((List.getElem?_append_left hlt).symm.trans hw)

/-- A channel that no slot of the frame is mapped to is untouched. -/
theorem raw?_other (h : IsCppmFrame s t0 ws) (hi : Inv s) {c : Nat}
    (hc : ∀ i < ws.length, remap s.order i ≠ some c) :
    (s.cppmFrame t0 ws).raw? c = s.raw? c := by
  induction ws using List.reverseRecOn with
  | nil =>
    have hraw : (cppmEdge t0 s.begin).raw = s.raw := by
      rw [cppmEdge_begin_raw rfl, cppmStored, cppmTarget, cppmPrior_of_sync h.sync]
      rfl
    rw [State.cppmFrame_nil, State.raw?, (cppmEdge_configKept t0 s.begin).par, hraw]
    rfl
  | append_singleton ws w ih =>
    rw [List.length_append, List.length_singleton] at hc
    rw [h.raw?_concat hi, if_neg (hc _ (Nat.lt_succ_self _))]
    exact ih h.dropLast fun i hlt => hc i (Nat.lt_succ_of_lt hlt)

/-- From an unknown count the frame's own count is learned edge by edge, and nothing is committed (R107, R110). -/
theorem learning (h : IsCppmFrame s t0 ws) (hunknown : cppmKnown s = 0) :
    (s.cppmFrame t0 ws).maxChan.toNat = min (ws.length + 1) 255 ∧ (s.cppmFrame t0 ws).commitCnt = s.commitCnt ∧
      (s.cppmFrame t0 ws).fr = s.fr := by
  induction ws using List.reverseRecOn with
  | nil =>
    have hprior := cppmPrior_of_sync h.sync
    have hedge := cppmEdge_begin_learning rfl (hunknown.trans hprior.symm)
    rw [cppmCount, hprior] at hedge
    exact hedge
  | append_singleton ws w ih =>
    obtain ⟨hmax, hcnt, hfr⟩ := ih h.dropLast
    have hequal : cppmKnown (s.cppmFrame t0 ws) = cppmPrior w (s.cppmFrame t0 ws) := by
      rw [State.cppmFrame_known, hmax, h.prior]
    have hedge := cppmEdge_begin_learning (State.cppmPulse_gap _ w) hequal
    rw [h.count, hcnt, hfr] at hedge
    rw [State.cppmFrame_concat]
    exact hedge

/-- With the count `k + 1` learned a frame of at most `k` widths keeps it, and commits at the edge of width `k` only
(R107, R111(c)). -/
theorem learned (h : IsCppmFrame s t0 ws) {k : Nat} (hknown : cppmKnown s = k + 1) (hk : 1 ≤ k)
    (hlen : ws.length ≤ k) :
    (s.cppmFrame t0 ws).maxChan.toNat = k + 1 ∧
      (s.cppmFrame t0 ws).commitCnt = (if ws.length = k then s.commitCnt + 1 else s.commitCnt) ∧
      (s.cppmFrame t0 ws).fr = (if ws.length = k then true else s.fr) := by
  have hbound := cppmKnown_lt s
  induction ws using List.reverseRecOn with
  | nil =>
    have hprior := cppmPrior_of_sync h.sync
    have hcount : cppmCount (elapsed t0 s.cppmLast) s = 1 := by rw [cppmCount, hprior]; rfl
    have hbelow : cppmCount (elapsed t0 s.cppmLast) s ≠ cppmKnown s := by omega
    have hopen : ([] : List Tick).length ≠ k := Nat.ne_of_lt hk
    have hedge := cppmEdge_begin_learned (t := t0) (s := s) rfl (by omega) (by omega) (by omega)
    rw [if_neg hbelow, if_neg hbelow, hknown] at hedge
    rw [if_neg hopen, if_neg hopen]
    exact hedge
  | append_singleton ws w ih =>
    rw [List.length_append, List.length_singleton] at hlen ⊢
    obtain ⟨hmax, hcnt, hfr⟩ := ih h.dropLast (by omega)
    have hprior := h.prior
    have hcount : cppmCount w (s.cppmFrame t0 ws) = ws.length + 1 + 1 := by rw [cppmCount, hprior]; omega
    have hknown' : cppmKnown (s.cppmFrame t0 ws) = k + 1 := (s.cppmFrame_known t0 ws).trans hmax
    have hedge := cppmEdge_begin_learned (State.cppmPulse_gap _ w) (by omega) (by omega)
      (by omega : 2 ≤ cppmKnown (s.cppmFrame t0 ws))
    have hbefore : ws.length ≠ k := by omega
    rw [hcount, hknown', hcnt, hfr, if_neg hbefore, if_neg hbefore] at hedge
    simp only [Nat.add_right_cancel_iff] at hedge
    rw [State.cppmFrame_concat]
    exact hedge

end IsCppmFrame

/-- Settles O21: the first edges of the train are a frame of the first widths, and each clause is that frame's. -/
theorem cppmLearningLaw : Obligations.CppmLearningLaw := by
  intro s t0 ws hi hp hsync hone hws m hm
  have hframe : IsCppmFrame s t0 ws := ⟨isSyncGap_iff.mpr hsync, fun w hw => by
    obtain ⟨hmax, hmin⟩ := hws w hw
    exact Bool.eq_false_iff.mpr fun h => (isSyncGap_iff.mp h).elim (Nat.not_lt.mpr hmax) (Nat.not_lt.mpr hmin)⟩
  have hprefix := hframe.take m
  have hlen : (ws.take m).length = m := List.length_take_of_le hm
  have hvalid : OrderValid s.order := hi.enabledOrderValid (by rw [hp]; decide)
  refine ⟨s.cppmFrame t0 (ws.take m), ?_, ?_, State.cppmFrame_overdueReq _ _ _, fun i c w hlt hc hw => ?_,
    fun c hc => ?_, fun hunknown => ?_, fun hreq hlearned => ?_⟩
  · rw [cppmTrain_take, execAll_cppmTrain hp]
  · rw [hprefix.chNum, hlen]
  · exact hprefix.raw?_mapped hi hvalid hc ((List.getElem?_take_of_lt hlt).trans hw)
  · exact hprefix.raw?_other hi (by rwa [hlen])
  · have hzero : cppmKnown s = 0 := by
      obtain h | h := hunknown <;> simp [cppmKnown, h]
    have h := hprefix.learning hzero
    rwa [hlen] at h
  · have hknown : cppmKnown s = ws.length + 1 := by rw [cppmKnown, hreq]; exact hlearned
    obtain ⟨hmax, hcnt, hfr⟩ := hprefix.learned hknown hone (by omega)
    rw [hlen] at hcnt hfr
    exact ⟨BitVec.eq_of_toNat_eq (hmax.trans hlearned.symm), hcnt, hfr⟩

end Sys2Proof.Machine

/-! # The serial frame assembler (O22, O23, O26, O27)

A byte step is its gap test followed by the reception of the byte: append, parser, count. What a reception keeps is said
once. A reception reads neither the sample nor the record, so it commutes with a new stamp and with tags emitted before
it: that is the frame boundary and the first interval. And it commits only by completing an open frame, a relation that
composes along a burst. -/

namespace Sys2Proof.Machine

/-! ## The reception of a byte -/

/-- What follows the gap test: the byte is appended, parsed and counted (R123–R125). -/
def receive (p : SerialProto) (b : Byte) (s : State) : Option State :=
  (parse p s.byteCount b (appendByte b s)).map fun parsed => { parsed with byteCount := satInc s.byteCount }

theorem rxByte_eq_receive (p : SerialProto) (b : Byte) (t : Tick) (s : State) :
    rxByte p b t s = receive p b (frameGap p t s) := by
  simp only [rxByte, receive, Option.map_eq_bind]
  rfl

theorem receive_eq_some_iff {p : SerialProto} {b : Byte} {s u : State} :
    receive p b s = some u ↔ ∃ parsed, parse p s.byteCount b (appendByte b s) = some parsed ∧
      u = { parsed with byteCount := satInc s.byteCount } := by
  simp only [receive, Option.map_eq_some_iff, @eq_comm _ u]

/-- RX_BYTE in a serial mode receives the byte in the state its gap test leaves (R120). -/
theorem execRxByte_next_iff_receive {p : SerialProto} {b : Byte} {t : Tick} {s u : State}
    (hp : serialOf s.proto = some p) :
    exec (.rxByte b t) s = .next u ↔ receive p b (frameGap p t s.begin) = some u := by
  rw [execRxByte_next_iff hp, rxByte_eq_receive]

/-- A byte is received whatever it is (R54). -/
theorem exists_receive (p : SerialProto) (b : Byte) {s : State} (h : 37 ≤ s.par.bufCap) :
    ∃ u, receive p b s = some u := by
  have hcap : 37 ≤ (appendByte b s).par.bufCap := by simpa only [appendByte_eq] using h
  obtain ⟨parsed, hparsed⟩ := Option.isSome_iff_exists.mp (parse_isSome p s.byteCount b hcap)
  exact ⟨_, receive_eq_some_iff.mpr ⟨parsed, hparsed, rfl⟩⟩

/-- A reception appends and counts, and otherwise writes what a parser may (R123, R125, R140). -/
theorem receive_keeps {p : SerialProto} {b : Byte} {s u : State} (h : receive p b s = some u) :
    ParserKeeps { appendByte b s with byteCount := satInc s.byteCount } u := by
  obtain ⟨parsed, hparse, rfl⟩ := receive_eq_some_iff.mp h
  have hk := parse_keeps hparse
  exact { hk with byteCount := rfl }

/-- The entries of BUF but the one at BYTE_COUNT, and all of them with no capacity left, are as before the append
(R123). -/
theorem bufRead_appendByte_other {b : Byte} {s : State} {a : Nat} (hwf : s.buf.wf = true)
    (ha : a ≠ s.byteCount.toNat ∨ s.par.bufCap ≤ s.byteCount.toNat) : (appendByte b s).bufRead a = s.bufRead a := by
  rcases lt_or_ge s.byteCount.toNat s.par.bufCap with hcap | hfull
  · rw [appendByte_fits hcap, State.bufRead_bufWrite_other b hwf (ha.resolve_right (Nat.not_le.mpr hcap))]
  · rw [appendByte_full hfull]
    rfl

/-- The entry at BYTE_COUNT is the byte appended, with capacity left (R123). -/
theorem bufRead_appendByte_same {b : Byte} {s : State} (hwf : s.buf.wf = true)
    (hcap : s.byteCount.toNat < s.par.bufCap) : (appendByte b s).bufRead s.byteCount.toNat = some b := by
  rw [bufRead_appendByte hwf le_rfl, if_neg (lt_irrefl _), if_pos hcap]

/-- A reception leaves BUF as its append does (R140). -/
theorem receive_bufRead {p : SerialProto} {b : Byte} {s u : State} (h : receive p b s = some u) (a : Nat) :
    u.bufRead a = (appendByte b s).bufRead a :=
  State.bufRead_congr (receive_keeps h).par (receive_keeps h).buf a

/-- The index at which a byte is appended: 0 at a frame boundary, BYTE_COUNT otherwise (R122, R123). -/
theorem frameGap_byteCount_toNat (p : SerialProto) (t : Tick) (s : State) :
    (frameGap p t s).byteCount.toNat =
      if silenceTicks s.par p < (elapsed t s.lastByteT).toNat then 0 else s.byteCount.toNat := by
  simp only [frameGap_eq, apply_ite BitVec.toNat]
  rfl

/-- Settles O22: the gap test fixes the index, and the reception appends there and counts. -/
theorem rxByteStampsAppendsCounts : Obligations.RxByteStampsAppendsCounts := by
  refine ⟨fun w hop => decode_rxByte hop, fun b t s p hi hp => ?_⟩
  have hf : Inv (frameGap p t s.begin) := frameGap_keeps_inv (hi.of_record (some Output.empty) s.input)
  obtain ⟨u, hu⟩ := exists_receive p b hf.parValid.bufCap_ge
  refine ⟨u, (execRxByte_next_iff_receive hp).mpr hu, ?_⟩
  have hpar : (frameGap p t s.begin).par = s.par := by simp only [frameGap_eq, State.begin_par]
  have hbuf (a : Nat) : (frameGap p t s.begin).bufRead a = s.bufRead a :=
    State.bufRead_congr hpar (by simp only [frameGap_eq, State.begin_buf]) a
  intro k
  have hk : (frameGap p t s.begin).byteCount.toNat = k := frameGap_byteCount_toNat p t s.begin
  clear_value k
  subst hk
  rw [← hpar]
  have hkeeps := receive_keeps hu
  refine ⟨?lastByteT, ?byteCount, ?written, ?others, hkeeps.par.trans ?par, ?kept⟩
  case byteCount => rw [hkeeps.byteCount, satInc_toNat]
  case written => exact fun hcap => (receive_bufRead hu _).trans (bufRead_appendByte_same hf.bufWf hcap)
  case others => exact fun a ha => ((receive_bufRead hu a).trans (bufRead_appendByte_other hf.bufWf ha)).trans (hbuf a)
  all_goals simp only [appendByte_eq, frameGap_eq] at hkeeps
  case lastByteT => exact hkeeps.lastByteT
  case par => simp only [appendByte_eq]
  case kept =>
    exact ⟨hkeeps.input, hkeeps.pulseStart, hkeeps.proto, hkeeps.order, hkeeps.overdueReq, hkeeps.cfgErr,
      hkeeps.cppmLast, hkeeps.chNum, hkeeps.maxChan⟩

/-! ## A reception reads neither the sample nor the record

Each part of a reception commutes with `State.restamped`: the tags it emits come after those put in front, and what it
stages comes from BUF, ORDER, the parameters and the frame's registers. -/

/-- The state with the sample `t` stored and with the tags `pre` emitted before those the step has emitted. -/
def State.restamped (t : Tick) (pre : List Tag) (s : State) : State :=
  { s with lastByteT := t, out := some { s.record with tags := pre ++ s.record.tags } }

section
variable (t : Tick) (pre : List Tag)

theorem emit_restamped (g : Tag) (s : State) : (s.restamped t pre).emit g = (s.emit g).restamped t pre := by
  simp [State.emit, State.restamped, State.record]

theorem commit_restamped (st : Stage) (s : State) : (s.restamped t pre).commit st = (s.commit st).restamped t pre := by
  simp [commit_eq, State.restamped, State.record]

theorem xtStage_restamped (s : State) (ws : List Nat) (n : Nat) (st : Stage) :
    xtStage (s.restamped t pre) ws n st = xtStage s ws n st := by
  induction ws generalizing n st with
  | nil => rfl
  | cons w ws ih =>
    simp only [xtStage, ih]
    rfl

theorem sbusStage_restamped (s : State) (data : List Byte) (js : List Nat) (st : Stage) :
    sbusStage (s.restamped t pre) data js st = sbusStage s data js st := by
  induction js generalizing st with
  | nil => rfl
  | cons j js ih => exact ih _

theorem spkStage_restamped (s : State) (res11 : Bool) (is : List Nat) (st : Stage) (any : Bool) :
    spkStage (s.restamped t pre) res11 is st any = spkStage s res11 is st any := by
  induction is generalizing st any with
  | nil => rfl
  | cons i is ih =>
    simp only [spkStage, ih]
    rfl

theorem bufReadFrom_restamped (s : State) (i n : Nat) : (s.restamped t pre).bufReadFrom i n = s.bufReadFrom i n :=
  bufReadFrom_congr fun _ _ => rfl

theorem xtComplete_restamped (b : Byte) (s : State) :
    xtComplete b (s.restamped t pre) = (xtComplete b s).map (State.restamped t pre) := by
  simp only [xtComplete, xtStage_restamped, emit_restamped, commit_restamped,
    apply_ite (Option.map (State.restamped t pre))]
  refine ite_congr rfl (fun _ => rfl) fun _ => ite_congr rfl (fun _ => rfl) fun _ =>
    ite_congr rfl (fun _ => rfl) fun _ => ?_
  cases xtStage s (List.range 16) 0 Stage.empty <;> rfl

theorem sbusComplete_restamped (b : Byte) (s : State) :
    sbusComplete b (s.restamped t pre) = (sbusComplete b s).map (State.restamped t pre) := by
  have hflags : (s.restamped t pre).bufRead 23 = s.bufRead 23 := rfl
  simp only [sbusComplete, hflags, bufReadFrom_restamped, sbusStage_restamped, emit_restamped,
    apply_ite (Option.map (State.restamped t pre))]
  refine ite_congr rfl (fun _ => ?_) fun _ => rfl
  cases s.bufRead 23 with
  | none => rfl
  | some flags =>
    simp only [Option.bind_eq_bind, Option.bind_some, apply_ite (Option.map (State.restamped t pre))]
    refine ite_congr rfl (fun _ => rfl) fun _ => ?_
    cases s.bufReadFrom 1 22 with
    | none => rfl
    | some data => exact congrArg some (commit_restamped t pre _ { s with sbusFs := flags.getLsbD 4 })

theorem spkLoss_restamped (loss : Byte) (s : State) :
    spkLoss loss (s.restamped t pre) = (spkLoss loss s).restamped t pre := by
  simp only [spkLoss, apply_ite (State.restamped t pre)]
  refine ite_congr rfl (fun _ => ?_) fun _ => rfl
  exact emit_restamped t pre _ { s with spkDrop := s.lossChanged loss, spkPrev := loss, spkPrevValid := true }

theorem spkPublish_restamped (s : State) :
    spkPublish (s.restamped t pre) = (spkPublish s).map (State.restamped t pre) := by
  simp only [spkPublish, spkStage_restamped, emit_restamped, commit_restamped, Option.map_map, Function.comp_def,
    apply_ite (State.restamped t pre)]
  rfl

theorem spkComplete_restamped (s : State) :
    spkComplete (s.restamped t pre) = (spkComplete s).map (State.restamped t pre) := by
  have hread (a : Nat) : (s.restamped t pre).bufRead a = s.bufRead a := rfl
  simp only [spkComplete_eq, hread, spkLoss_restamped]
  cases s.bufRead 0 with
  | none => rfl
  | some loss =>
    cases s.bufRead 1 with
    | none => rfl
    | some second => exact spkPublish_restamped t pre { spkLoss loss s with spkRes11 := second.getLsbD 4 }

theorem parse_restamped (p : SerialProto) (k b : Byte) (s : State) :
    parse p k b (s.restamped t pre) = (parse p k b s).map (State.restamped t pre) := by
  cases p with
  | xtreme =>
    simp only [parse, parseXtreme, apply_ite (Option.map (State.restamped t pre))]
    exact ite_congr rfl (fun _ => rfl) fun _ => ite_congr rfl (fun _ => rfl) fun _ =>
      xtComplete_restamped t pre b { xtHeader k b s with parseDone := true }
  | sbus =>
    simp only [parse, parseSbus, apply_ite (Option.map (State.restamped t pre))]
    exact ite_congr rfl (fun _ => rfl) fun _ => sbusComplete_restamped t pre b { s with parseDone := true }
  | spektrum =>
    simp only [parse, parseSpektrum, apply_ite (Option.map (State.restamped t pre))]
    exact ite_congr rfl (fun _ => rfl) fun _ => spkComplete_restamped t pre { s with parseDone := true }

theorem appendByte_restamped (b : Byte) (s : State) :
    appendByte b (s.restamped t pre) = (appendByte b s).restamped t pre := by
  simp only [appendByte, emit_restamped, apply_ite (State.restamped t pre)]
  rfl

/-- A reception commutes with a new stamp and with tags emitted before it (R121, R122). -/
theorem receive_restamped (p : SerialProto) (b : Byte) (s : State) :
    receive p b (s.restamped t pre) = (receive p b s).map (State.restamped t pre) := by
  simp only [receive, appendByte_restamped, Option.map_map]
  exact (congrArg (Option.map _) (parse_restamped t pre p s.byteCount b _)).trans (Option.map_map _ _ _)

end

/-! ## The frame boundary and the first interval (O23, O26) -/

section
variable {p : SerialProto} {t : Tick} {s : State}

theorem frameGap_begin_boundary (h : silenceTicks s.par p < (elapsed t s.lastByteT).toNat) :
    frameGap p t s.begin = s.clearFrame.begin.restamped t [.frameStart] :=
  frameGap_boundary (s := s.begin) h

theorem frameGap_begin_within (h : (elapsed t s.lastByteT).toNat ≤ silenceTicks s.par p) :
    frameGap p t s.begin = s.begin.restamped t [] :=
  frameGap_within (s := s.begin) h

/-- RX_BYTE in terms of a reception with no stamp and no tag yet. -/
theorem exec_rxByte_of_receive {b : Byte} {pre : List Tag} {f r : State} (hp : serialOf s.proto = some p)
    (hgap : frameGap p t s.begin = f.restamped t pre) (hr : receive p b f = some r) :
    exec (.rxByte b t) s = .next (r.restamped t pre) := by
  rw [execRxByte_next_iff_receive hp, hgap, receive_restamped, hr, Option.map_some]

end

/-- The registers of a frame boundary are clear already with no byte received (R122, R126). -/
theorem clearFrame_of_idle {s : State} (hcount : s.byteCount = 0) (hopen : s.parseDone = false) (hx : XtremeIdle s) :
    s.clearFrame = s := by
  obtain ⟨hsum, hpoison, hmask, hlen⟩ := hx
  cases s
  cases hcount; cases hopen; cases hsum; cases hpoison; cases hmask; cases hlen
  rfl

/-- Settles O23: both steps receive the byte in the cleared state, with different tags before it. -/
theorem frameBoundaryClearsFrameState : Obligations.FrameBoundaryClearsFrameState := by
  intro b t s p hi hp hgap
  obtain ⟨r, hr⟩ := exists_receive p b (s := s.clearFrame.begin) hi.parValid.bufCap_ge
  have hfirst : frameGap p t { s.clearFrame with lastByteT := t }.begin = s.clearFrame.begin.restamped t [] :=
    frameGap_begin_within (by simp [elapsed])
  exact ⟨_, _, _, _, exec_rxByte_of_receive hp (frameGap_begin_boundary hgap) hr,
    exec_rxByte_of_receive (s := { s.clearFrame with lastByteT := t }) hp hfirst hr, rfl, rfl, rfl, rfl, rfl, rfl⟩

/-- With no byte received the gap test can only emit FRAME_START, whatever the sample (R126). -/
theorem frameGap_begin_of_idle (p : SerialProto) (t : Tick) {s : State} (hcount : s.byteCount = 0)
    (hopen : s.parseDone = false) (hx : XtremeIdle s) : ∃ pre, frameGap p t s.begin = s.begin.restamped t pre := by
  rcases le_or_gt (elapsed t s.lastByteT).toNat (silenceTicks s.par p) with h | h
  · exact ⟨_, frameGap_begin_within h⟩
  · exact ⟨_, by rw [frameGap_begin_boundary h, clearFrame_of_idle hcount hopen hx]⟩

/-- With no slot counted an edge ends no slot, whatever its gap (R111(a)). -/
theorem cppmPrior_of_chNum_zero (gap : Tick) {s : State} (h : s.chNum = 0) : cppmPrior gap s = 0 := by
  simp [cppmPrior, h]

/-- The first CPPM edge in closed form: its gap shows in the output record only (R111, R267). -/
theorem cppmEdge_begin_first (t : Tick) {s : State} (h : s.chNum = 0) :
    ∃ out, cppmEdge t s.begin = { s with
      cppmLast := t
      chNum := 1
      overdueReq := false
      maxChan := BitVec.ofNat 8 (if cppmKnown s < 1 then 1 else cppmKnown s)
      out := out } := by
  have hprior := cppmPrior_of_chNum_zero (elapsed t s.cppmLast) h
  have hstored : cppmStored (elapsed t s.cppmLast) s = s.raw := by simp [cppmStored, cppmTarget, hprior]
  have hcompletes : ¬CppmCompletes (elapsed t s.cppmLast) s := by
    rintro ⟨-, hcount, htwo⟩
    simp only [cppmCount, hprior] at hcount
    omega
  have hlearns : CppmLearns (elapsed t s.cppmLast) s ↔ cppmKnown s < 1 := by simp [CppmLearns, cppmCount, hprior]
  refine ⟨(cppmEdge t s.begin).out, ?_⟩
  rw [cppmEdge_begin_eq rfl]
  simp [hlearns, hcompletes, hstored, cppmCount, hprior]

/-- Settles O26: both samples lead to one reception, or to one edge, but for the stamp and the record. -/
theorem firstIntervalImmaterial : Obligations.FirstIntervalImmaterial := by
  refine ⟨fun b t t' s p hi hp hcount hopen hx => ?_, fun t t' s hp hchNum => ?_⟩
  · have hzero : s.begin.byteCount.toNat = 0 := congrArg BitVec.toNat hcount
    have hcap : s.begin.byteCount.toNat < s.begin.par.bufCap := by
      rw [hzero]
      exact lt_of_lt_of_le (by decide) hi.parValid.bufCap_ge
    obtain ⟨r, hr⟩ := exists_receive p b (s := s.begin) hi.parValid.bufCap_ge
    obtain ⟨pre, hpre⟩ := frameGap_begin_of_idle p t hcount hopen hx
    obtain ⟨pre', hpre'⟩ := frameGap_begin_of_idle p t' hcount hopen hx
    refine ⟨_, _, exec_rxByte_of_receive hp hpre hr, exec_rxByte_of_receive hp hpre' hr, ?_, ?_, rfl⟩
    · exact (receive_keeps hr).byteCount.trans (congrArg satInc hcount)
    · rw [← hzero]
      exact (receive_bufRead hr _).trans (bufRead_appendByte_same hi.bufWf hcap)
  · obtain ⟨out, hedge⟩ := cppmEdge_begin_first t hchNum
    obtain ⟨out', hedge'⟩ := cppmEdge_begin_first t' hchNum
    refine ⟨_, _, exec_cppmEdge hp t, exec_cppmEdge hp t', ?_⟩
    rw [hedge, hedge']
    exact ⟨rfl, rfl, rfl⟩

/-! ## A burst (O27) -/

/-- COMMIT_CNT is kept and a completed frame stays completed, or an open frame was completed by one commit (R141). -/
def CommitsByCompleting (s t : State) : Prop :=
  (t.commitCnt = s.commitCnt ∧ (s.parseDone = true → t.parseDone = true)) ∨
  (t.commitCnt = s.commitCnt + 1 ∧ s.parseDone = false ∧ t.parseDone = true)

theorem CommitsByCompleting.refl (s : State) : CommitsByCompleting s s := .inl ⟨rfl, id⟩

/-- Two steps in a row commit at most once: the first commit completes the frame, the second would need it open. -/
theorem CommitsByCompleting.trans {s t u : State} (h : CommitsByCompleting s t) (k : CommitsByCompleting t u) :
    CommitsByCompleting s u := by
  obtain ⟨ht, hkeep⟩ | ⟨ht, hopen, hdone⟩ := h
  · obtain ⟨hu, hkeep'⟩ | ⟨hu, hopen, hdone⟩ := k
    · exact .inl ⟨hu.trans ht, fun hs => hkeep' (hkeep hs)⟩
    · exact .inr ⟨by rw [hu, ht], Bool.eq_false_iff.mpr fun hs => Bool.eq_false_iff.mp hopen (hkeep hs), hdone⟩
  · obtain ⟨hu, hkeep'⟩ | ⟨-, hopen', -⟩ := k
    · exact .inr ⟨hu.trans ht, hopen, hkeep' hdone⟩
    · exact absurd (hdone.symm.trans hopen') (by decide)

/-- COMMIT_CNT is kept or one higher, and PARSE_DONE is kept. -/
structure CommitsAtMostOnce (s t : State) : Prop where
  commitCnt : t.commitCnt = s.commitCnt ∨ t.commitCnt = s.commitCnt + 1
  parseDone : t.parseDone = s.parseDone

/-- The parsers' use of it: PARSE_DONE is set first, then the completion runs (R141). -/
theorem CommitsByCompleting.of_completion {s v t : State} (h : CommitsAtMostOnce v t) (hopen : s.parseDone = false)
    (hcnt : v.commitCnt = s.commitCnt) (hdone : v.parseDone = true) : CommitsByCompleting s t := by
  have ht : t.parseDone = true := h.parseDone.trans hdone
  exact (hcnt ▸ h.commitCnt).imp (fun hkept => ⟨hkept, fun _ => ht⟩) fun honce => ⟨honce, hopen, ht⟩

/-- The completion of an Xtreme frame commits at most once (R142). -/
theorem xtComplete_commitsAtMostOnce {b : Byte} {s s' : State} (h : xtComplete b s = some s') :
    CommitsAtMostOnce s s' := by
  rcases xtComplete_cases h with ⟨-, rfl⟩ | ⟨-, -, rfl⟩ | ⟨-, -, -, rfl⟩ | ⟨-, -, -, st, -, rfl⟩
  · exact ⟨.inl rfl, rfl⟩
  · exact ⟨.inl rfl, rfl⟩
  · exact ⟨.inl rfl, rfl⟩
  · exact ⟨.inr rfl, rfl⟩

/-- The completion of an S-Bus frame commits at most once (R150). -/
theorem sbusComplete_commitsAtMostOnce {b : Byte} {s s' : State} (h : sbusComplete b s = some s') :
    CommitsAtMostOnce s s' := by
  rcases sbusComplete_cases h with ⟨-, rfl⟩ | ⟨-, flags, -, ⟨-, rfl⟩ | ⟨-, data, -, rfl⟩⟩
  · exact ⟨.inl rfl, rfl⟩
  · exact ⟨.inl rfl, rfl⟩
  · exact ⟨.inr rfl, rfl⟩

/-- The completion of a Spektrum frame commits at most once (R158). -/
theorem spkComplete_commitsAtMostOnce {s s' : State} (h : spkComplete s = some s') :
    CommitsAtMostOnce s s' := by
  obtain ⟨loss, second, st, any, -, -, -, rfl⟩ := spkComplete_cases h
  rw [spkLoss_eq]
  cases any
  · exact ⟨.inl rfl, rfl⟩
  · exact ⟨.inr rfl, rfl⟩

/-- A parser commits only by completing the open frame (R141). -/
theorem parse_commitsByCompleting {p : SerialProto} {k b : Byte} {s s' : State} (h : parse p k b s = some s') :
    CommitsByCompleting s s' := by
  cases p with
  | xtreme =>
    rcases parseXtreme_cases h with ⟨-, rfl⟩ | ⟨-, -, rfl⟩ | ⟨hopen, -, hc⟩
    · exact .refl _
    · exact .inl ⟨rfl, id⟩
    · exact .of_completion (xtComplete_commitsAtMostOnce hc) hopen rfl rfl
  | sbus =>
    rcases parseSbus_cases h with ⟨-, rfl⟩ | ⟨hopen, -, hc⟩
    · exact .refl _
    · exact .of_completion (sbusComplete_commitsAtMostOnce hc) hopen rfl rfl
  | spektrum =>
    rcases parseSpektrum_cases h with ⟨-, rfl⟩ | ⟨hopen, -, hc⟩
    · exact .refl _
    · exact .of_completion (spkComplete_commitsAtMostOnce hc) hopen rfl rfl

/-- A reception commits only by completing the open frame (R141). -/
theorem receive_commitsByCompleting {p : SerialProto} {b : Byte} {s u : State} (h : receive p b s = some u) :
    CommitsByCompleting s u := by
  obtain ⟨parsed, hparse, rfl⟩ := receive_eq_some_iff.mp h
  have hc := parse_commitsByCompleting hparse
  rw [appendByte_eq] at hc
  exact hc

/-- What a byte in a serial mode leaves for the next one of a burst (R121, R122). -/
theorem execRxByte_serial {p : SerialProto} {b : Byte} {t : Tick} {s v : State} (hp : serialOf s.proto = some p)
    (h : exec (.rxByte b t) s = .next v) :
    CommitsByCompleting (frameGap p t s.begin) v ∧ v.par = s.par ∧ v.proto = s.proto ∧ v.lastByteT = t := by
  have hr := (execRxByte_next_iff_receive hp).mp h
  have hkeeps := receive_keeps hr
  simp only [appendByte_eq, frameGap_eq] at hkeeps
  exact ⟨receive_commitsByCompleting hr, hkeeps.par, hkeeps.proto, hkeeps.lastByteT⟩

/-- Bytes without silence among them commit only by completing the open frame (R127, R129). -/
theorem execAll_rxTimed_commitsByCompleting {p : SerialProto} {ts : List Tick} {bs : List Byte} {s u : State}
    (hp : serialOf s.proto = some p) (hquiet : Unbroken s.par p s.lastByteT ts)
    (hrun : execAll (rxTimed bs ts) s = .next u) : CommitsByCompleting s u := by
  induction ts generalizing bs s with
  | nil =>
    rw [rxTimed, List.zipWith_nil_right] at hrun
    cases hrun
    exact .refl _
  | cons t ts ih =>
    cases bs with
    | nil => cases hrun; exact .refl _
    | cons b bs =>
      obtain ⟨hgap, hrest⟩ := hquiet
      obtain ⟨v, hv, hrun⟩ := execAll_cons_next_iff.mp hrun
      obtain ⟨hbyte, hpar, hproto, hlast⟩ := execRxByte_serial hp hv
      rw [frameGap_begin_within hgap] at hbyte
      exact CommitsByCompleting.trans hbyte (ih (hproto ▸ hp) (hpar.symm ▸ hlast.symm ▸ hrest) hrun)

/-- A run of well-formed operations completes and keeps the invariant (R230, R236). -/
theorem execAll_completes {is : List Instr} {s : State} (hi : Inv s) (hw : ∀ i ∈ is, i.wellFormed s.par = true) :
    ∃ u, execAll is s = .next u ∧ Inv u ∧ u.par = s.par := by
  induction is generalizing s with
  | nil => exact ⟨s, rfl, hi, rfl⟩
  | cons i is ih =>
    obtain ⟨v, hv⟩ := exec_completes hi (hw i List.mem_cons_self)
    have hpar := exec_par hv
    obtain ⟨u, hrun, hu, hupar⟩ := ih (exec_keeps_inv hi hv) fun j hj => hpar.symm ▸ hw j (List.mem_cons_of_mem _ hj)
    exact ⟨u, execAll_cons_next_iff.mpr ⟨v, hv, hrun⟩, hu, hupar.trans hpar⟩

/-- A byte is well formed whatever the parameters (R78). -/
theorem wellFormed_of_mem_rxTimed {bs : List Byte} {ts : List Tick} {i : Instr} (par : Params)
    (h : i ∈ rxTimed bs ts) : i.wellFormed par = true := by
  rw [rxTimed, ← List.map_uncurry_zip_eq_zipWith, List.mem_map] at h
  obtain ⟨⟨b, t⟩, -, rfl⟩ := h
  rfl

/-- Settles O27: after its first byte, which may start a frame, the burst commits only by completing that frame. -/
theorem burstCommitsAtMostOnce : Obligations.BurstCommitsAtMostOnce := by
  intro s p t0 ts bs hp hquiet
  constructor
  · intro u hrun
    cases bs with
    | nil => cases hrun; exact .inl rfl
    | cons b bs =>
      obtain ⟨v, hv, hrun⟩ := execAll_cons_next_iff.mp hrun
      obtain ⟨hfirst, hpar, hproto, hlast⟩ := execRxByte_serial hp hv
      have hrest := execAll_rxTimed_commitsByCompleting (hproto ▸ hp) (hpar.symm ▸ hlast.symm ▸ hquiet) hrun
      have hcnt : (frameGap p t0 s.begin).commitCnt = s.commitCnt := by simp only [frameGap_eq, State.begin_commitCnt]
      rw [← hcnt]
      exact (hfirst.trans hrest).imp And.left And.left
  · intro hi
    obtain ⟨u, hrun, hu, hpar⟩ := execAll_completes hi fun _ => wellFormed_of_mem_rxTimed s.par
    exact ⟨u, hrun, hpar ▸ hu.bufBounded⟩

end Sys2Proof.Machine

/-! # The parsers at one byte (O24, O28, O29, O30, O33, O34, O38)

A byte that continues its frame is stamped and appended before its parser runs, so each step is what the parser answers
in that one state (`State.appended`). What the parser answers there is said per protocol: the byte is ignored, it enters
the frame, or it completes the frame. -/

namespace Sys2Proof.Machine

/-! ## The state a parser meets -/

/-- The state in which the parser meets a byte that continues its frame: stamped, appended, a byte that does not fit
reported (R121, R123). -/
def State.appended (b : Byte) (t : Tick) (s : State) : State :=
  { s with
    lastByteT := t
    buf := appendedBuf b s
    out := quiet (if s.byteCount.toNat < s.par.bufCap then [] else [.byteDropped]) }

/-- With capacity left the byte lands in BUF and nothing is reported (R123). -/
theorem State.appended_of_fits {b : Byte} {t : Tick} {s : State} (h : s.byteCount.toNat < s.par.bufCap) :
    s.appended b t =
      { s with lastByteT := t, buf := Memory.write s.buf s.byteCount.toNat b, out := quiet [] } := by
  simp only [State.appended, appendedBuf, h, if_true]

/-- A byte that continues its frame does what its parser does in that state, and is counted (R120). -/
theorem exec_rxByte_of_parse {p : SerialProto} {b : Byte} {t : Tick} {s parsed : State}
    (hp : serialOf s.proto = some p) (hc : ContinuesFrame p t s)
    (h : parse p s.byteCount b (s.appended b t) = some parsed) :
    exec (.rxByte b t) s = .next { parsed with byteCount := satInc s.byteCount } :=
  execRxByte_within hp hc (by rw [appendByte_stamped_eq]; exact h)

/-- The state in which the completion of a frame runs on its last byte, the one at index `k`: stamped, appended,
PARSE_DONE set (R141). -/
def State.completing (k : Nat) (b : Byte) (t : Tick) (s : State) : State :=
  { s with lastByteT := t, buf := Memory.write s.buf k b, parseDone := true, out := quiet [] }

theorem State.completing_eq {b : Byte} {t : Tick} {s : State} (h : s.byteCount.toNat < s.par.bufCap) :
    s.completing s.byteCount.toNat b t = { s.appended b t with parseDone := true } := by
  rw [State.appended_of_fits h]
  rfl

/-- The completion reads the frame's bytes before the last one as they were (R123). -/
theorem State.bufRead_completing_lt (b : Byte) (t : Tick) {s : State} (hwf : s.buf.wf = true) {a k : Nat} (ha : a < k) :
    (s.completing k b t).bufRead a = s.bufRead a :=
  (State.bufRead_congr (s := s.bufWrite k b) rfl rfl a).trans
    (State.bufRead_bufWrite_other b hwf (Nat.ne_of_lt ha))

/-- No parser acts on a byte after completion, nor S-Bus on any byte but 24, nor Spektrum on any but 15 (R141, R150,
R158). -/
theorem parse_ignores {p : SerialProto} {k b : Byte} {s : State}
    (h : s.parseDone = true ∨ (p = .sbus ∧ k ≠ 24) ∨ (p = .spektrum ∧ k ≠ 15)) : parse p k b s = some s := by
  cases p with
  | xtreme =>
    have hdone : s.parseDone = true := by simpa using h
    exact if_pos hdone
  | sbus => exact if_pos (by simpa using h)
  | spektrum => exact if_pos (by simpa using h)

/-- Settles O24: the parser answers the state it was given. -/
theorem parserIgnoresOtherBytes : Obligations.ParserIgnoresOtherBytes := by
  intro b t s p hp hc h
  exact exec_rxByte_of_parse hp hc (parse_ignores h)

/-- Below 255 the byte count counts (R39). -/
theorem satInc_of_lt {n : Byte} (h : n.toNat < 255) : satInc n = n + 1 :=
  if_neg fun e => by rw [e] at h; exact absurd h (by decide)

/-- Commit publishes the value staged for a channel there is (R186). -/
theorem commit_raw_staged {st : Stage} {s : State} {c : Nat} {v : Tick} (hc : c < s.raw.length) (hst : st c = some v) :
    (s.commit st).raw[c]? = some v := by
  rw [commit_raw_getElem?, List.getElem?_eq_getElem hc, hst]
  rfl

/-- A channel with no staged value keeps its own (R186). -/
theorem commit_raw_unstaged {st : Stage} {s : State} {c : Nat} (hst : st c = none) :
    (s.commit st).raw[c]? = s.raw[c]? := by
  rw [commit_raw_getElem?, hst]
  exact Option.map_id'

/-- A loop over `0 … n − 1` reaches the round `w` after the lower ones, and then the higher ones come. -/
theorem range_eq_append_cons {w n : Nat} (h : w < n) :
    ∃ z, (∀ j ∈ z, w < j ∧ j < n) ∧ List.range n = List.range w ++ w :: z := by
  refine ⟨(List.range (n - (w + 1))).map (w + 1 + ·), fun j hj => ?_, ?_⟩
  · obtain ⟨i, hi, rfl⟩ := List.mem_map.mp hj
    have := List.mem_range.mp hi
    omega
  · calc List.range n = List.range (w + 1 + (n - (w + 1))) := by rw [Nat.add_sub_cancel' h]
      _ = List.range (w + 1) ++ (List.range (n - (w + 1))).map (w + 1 + ·) := List.range_add
      _ = _ := by rw [List.range_succ, List.append_assoc, List.singleton_append]

/-! ## Xtreme -/

/-- From byte 4 on the header parts of R142 do nothing. -/
theorem xtHeader_of_three_lt {k b : Byte} {s : State} (hk : 3 < k.toNat) : xtHeader k b s = s := by
  have hpoison : xtPoisons k b = false := by rw [xtPoisons_eq, decide_eq_false (by omega), Bool.false_and]
  simp only [xtHeader, hpoison, xtMaskAfter_of_three_lt hk, xtLenAfter_of_ne_three (by omega : k.toNat ≠ 3),
    Bool.or_false]

/-- A byte before the checksum enters the frame (R142). -/
theorem parseXtreme_accumulates {k b : Byte} {s : State} (hopen : s.parseDone = false)
    (hk : k.toNat ≤ 3 ∨ k.toNat < s.xtLen.toNat) :
    parseXtreme k b s = some { xtHeader k b s with xtSum := s.xtSum + b } := by
  have hbefore : k.toNat ≤ 3 ∨ k.toNat < (xtHeader k b s).xtLen.toNat := by
    by_cases h3 : 3 < k.toNat
    · rwa [xtHeader_of_three_lt h3]
    · exact .inl (Nat.le_of_not_lt h3)
  unfold parseXtreme
  rw [if_neg (Bool.eq_false_iff.mp hopen)]
  exact if_pos hbefore

/-- The byte at index XT_LEN completes the frame (R142). -/
theorem parseXtreme_completes {k b : Byte} {s : State} (hopen : s.parseDone = false) (h4 : 4 ≤ k.toNat)
    (hk : k = s.xtLen) : parseXtreme k b s = xtComplete b { s with parseDone := true } := by
  unfold parseXtreme
  rw [if_neg (Bool.eq_false_iff.mp hopen), xtHeader_of_three_lt h4]
  exact if_neg (by rw [← hk]; omega)

/-- Settles O28: the byte before the checksum enters the frame, and the count, below XT_LEN or 4, does not saturate. -/
theorem xtremeAccumulates : Obligations.XtremeAccumulates := by
  intro b t s hp hc hopen hcap hk mask
  have hcount : satInc s.byteCount = s.byteCount + 1 := satInc_of_lt (by have := s.xtLen.isLt; omega)
  rw [exec_rxByte_of_parse (p := .xtreme) (by rw [hp]; rfl) hc
    (parseXtreme_accumulates (s := s.appended b t) hopen hk), State.appended_of_fits hcap, hcount]
  rfl

/-- The tests of a completed frame that fails one, in their order (R148(d)). -/
theorem xtComplete_rejects {b : Byte} {s : State} (h : s.xtPoison = true ∨ s.xtMask = 0 ∨ s.xtSum ≠ b) :
    xtComplete b s = some (s.emit
      (if s.xtPoison = true then .rejXtPoison else if s.xtMask = 0 then .rejXtMask else .rejXtChecksum)) := by
  unfold xtComplete
  by_cases hpoison : s.xtPoison = true
  · rw [if_pos hpoison, if_pos hpoison]
  rw [if_neg hpoison, if_neg hpoison]
  by_cases hmask : s.xtMask = 0
  · rw [if_pos hmask, if_pos hmask]
  rw [if_neg hmask, if_neg hmask, if_pos ((h.resolve_left hpoison).resolve_left hmask)]

/-- The checksum byte does what the completion of its frame does, and is counted (R142). -/
theorem exec_rxByte_of_xtComplete {b : Byte} {t : Tick} {s r : State} (hp : s.proto = .xtreme)
    (hc : ContinuesFrame .xtreme t s) (hopen : s.parseDone = false) (h4 : 4 ≤ s.byteCount.toNat)
    (hlen : s.byteCount = s.xtLen) (hcap : s.byteCount.toNat < s.par.bufCap)
    (hr : xtComplete b (s.completing s.byteCount.toNat b t) = some r) :
    exec (.rxByte b t) s = .next { r with byteCount := satInc s.byteCount } := by
  rw [State.completing_eq hcap] at hr
  exact exec_rxByte_of_parse (p := .xtreme) (by rw [hp]; rfl) hc
    ((parseXtreme_completes (s := s.appended b t) hopen h4 hlen).trans hr)

/-- Settles O29: the completion emits the first failing test's tag. -/
theorem xtremeRejectsInOrder : Obligations.XtremeRejectsInOrder := by
  intro b t s hp hc hopen h4 hlen hcap hbad
  exact exec_rxByte_of_xtComplete hp hc hopen h4 hlen hcap (xtComplete_rejects hbad)

/-- A completed frame that passes the tests publishes its stage (R142). -/
theorem xtComplete_accepts {b : Byte} {s : State} {st : Stage} (hpoison : s.xtPoison = false) (hmask : s.xtMask ≠ 0)
    (hsum : s.xtSum = b) (hst : xtStage s (List.range 16) 0 Stage.empty = some st) :
    xtComplete b s = some (s.commit st) := by
  unfold xtComplete
  rw [if_neg (Bool.eq_false_iff.mp hpoison), if_neg hmask, if_neg (not_not.mpr hsum), hst]
  rfl

/-- The bytes of a word, high byte first (R51). -/
theorem toNat_append_byte (hi lo : Byte) : (hi ++ lo).toNat = 256 * hi.toNat + lo.toNat := by
  rw [BitVec.toNat_append, ← Nat.shiftLeft_add_eq_or_of_lt lo.isLt, Nat.shiftLeft_eq]
  omega

/-- The set bits below a set bit are fewer than all of them. -/
theorem countP_lt_popcount {m : BitVec 16} {w : Nat} (hw : m.getLsbD w = true) :
    (List.range w).countP (fun i => m.getLsbD i) < popcount m := by
  obtain ⟨z, -, hsplit⟩ := range_eq_append_cons (BitVec.lt_of_getLsbD hw)
  rw [popcount, hsplit, List.countP_append, List.countP_cons_of_pos hw]
  omega

/-- What an accepted Xtreme frame stages (R147): each set bit's word under its wire index, and nothing else. -/
structure XtStages (s : State) (st : Stage) : Prop where
  mapped : ∀ w, s.xtMask.getLsbD w = true → ∃ hi lo : Byte,
    s.bufRead (4 + 2 * (List.range w).countP (fun i => s.xtMask.getLsbD i)) = some hi ∧
    s.bufRead (5 + 2 * (List.range w).countP (fun i => s.xtMask.getLsbD i)) = some lo ∧
    ∀ c, remap s.order w = some c → st c = some (transform s.par .xtreme (256 * hi.toNat + lo.toNat))
  other : ∀ c, (∀ w, s.xtMask.getLsbD w = true → remap s.order w ≠ some c) → st c = none

/-- The Xtreme loop stages the frame, if its value bytes fit in BUF and the table is valid (R26, R147). -/
theorem exists_xtStages {s : State} (hv : OrderValid s.order) (hcap : 37 ≤ s.par.bufCap) :
    ∃ st, xtStage s (List.range 16) 0 Stage.empty = some st ∧ XtStages s st := by
  have hword {m : Nat} (hm : m < popcount s.xtMask) : 4 + 2 * m + 1 < s.par.bufCap := by
    have := popcount_le s.xtMask
    omega
  have hsome : (xtStage s (List.range 16) 0 Stage.empty).isSome :=
    xtStage_isSome _ fun m hm => by rw [Nat.zero_add, bufWordBE_eq (hword hm), Option.isSome_some]
  obtain ⟨st, hst⟩ := Option.isSome_iff_exists.mp hsome
  refine ⟨st, hst, fun w hw => ?_, fun c hc => xtStage_other (fun w _ hw => hc w hw) hst⟩
  have hn := hword (countP_lt_popcount hw)
  refine ⟨_, _, State.bufRead_eq (by omega), State.bufRead_eq (by omega), fun c hc => ?_⟩
  obtain ⟨z, hz, hsplit⟩ := range_eq_append_cons (BitVec.lt_of_getLsbD hw)
  rw [hsplit] at hst
  rw [xtStage_mapped hv hc hw (fun hmem => lt_irrefl _ (hz w hmem).1)
    (by rw [Nat.zero_add, bufWordBE_eq hn]) hst, toNat_append_byte, Nat.add_right_comm 4 _ 1]

/-- Settles O30: the completion commits the stage; what it reads is below the checksum byte just appended. -/
theorem xtremeCommitsMaskedChannels : Obligations.XtremeCommitsMaskedChannels := by
  intro b t s hi hp hc hopen h4 hlen hpoison hmask hsum
  have hcount : s.byteCount.toNat = 4 + 2 * popcount s.xtMask :=
    (congrArg BitVec.toNat hlen).trans ((hi.xtremeTracks hp hopen).length h4).1
  have hpop := popcount_le s.xtMask
  have hcap := hi.parValid.bufCap_ge
  obtain ⟨st, hst, hstages⟩ := exists_xtStages (s := s.completing s.byteCount.toNat b t)
    (hi.enabledOrderValid (by rw [hp]; decide)) hcap
  refine ⟨_, ?_, commit_raw_length st s, fun w hw => ?_, fun c hother => commit_raw_unstaged (hstages.other c hother)⟩
  · rw [exec_rxByte_of_xtComplete hp hc hopen h4 hlen (by omega) (xtComplete_accepts hpoison hmask hsum hst),
      satInc_of_lt (by omega)]
    rfl
  · have hn : (List.range w).countP (fun i => (s.completing s.byteCount.toNat b t).xtMask.getLsbD i) <
        popcount s.xtMask := countP_lt_popcount hw
    obtain ⟨high, low, hhigh, hlow, hvalue⟩ := hstages.mapped w hw
    rw [State.bufRead_completing_lt b t hi.bufWf (by omega)] at hhigh hlow
    exact ⟨high, low, hhigh, hlow, fun c hremap =>
      commit_raw_staged (hi.rawLength ▸ remap_lt_nCh hi hremap) (hvalue c hremap)⟩

/-! ## S-Bus -/

/-- A sum of bits at rising places is the number with these bits. -/
theorem sum_shiftLeft_eq_ofBits (f : Nat → Bool) (n : Nat) :
    ((List.range n).map fun b => (f b).toNat <<< b).sum = Nat.ofBits fun i : Fin n => f i := by
  induction n generalizing f with
  | zero => rfl
  | succ n ih =>
    have hshift : ((List.range n).map fun b => (f (b + 1)).toNat <<< (b + 1)).sum =
        2 * ((List.range n).map fun b => (f (b + 1)).toNat <<< b).sum := by
      rw [← List.sum_map_mul_left]
      simp only [Nat.shiftLeft_eq, Nat.pow_succ']
      simp only [Nat.mul_left_comm]
    rw [List.range_succ_eq_map, List.map_cons, List.sum_cons, List.map_map, Nat.ofBits_succ, Nat.add_comm]
    exact congrArg₂ _ (hshift.trans (congrArg _ (ih fun b => f (b + 1)))) rfl

theorem sbusField_eq_ofBits (data : List Byte) (j : Nat) :
    sbusField data j = Nat.ofBits fun k : Fin 11 => sbusStreamBit data (11 * j + k) :=
  sum_shiftLeft_eq_ofBits (fun k => sbusStreamBit data (11 * j + k)) 11

/-- A field has eleven bits (R52). -/
theorem sbusField_lt (data : List Byte) (j : Nat) : sbusField data j < 2048 := by
  rw [sbusField_eq_ofBits]
  exact Nat.ofBits_lt_two_pow _

/-- Bit `k` of field `j` is stream bit `11j + k` (R52). -/
theorem sbusField_testBit (data : List Byte) (j : Nat) {k : Nat} (hk : k < 11) :
    (sbusField data j).testBit k = sbusStreamBit data (11 * j + k) := by
  rw [sbusField_eq_ofBits, Nat.testBit_ofBits_lt _ _ hk]

/-- A byte has no bit from 8 on. -/
theorem byte_testBit_ge (b : Byte) {i : Nat} (h : 8 ≤ i) : b.toNat.testBit i = false := by
  rw [BitVec.testBit_toNat, BitVec.getLsbD_of_ge _ _ h]

/-- Settles O34: both sides have the stream bits 11j … 11j + 10, found in the byte that `r + k` reaches. -/
theorem sbusFieldByteForm : Obligations.SbusFieldByteForm := by
  intro data j hdata hj q r byte
  apply Nat.eq_of_testBit_eq
  intro k
  have hmask : (0x7FF : Nat).testBit k = decide (k < 11) := Nat.testBit_two_pow_sub_one 11 k
  rw [Nat.testBit_and, hmask]
  by_cases hk : k < 11
  · have hbit (i m : Nat) (hm : m < 8) (he : 11 * j + k = 8 * (q + i) + m) :
        sbusStreamBit data (11 * j + k) = (byte (q + i)).testBit m := by
      rw [sbusStreamBit, BitVec.testBit_toNat, show (11 * j + k) / 8 = q + i by omega,
        show (11 * j + k) % 8 = m by omega]
    have hqr : 11 * j = 8 * q + r := (Nat.div_add_mod _ 8).symm
    have hr : r < 8 := Nat.mod_lt _ (by decide)
    rw [sbusField_testBit _ _ hk, decide_eq_true hk, Bool.and_true, Nat.testBit_or, Nat.testBit_or,
      Nat.testBit_shiftRight, Nat.testBit_shiftLeft, Nat.testBit_shiftLeft]
    rcases Nat.lt_or_ge (r + k) 8 with h8 | h8
    · rw [hbit 0 (r + k) h8 (by omega), decide_eq_false (by omega : ¬k ≥ 8 - r),
        decide_eq_false (by omega : ¬k ≥ 16 - r)]
      simp
    have hfirst : (byte q).testBit (r + k) = false := byte_testBit_ge _ h8
    rw [hfirst, decide_eq_true (by omega : k ≥ 8 - r)]
    rcases Nat.lt_or_ge (r + k) 16 with h16 | h16
    · rw [hbit 1 (k - (8 - r)) (by omega) (by omega), decide_eq_false (by omega : ¬k ≥ 16 - r)]
      simp
    · have hsecond : (byte (q + 1)).testBit (k - (8 - r)) = false := byte_testBit_ge _ (by omega)
      rw [hbit 2 (k - (16 - r)) (by omega) (by omega), hsecond, decide_eq_true (by omega : k ≥ 16 - r)]
      simp
  · rw [decide_eq_false hk, Bool.and_false]
    have h11 : 2 ^ 11 ≤ 2 ^ k := Nat.pow_le_pow_right Nat.two_pos (Nat.le_of_not_lt hk)
    exact Nat.testBit_lt_two_pow (lt_of_lt_of_le (sbusField_lt data j) h11)

/-- A frame with a bad end marker is rejected (R153). -/
theorem sbusComplete_badEnd {b : Byte} {s : State} (h : endOk s.par.sbusEnd b = false) :
    sbusComplete b s = some (s.emit .rejSbEnd) := if_neg (Bool.eq_false_iff.mp h)

/-- A frame whose receiver reports it lost is discarded (R154). -/
theorem sbusComplete_lost {b flags : Byte} {s : State} (h : endOk s.par.sbusEnd b = true)
    (hflags : s.bufRead 23 = some flags) (hlost : flags.getLsbD 5 = true) :
    sbusComplete b s = some (s.emit .discSbLost) := by
  rw [sbusComplete, if_pos h, hflags]
  exact if_pos hlost

/-- A good frame publishes its fields and latches the failsafe bit (R155, R157). -/
theorem sbusComplete_commits {b flags : Byte} {data : List Byte} {s : State} (h : endOk s.par.sbusEnd b = true)
    (hflags : s.bufRead 23 = some flags) (hgood : flags.getLsbD 5 = false) (hdata : s.bufReadFrom 1 22 = some data) :
    sbusComplete b s =
      some (State.commit (sbusStage s data (List.range 16) Stage.empty) { s with sbusFs := flags.getLsbD 4 }) := by
  rw [sbusComplete, if_pos h, hflags]
  refine (if_neg (Bool.eq_false_iff.mp hgood)).trans ?_
  rw [hdata]
  rfl

/-- Byte 24 completes the frame (R150). -/
theorem parseSbus_completes {k b : Byte} {s : State} (hopen : s.parseDone = false) (hk : k = 24) :
    parseSbus k b s = sbusComplete b { s with parseDone := true } :=
  if_neg (by simp [hopen, hk])

/-- The stream bits of the data bytes read from BUF are those of the frame in BUF (R52). -/
theorem sbusStreamBit_of_bufReadFrom {s : State} {data : List Byte} (h : s.bufReadFrom 1 22 = some data) {i : Nat}
    (hi : i < 176) : sbusStreamBit data i = bufStreamBit s i := by
  obtain ⟨hlen, hread⟩ := bufReadFrom_eq_some_iff.mp h
  have hin : i / 8 < data.length := by omega
  rw [sbusStreamBit, bufStreamBit, State.frameByte, hread _ hin, List.getD_eq_getElem _ _ hin, Option.getD_some]

/-- Byte 24 does what the completion of its frame does, and is counted (R150). -/
theorem exec_rxByte_of_sbusComplete {b : Byte} {t : Tick} {s r : State} (hp : s.proto = .sbus)
    (hc : ContinuesFrame .sbus t s) (hopen : s.parseDone = false) (h24 : s.byteCount = 24)
    (hcap : 24 < s.par.bufCap) (hr : sbusComplete b (s.completing 24 b t) = some r) :
    exec (.rxByte b t) s = .next { r with byteCount := 25 } := by
  have hcount : s.byteCount.toNat = 24 := congrArg BitVec.toNat h24
  rw [← hcount, State.completing_eq (by omega)] at hr
  have h := exec_rxByte_of_parse (p := .sbus) (by rw [hp]; rfl) hc
    ((parseSbus_completes (s := s.appended b t) hopen h24).trans hr)
  rwa [h24] at h

/-- Settles O33: the completion's three cases; the fields are read below byte 24, just appended. -/
theorem sbusFrameOutcome : Obligations.SbusFrameOutcome := by
  intro b t s hi hp hc hopen h24 endGood done
  have hcap := hi.parValid.bufCap_ge
  have hgood : endGood ↔ endOk s.par.sbusEnd b = true := by
    unfold endGood endOk
    cases s.par.sbusEnd <;> simp
  have hexec {r : State} := exec_rxByte_of_sbusComplete (b := b) (r := r) hp hc hopen h24 (by omega)
  have hread {a : Nat} (ha : a < 24) : (s.completing 24 b t).bufRead a = s.bufRead a :=
    State.bufRead_completing_lt b t hi.bufWf ha
  obtain ⟨flags, hflags⟩ : ∃ flags, s.bufRead 23 = some flags := ⟨_, State.bufRead_eq (by omega)⟩
  have hflags' : (s.completing 24 b t).bufRead 23 = some flags := (hread (by decide)).trans hflags
  refine ⟨fun hbad => ?_, flags, hflags, fun hend hlost => ?_, fun hend hkept => ?_⟩
  · have hbad' : endOk s.par.sbusEnd b = false := Bool.eq_false_iff.mpr fun h => hbad (hgood.mpr h)
    exact hexec (sbusComplete_badEnd hbad')
  · exact hexec (sbusComplete_lost (hgood.mp hend) hflags' hlost)
  · obtain ⟨data, hdata⟩ := Option.isSome_iff_exists.mp
      (bufReadFrom_isSome (s := s.completing 24 b t) (i := 1) (n := 22) (Nat.le_trans (by decide) hcap))
    refine ⟨_, hexec (sbusComplete_commits (hgood.mp hend) hflags' hkept hdata), commit_raw_length _ s,
      fun j c hj => ?_, fun c hother => ?_⟩
    · have hj16 : j < 16 := (remap_eq_some_iff.mp hj).1
      refine ⟨sbusField data j, sbusField_lt data j, fun k hk => ?_, ?_⟩
      · rw [sbusField_testBit _ _ hk, sbusStreamBit_of_bufReadFrom hdata (by omega), bufStreamBit, bufStreamBit,
          State.frameByte, State.frameByte, hread (by omega)]
      · exact commit_raw_staged (hi.rawLength ▸ remap_lt_nCh hi hj)
          (sbusStage_mapped (hi.enabledOrderValid (by rw [hp]; decide)) (List.mem_range.mpr hj16) hj _)
    · exact commit_raw_unstaged (sbusStage_other (s := s.completing 24 b t) (fun j _ => hother j) _)

/-! ## Spektrum -/

/-- Byte 15 does what the completion of its frame does, and is counted (R158). -/
theorem exec_rxByte_of_spkComplete {b : Byte} {t : Tick} {s r : State} (hp : s.proto = .spektrum)
    (hc : ContinuesFrame .spektrum t s) (hopen : s.parseDone = false) (h15 : s.byteCount = 15)
    (hcap : 15 < s.par.bufCap) (hr : spkComplete (s.completing 15 b t) = some r) :
    exec (.rxByte b t) s = .next { r with byteCount := 16 } := by
  have hcount : s.byteCount.toNat = 15 := congrArg BitVec.toNat h15
  rw [← hcount, State.completing_eq (by omega)] at hr
  have hparse : parseSpektrum s.byteCount (s.appended b t) = some r := by
    have hcompletes : ¬((s.appended b t).parseDone = true ∨ s.byteCount ≠ 15) := by simp [State.appended, hopen, h15]
    exact (if_neg hcompletes).trans hr
  have h := exec_rxByte_of_parse (p := .spektrum) (b := b) (by rw [hp]; rfl) hc hparse
  rwa [h15] at h

/-- The state of a completing Spektrum frame once its loss counter and its resolution bit are read (R159, R160). -/
def State.spkResolved (loss second b : Byte) (t : Tick) (s : State) : State :=
  let drop := s.spkPrevValid && decide (loss ≠ s.spkPrev)
  { s.completing 15 b t with
    spkDrop := drop
    spkPrev := loss
    spkPrevValid := true
    spkRes11 := second.getLsbD 4
    out := quiet (if drop then [.spDropSeen] else []) }

/-- The loss counter and the resolution first, then the words (R158). -/
theorem spkComplete_completing {loss second b : Byte} {t : Tick} {s : State}
    (h0 : (s.completing 15 b t).bufRead 0 = some loss) (h1 : (s.completing 15 b t).bufRead 1 = some second) :
    spkComplete (s.completing 15 b t) = spkPublish (s.spkResolved loss second b t) := by
  have hdrop : (s.completing 15 b t).lossChanged loss = (s.spkPrevValid && decide (loss ≠ s.spkPrev)) := by
    by_cases h : loss = s.spkPrev <;> simp [State.lossChanged, State.completing, h]
  rw [spkComplete_eq, h0, h1, Option.bind_some, Option.bind_some, spkLoss_eq, hdrop, State.spkResolved]
  cases s.spkPrevValid && decide (loss ≠ s.spkPrev) <;> rfl

/-- A word's channel is the one it carries, unless that is 15 (R161, R162). -/
theorem spkWordChannel?_eq_some_iff {s : State} {res11 : Bool} {i : Nat} {ch : Nibble} :
    spkWordChannel? s res11 i = some ch ↔
      ∃ w, s.bufWordBE (2 + 2 * i) = some w ∧ spkChannel res11 w ≠ 15 ∧ spkChannel res11 w = ch := by
  unfold spkWordChannel?
  cases s.bufWordBE (2 + 2 * i) with
  | none => simp
  | some w => by_cases h : spkChannel res11 w = 15 <;> simp [h]

/-- What a Spektrum frame stages (R163): each channel's last word, and nothing else. -/
structure SpkStages (s : State) (res11 : Bool) (st : Stage) : Prop where
  mapped : ∀ (i c : Nat) (ch : Nibble) (w : BitVec 16), i < 7 → spkWordChannel? s res11 i = some ch →
    s.bufWordBE (2 + 2 * i) = some w → (∀ j, i < j → j < 7 → spkWordChannel? s res11 j ≠ some ch) →
    remap s.order ch.toNat = some c → st c = some (transform s.par (spkCodec res11) (spkValue res11 w))
  other : ∀ c, (∀ i < 7, ∀ ch, spkWordChannel? s res11 i = some ch → remap s.order ch.toNat ≠ some c) → st c = none

/-- The Spektrum loop stages the frame and says whether a word carried a channel, if the words fit in BUF and the table
is valid (R26, R158). -/
theorem exists_spkStages {s : State} (res11 : Bool) (hv : OrderValid s.order) (hcap : 37 ≤ s.par.bufCap) :
    ∃ st any, spkStage s res11 (List.range 7) Stage.empty false = some (st, any) ∧
      (any = true ↔ ∃ i < 7, spkWordChannel? s res11 i ≠ none) ∧ SpkStages s res11 st := by
  have hsome : (spkStage s res11 (List.range 7) Stage.empty false).isSome := spkStage_isSome _ _ fun i hi => by
    have := List.mem_range.mp hi
    rw [bufWordBE_eq (by omega), Option.isSome_some]
  obtain ⟨⟨st, any⟩, hst⟩ := Option.isSome_iff_exists.mp hsome
  refine ⟨st, any, hst, ?any, ?mapped, ?other⟩
  case any =>
    rw [spkStage_any hst]
    simp only [Bool.false_eq_true, false_or, List.mem_range, Option.ne_none_iff_exists', spkWordChannel?_eq_some_iff]
    constructor
    · rintro ⟨i, hi, w, hw, h15⟩; exact ⟨i, hi, _, w, hw, h15, rfl⟩
    · rintro ⟨i, hi, _, w, hw, h15, -⟩; exact ⟨i, hi, w, hw, h15⟩
  case mapped =>
    intro i c ch w hi hch hw hlast hc
    obtain ⟨v, hv', h15, rfl⟩ := spkWordChannel?_eq_some_iff.mp hch
    obtain rfl : v = w := Option.some.inj (hv'.symm.trans hw)
    obtain ⟨z, hz, hsplit⟩ := range_eq_append_cons hi
    rw [hsplit] at hst
    refine spkStage_mapped hv hw h15 hc (fun j hj v hjv he => ?_) hst
    exact hlast j (hz j hj).1 (hz j hj).2 (spkWordChannel?_eq_some_iff.mpr ⟨v, hjv, he ▸ h15, he⟩)
  case other =>
    intro c hc
    exact spkStage_other (fun i hi w hw h15 =>
      hc i (List.mem_range.mp hi) _ (spkWordChannel?_eq_some_iff.mpr ⟨w, hw, h15, rfl⟩)) hst

/-- Settles O38: the completion reads bytes 0 and 1, stages the words, and publishes or discards them. -/
theorem spektrumFrameOutcome : Obligations.SpektrumFrameOutcome := by
  intro b t s hi hp hc hopen h15
  have hcap := hi.parValid.bufCap_ge
  have hread {a : Nat} (ha : a < 15) : (s.completing 15 b t).bufRead a = s.bufRead a :=
    State.bufRead_completing_lt b t hi.bufWf ha
  obtain ⟨loss, hloss⟩ : ∃ loss, s.bufRead 0 = some loss := ⟨_, State.bufRead_eq (by omega)⟩
  obtain ⟨second, hsecond⟩ : ∃ second, s.bufRead 1 = some second := ⟨_, State.bufRead_eq (by omega)⟩
  refine ⟨loss, second, hloss, hsecond, ?_⟩
  intro full res11 drop told done
  obtain ⟨st, any, hst, hany, hstages⟩ := exists_spkStages (s := s.spkResolved loss second b t) res11
    (hi.enabledOrderValid (by rw [hp]; decide)) hcap
  have hpublish : spkComplete (s.completing 15 b t) =
      some (if any then (s.spkResolved loss second b t).commit st
        else (s.spkResolved loss second b t).emit .discSpEmpty) := by
    rw [spkComplete_completing ((hread (by decide)).trans hloss) ((hread (by decide)).trans hsecond), spkPublish]
    exact congrArg (Option.map _) hst
  have hexec := exec_rxByte_of_spkComplete hp hc hopen h15 (by omega) hpublish
  refine ⟨fun hnone => ?_, fun hcarried => ⟨_, ?_, commit_raw_length st s, fun i c ch w hi7 hch hw hlast hremap => ?_,
    fun c hother => commit_raw_unstaged (hstages.other c hother)⟩⟩
  · have hempty : any = false := Bool.eq_false_iff.mpr fun h => by
      obtain ⟨i, hi7, hne⟩ := hany.mp h
      exact hne (hnone i hi7)
    rw [hexec, hempty]
    rfl
  · rw [hexec, hany.mpr hcarried]
    rfl
  · exact commit_raw_staged (hi.rawLength ▸ remap_lt_nCh hi hremap) (hstages.mapped i c ch w hi7 hch hw hlast hremap)

end Sys2Proof.Machine

/-! # Whole frames (O31, O32, O39)

A frame is its last byte after the bytes before it. While those come, the frame stays open and nothing is published
(`Receiving`), whatever the protocol; so the run is one step, the last byte's, from a state that holds the frame. What
that step does is said above. -/

namespace Sys2Proof.Machine

/-! ## The bytes before the last -/

/-- XT_MASK of an Xtreme frame with the bytes `bs` (R145). -/
def xtFrameMask (bs : List Byte) : BitVec 16 := bs.getD 2 0 ++ bs.getD 3 0

/-- The index of the byte that completes a frame with the bytes `bs` (R143, R150, R158). -/
def lastIndex : SerialProto → List Byte → Nat
  | .xtreme, bs => 4 + 2 * popcount (xtFrameMask bs)
  | .sbus, _ => 24
  | .spektrum, _ => 15

theorem lastIndex_pos (p : SerialProto) (bs : List Byte) : 0 < lastIndex p bs := by
  cases p <;> simp [lastIndex]

/-- The first `n` bytes of `bs` are in BUF as an open frame, and since `s₀` nothing has been published or configured. -/
structure Receiving (s₀ : State) (bs : List Byte) (n : Nat) (s : State) : Prop where
  inv : Inv s
  par : s.par = s₀.par
  proto : s.proto = s₀.proto
  order : s.order = s₀.order
  raw : s.raw = s₀.raw
  fr : s.fr = s₀.fr
  commitCnt : s.commitCnt = s₀.commitCnt
  parseDone : s.parseDone = false
  count : s.byteCount.toNat = n
  bytes : ∀ i < n, s.bufRead i = some (bs.getD i 0)

/-- The gap test of a byte 0 leaves an open frame with no byte (R122, R126). -/
theorem Receiving.start {p : SerialProto} {t : Tick} {s : State} (bs : List Byte) (hi : Inv s)
    (h : StartsFrame p t s) : Receiving s bs 0 (frameGap p t s.begin) := by
  have hgap : ∃ pre, frameGap p t s.begin = s.clearFrame.begin.restamped t pre := by
    obtain hsilence | ⟨hcount, hopen, hx⟩ := h
    · exact ⟨_, frameGap_begin_boundary hsilence⟩
    · rw [clearFrame_of_idle hcount hopen hx]
      exact frameGap_begin_of_idle p t hcount hopen hx
  have hinv : Inv (frameGap p t s.begin) := frameGap_keeps_inv (hi.of_record (some Output.empty) s.input)
  obtain ⟨pre, hpre⟩ := hgap
  rw [hpre] at hinv ⊢
  exact ⟨hinv, rfl, rfl, rfl, rfl, rfl, rfl, rfl, rfl, fun i hi => absurd hi (Nat.not_lt_zero i)⟩

/-- The gap test of a byte that continues the frame leaves it open (R121, R128). -/
theorem Receiving.stamp {p : SerialProto} {t : Tick} {s₀ s : State} {bs : List Byte} {n : Nat}
    (h : Receiving s₀ bs n s) (hc : ContinuesFrame p t s) : Receiving s₀ bs n (frameGap p t s.begin) := by
  have hinv : Inv (frameGap p t s.begin) := frameGap_keeps_inv (h.inv.of_record (some Output.empty) s.input)
  rw [frameGap_begin_within hc] at hinv ⊢
  exact { h with inv := hinv }

/-- The frame's bytes in BUF (R40). -/
theorem Receiving.frameByte {s₀ s : State} {bs : List Byte} {n i : Nat} (h : Receiving s₀ bs n s) (hi : i < n) :
    s.frameByte i = bs.getD i 0 := by
  rw [State.frameByte, h.bytes i hi, Option.getD_some]

/-- From byte 4 on XT_MASK is the frame's (R145). -/
theorem Receiving.xtMask {s₀ s : State} {bs : List Byte} {n : Nat} (h : Receiving s₀ bs n s) (hx : s.proto = .xtreme)
    (h4 : 4 ≤ n) : s.xtMask = xtFrameMask bs := by
  rw [(h.inv.xtremeTracks hx h.parseDone).mask, h.count, if_pos (by omega), if_pos h4, h.frameByte (by omega),
    h.frameByte (by omega), xtFrameMask]

/-- From byte 4 on XT_LEN is the index of the frame's last byte (R143). -/
theorem Receiving.xtLen {s₀ s : State} {bs : List Byte} {n : Nat} (h : Receiving s₀ bs n s) (hx : s.proto = .xtreme)
    (h4 : 4 ≤ n) : s.xtLen.toNat = lastIndex .xtreme bs := by
  rw [((h.inv.xtremeTracks hx h.parseDone).length (by rw [h.count]; exact h4)).1, h.xtMask hx h4, lastIndex]

/-- A byte before the last one leaves the frame open and publishes nothing (R142, R150, R158). -/
theorem Receiving.parse_before_last {p : SerialProto} (b : Byte) {s₀ s : State} {bs : List Byte} {n : Nat}
    (h : Receiving s₀ bs n s) (hp : serialOf s.proto = some p) (hn : n < lastIndex p bs) :
    ∃ v, parse p s.byteCount b (appendByte b s) = some v ∧
      v.parseDone = false ∧ v.raw = s.raw ∧ v.fr = s.fr ∧ v.commitCnt = s.commitCnt := by
  have hopen := h.parseDone
  have hcount := h.count
  rw [appendByte_eq]
  cases p with
  | xtreme =>
    have hx : s.proto = .xtreme := by simpa using serialOf_eq_some_iff.mp hp
    have hbefore : s.byteCount.toNat ≤ 3 ∨ s.byteCount.toNat < s.xtLen.toNat := by
      by_cases h4 : 4 ≤ n
      · rw [h.xtLen hx h4, hcount]
        exact .inr hn
      · omega
    exact ⟨_, parseXtreme_accumulates hopen hbefore, hopen, rfl, rfl, rfl⟩
  | sbus =>
    have hne : s.byteCount ≠ 24 := fun e => Nat.ne_of_lt hn (hcount.symm.trans (congrArg BitVec.toNat e))
    exact ⟨_, parse_ignores (.inr (.inl ⟨rfl, hne⟩)), hopen, rfl, rfl, rfl⟩
  | spektrum =>
    have hne : s.byteCount ≠ 15 := fun e => Nat.ne_of_lt hn (hcount.symm.trans (congrArg BitVec.toNat e))
    exact ⟨_, parse_ignores (.inr (.inr ⟨rfl, hne⟩)), hopen, rfl, rfl, rfl⟩

/-- The last byte of a frame of any protocol fits in BUF, as the others do (R12, R143). -/
theorem lastIndex_lt (p : SerialProto) (bs : List Byte) : lastIndex p bs < 37 := by
  cases p with
  | xtreme => have := popcount_le (xtFrameMask bs); simp only [lastIndex]; omega
  | sbus => exact (by decide : 24 < 37)
  | spektrum => exact (by decide : 15 < 37)

/-- The step of a byte before the last one, its gap test having found the frame open. -/
theorem Receiving.exec_before_last {p : SerialProto} {t : Tick} {s₀ s : State} {bs : List Byte} {n : Nat}
    (h : Receiving s₀ bs n (frameGap p t s.begin)) (hi : Inv s) (hp : serialOf s.proto = some p)
    (hn : n < lastIndex p bs) (hlen : n < bs.length) :
    ∃ u, exec (.rxByte bs[n] t) s = .next u ∧ Receiving s₀ bs (n + 1) u ∧ u.lastByteT = t := by
  have hproto : (frameGap p t s.begin).proto = s.proto := by simp only [frameGap_eq, State.begin_proto]
  have hlast : (frameGap p t s.begin).lastByteT = t := by simp only [frameGap_eq]
  have hstep {u : State} := execRxByte_next_iff_receive (b := bs[n]) (t := t) (s := s) (u := u) hp
  generalize frameGap p t s.begin = f at h hproto hlast hstep
  have hbound := lastIndex_lt p bs
  have hcap := h.inv.parValid.bufCap_ge
  have hcount := h.count
  obtain ⟨v, hv, hopen, hraw, hfr, hcommit⟩ := h.parse_before_last bs[n] (hproto ▸ hp) hn
  have hr : receive p bs[n] f = some { v with byteCount := satInc f.byteCount } := receive_eq_some_iff.mpr ⟨v, hv, rfl⟩
  have hu := hstep.mpr hr
  have hk := receive_keeps hr
  have hread := receive_bufRead hr
  simp only [appendByte_eq] at hk
  refine ⟨_, hu, ⟨exec_keeps_inv hi hu, hk.par.trans h.par, hk.proto.trans h.proto, hk.order.trans h.order,
    hraw.trans h.raw, hfr.trans h.fr, hcommit.trans h.commitCnt, hopen, ?count, fun i hin => ?bytes⟩,
    hk.lastByteT.trans hlast⟩
  case count => rw [hk.byteCount, satInc_toNat]; omega
  case bytes =>
    rw [hread]
    rcases Nat.lt_or_eq_of_le (Nat.le_of_lt_succ hin) with hlt | rfl
    · rw [bufRead_appendByte_other h.inv.bufWf (.inl (by omega)), h.bytes i hlt]
    · rw [List.getD_eq_getElem _ _ hlen]
      simpa only [hcount] using bufRead_appendByte_same (b := bs[i]) h.inv.bufWf (by omega)

/-- From an open frame on, the run of the remaining bytes is the step of the last one. -/
theorem Receiving.run {p : SerialProto} {s₀ s : State} {bs : List Byte} {n : Nat} {ts : List Tick} {last : Byte}
    (h : Receiving s₀ bs n s) (hp : serialOf s₀.proto = some p) (hlast : bs.length = lastIndex p bs)
    (hlen : n + ts.length = bs.length + 1) (hn : n ≤ bs.length) (hquiet : Unbroken s₀.par p s.lastByteT ts) :
    ∃ v, Receiving s₀ bs bs.length v ∧ ContinuesFrame p (ts.getLastD s.lastByteT) v ∧
      execAll (rxTimed (bs.drop n ++ [last]) ts) s = exec (.rxByte last (ts.getLastD s.lastByteT)) v := by
  induction ts generalizing n s with
  | nil => rw [List.length_nil] at hlen; omega
  | cons t ts ih =>
    obtain ⟨hgap, hquiet⟩ := hquiet
    have hc : ContinuesFrame p t s := by rw [ContinuesFrame, h.par]; exact hgap
    rw [List.length_cons] at hlen
    rw [List.getLastD_cons]
    rcases Nat.lt_or_eq_of_le hn with hlt | rfl
    · obtain ⟨u, hu, hrec, hstamp⟩ := (h.stamp hc).exec_before_last h.inv (h.proto ▸ hp) (hlast ▸ hlt) hlt
      obtain ⟨v, hv, hcv, hrun⟩ := ih hrec (by omega) hlt (hstamp.symm ▸ hquiet)
      rw [hstamp] at hcv hrun
      refine ⟨v, hv, hcv, ?_⟩
      rw [← hrun, List.drop_eq_getElem_cons hlt, List.cons_append, rxTimed, List.zipWith_cons_cons, execAll, hu,
        rxTimed]
    · obtain rfl : ts = [] := List.length_eq_zero_iff.mp (by omega)
      refine ⟨s, h, hc, ?_⟩
      rw [List.drop_length, List.nil_append]
      exact execAll_singleton _ s

/-- The run of a whole frame is the step of its last byte, from a state that holds the bytes before it and has published
nothing. -/
theorem execAll_frame {p : SerialProto} {s : State} {t0 : Tick} {ts : List Tick} {bs : List Byte} {last : Byte}
    (hi : Inv s) (hp : serialOf s.proto = some p) (hstart : StartsFrame p t0 s) (hquiet : Unbroken s.par p t0 ts)
    (hlast : bs.length = lastIndex p bs) (hlen : ts.length = bs.length) :
    ∃ v, Receiving s bs bs.length v ∧ ContinuesFrame p (ts.getLastD t0) v ∧
      execAll (rxTimed (bs ++ [last]) (t0 :: ts)) s = exec (.rxByte last (ts.getLastD t0)) v := by
  have hpos := lastIndex_pos p bs
  have h0 : 0 < bs.length := by omega
  obtain ⟨u, hu, hrec, hstamp⟩ := (Receiving.start bs hi hstart).exec_before_last hi hp hpos h0
  obtain ⟨v, hv, hc, hrun⟩ := hrec.run (last := last) hp hlast (by omega) h0 (hstamp.symm ▸ hquiet)
  rw [hstamp] at hc hrun
  refine ⟨v, hv, hc, ?_⟩
  have hsplit : bs = bs[0] :: bs.drop 1 := by simpa using List.drop_eq_getElem_cons h0
  rw [← hrun]
  conv_lhs => rw [hsplit]
  rw [List.cons_append, rxTimed, List.zipWith_cons_cons, execAll, hu, rxTimed]

/-! ## Xtreme frames (O31, O32) -/

/-- XT_SUM of a frame that lacks its checksum is the sum of its bytes (R146). -/
theorem Receiving.xtSum {s₀ s : State} {bs : List Byte} (h : Receiving s₀ bs bs.length s) (hx : s.proto = .xtreme) :
    s.xtSum = bs.sum := by
  have hbytes : (List.range bs.length).map s.frameByte = bs := by
    refine List.ext_getElem (by simp) fun i hi hi' => ?_
    rw [List.getElem_map, List.getElem_range, h.frameByte hi', List.getD_eq_getElem _ _ hi']
  rw [(h.inv.xtremeTracks hx h.parseDone).sum, h.count, hbytes]

/-- XT_POISON says whether the flags byte of the frame poisons it (R144). -/
theorem Receiving.xtPoison {s₀ s : State} {bs : List Byte} {n : Nat} (h : Receiving s₀ bs n s)
    (hx : s.proto = .xtreme) (hn : 1 ≤ n) : s.xtPoison = decide ((bs.getD 0 0).extractLsb' 5 3 ≠ 0) := by
  rw [(h.inv.xtremeTracks hx h.parseDone).poison, h.count, decide_eq_true hn, Bool.true_and, h.frameByte hn]

/-- A state that lacks an Xtreme frame's checksum only stands at the index XT_LEN (R143). -/
theorem Receiving.byteCount_eq_xtLen {s₀ s : State} {bs : List Byte} (h : Receiving s₀ bs bs.length s)
    (hx : s.proto = .xtreme) (hlast : bs.length = lastIndex .xtreme bs) (h4 : 4 ≤ bs.length) :
    s.byteCount = s.xtLen :=
  BitVec.eq_of_toNat_eq (by rw [h.count, h.xtLen hx h4, ← hlast])

/-- A channel reads the same with the same parameters and the same entry of RAW (R22). -/
theorem raw?_congr {s t : State} {c : Nat} (hpar : t.par = s.par) (hraw : t.raw[c]? = s.raw[c]?) :
    t.raw? c = s.raw? c := by
  simp only [State.raw?, hpar, hraw]

/-- The bytes of an Xtreme frame before its checksum (R143). -/
def xtremePayload (flags second : Byte) (mask : BitVec 16) (values : List Byte) : List Byte :=
  flags :: second :: mask.extractLsb' 8 8 :: mask.extractLsb' 0 8 :: values

theorem xtremeFrame_eq (flags second : Byte) (mask : BitVec 16) (values : List Byte) :
    xtremeFrame flags second mask values =
      xtremePayload flags second mask values ++ [(xtremePayload flags second mask values).sum] := rfl

theorem xtremePayload_length (flags second : Byte) (mask : BitVec 16) (values : List Byte) :
    (xtremePayload flags second mask values).length = 4 + values.length := by
  simp only [xtremePayload, List.length_cons]
  omega

theorem xtremePayload_getD_value (flags second : Byte) (mask : BitVec 16) (values : List Byte) (i : Nat) :
    (xtremePayload flags second mask values).getD (4 + i) 0 = values.getD i 0 := by
  rw [Nat.add_comm]
  rfl

/-- The mask bytes give the mask back (R145). -/
theorem xtFrameMask_payload (flags second : Byte) (mask : BitVec 16) (values : List Byte) :
    xtFrameMask (xtremePayload flags second mask values) = mask :=
  BitVec.eq_of_getLsbD_eq fun i hi => by
    change (mask.extractLsb' 8 8 ++ mask.extractLsb' 0 8 : BitVec 16).getLsbD i = _
    rw [BitVec.getLsbD_append, BitVec.getLsbD_extractLsb', BitVec.getLsbD_extractLsb']
    by_cases h : i < 8
    · simp [h]
    · simp [h, show i - 8 < 8 by omega, show 8 + (i - 8) = i by omega]

/-- Settles O31: the checksum byte meets the registers of the frame, which passes the three tests. -/
theorem xtremeFrameCommits : Obligations.XtremeFrameCommits := by
  intro s t0 ts flags second mask values hi hp hstart hquiet hflags hmask hvalues hlen
  rw [xtremeFrame_eq] at hlen ⊢
  have hmaskBytes := xtFrameMask_payload flags second mask values
  have hlength := xtremePayload_length flags second mask values
  have hvalue := xtremePayload_getD_value flags second mask values
  have hflagsByte : (xtremePayload flags second mask values).getD 0 0 = flags := rfl
  generalize xtremePayload flags second mask values = bs at hlen hmaskBytes hlength hvalue hflagsByte ⊢
  have hlast : bs.length = lastIndex .xtreme bs := by rw [lastIndex, hmaskBytes, hlength, hvalues]
  obtain ⟨v, hv, hc, hrun⟩ := execAll_frame (last := bs.sum) hi (by rw [hp]; rfl) hstart hquiet hlast
    (by simpa using hlen)
  have hx : v.proto = .xtreme := hv.proto.trans hp
  have hvmask : v.xtMask = mask := (hv.xtMask hx (by omega)).trans hmaskBytes
  have hpoison : v.xtPoison = false := by
    rw [hv.xtPoison hx (by omega), hflagsByte, hflags]
    rfl
  obtain ⟨raw, hexec, hrawLen, hmapped, hother⟩ := xtremeCommitsMaskedChannels bs.sum _ v hv.inv hx hc hv.parseDone
    (by rw [hv.count]; omega) (hv.byteCount_eq_xtLen hx hlast (by omega)) hpoison (hvmask ▸ hmask) (hv.xtSum hx)
  rw [hvmask] at hmapped hother
  rw [hv.order] at hmapped hother
  refine ⟨_, hrun.trans hexec, congrArg (· + 1) hv.commitCnt, rfl, fun w c high low hw hremap hhigh hlow => ?_,
    fun c hc => raw?_congr hv.par ((hother c hc).trans (by rw [hv.raw]))⟩
  obtain ⟨high', low', hhigh', hlow', hpub⟩ := hmapped w hw
  have hn := countP_lt_popcount hw
  have hread {k : Nat} {x : Byte} (hk : k < values.length) (hx : values[k]? = some x) : v.bufRead (4 + k) = some x := by
    rw [hv.bytes _ (by omega), hvalue, List.getD_eq_getElem?_getD, hx, Option.getD_some]
  rw [hread (by omega) hhigh, Option.some.injEq] at hhigh'
  rw [show ∀ m, 5 + m = 4 + (m + 1) by omega, hread (by omega) hlow, Option.some.injEq] at hlow'
  subst hhigh' hlow'
  refine raw?_eq_some_iff.mpr ⟨?_, ?_⟩
  · exact (congrArg Params.nCh hv.par) ▸ remap_lt_nCh hi hremap
  · rw [← hv.par]
    exact hpub c hremap

/-- A list of bytes with one byte changed has another sum. -/
theorem sum_set_ne {bs : List Byte} {j : Nat} {old bad : Byte} (hold : bs[j]? = some old) (hne : bad ≠ old) :
    (bs.set j bad).sum ≠ bs.sum := by
  obtain ⟨hj, rfl⟩ := List.getElem?_eq_some_iff.mp hold
  intro h
  have hset := List.sum_set' bs j bad
  rw [dif_pos hj] at hset
  have hzero : -bs[j] + bad = 0 := by simpa using hset.symm.trans h
  exact hne (neg_add_eq_zero.mp hzero).symm

/-- The mask of a frame is not changed by another byte. -/
theorem xtFrameMask_set {bs : List Byte} {j : Nat} (bad : Byte) (h2 : j ≠ 2) (h3 : j ≠ 3) :
    xtFrameMask (bs.set j bad) = xtFrameMask bs := by
  simp only [xtFrameMask, List.getD_eq_getElem?_getD, List.getElem?_set_ne h2, List.getElem?_set_ne h3]

/-- An Xtreme frame with one byte but the mask bytes changed has the length and the mask it had, and a checksum byte
that is not its sum (R146). -/
theorem xtremeFrame_corrupted {flags second : Byte} {mask : BitVec 16} {values : List Byte} {j : Nat} {old bad : Byte}
    (h2 : j ≠ 2) (h3 : j ≠ 3) (hold : (xtremeFrame flags second mask values)[j]? = some old) (hne : bad ≠ old) :
    ∃ bs check, (xtremeFrame flags second mask values).set j bad = bs ++ [check] ∧ bs.length = 4 + values.length ∧
      xtFrameMask bs = mask ∧ bs.sum ≠ check := by
  rw [xtremeFrame_eq] at hold ⊢
  have hmask := xtFrameMask_payload flags second mask values
  have hlength := xtremePayload_length flags second mask values
  generalize xtremePayload flags second mask values = bs at hold hmask hlength ⊢
  rcases Nat.lt_or_ge j bs.length with hj | hj
  · rw [List.getElem?_append_left hj] at hold
    exact ⟨bs.set j bad, bs.sum, List.set_append_left j bad hj, by rw [List.length_set, hlength],
      (xtFrameMask_set bad h2 h3).trans hmask, sum_set_ne hold hne⟩
  · obtain ⟨hlt, hlast⟩ := List.getElem?_eq_some_iff.mp hold
    obtain rfl : j = bs.length := by simp at hlt; omega
    refine ⟨bs, bad, by simp, hlength, hmask, fun h => hne ?_⟩
    rw [← h, ← hlast]
    simp

/-- Settles O32: the changed byte makes the sum wrong, so the checksum byte's tests reject the frame. -/
theorem xtremeCorruptionRejected : Obligations.XtremeCorruptionRejected := by
  intro s t0 ts flags second mask values j old bad hi hp hstart hquiet hvalues hlen h2 h3 hold hne
  obtain ⟨bs, check, hframe, hlength, hmask, hsum⟩ := xtremeFrame_corrupted h2 h3 hold hne
  have hlast : bs.length = lastIndex .xtreme bs := by rw [lastIndex, hmask, hlength, hvalues]
  have hts : ts.length = bs.length := by
    have := congrArg List.length hframe
    rw [List.length_set, ← hlen] at this
    simpa using this
  obtain ⟨v, hv, hc, hrun⟩ := execAll_frame (last := check) hi (by rw [hp]; rfl) hstart hquiet hlast hts
  have hx : v.proto = .xtreme := hv.proto.trans hp
  have hcap := hv.inv.parValid.bufCap_ge
  have hexec := xtremeRejectsInOrder check _ v hx hc hv.parseDone (by rw [hv.count]; omega)
    (hv.byteCount_eq_xtLen hx hlast (by omega))
    (by rw [hv.count, hlast]; exact lt_of_lt_of_le (lastIndex_lt _ _) hcap)
    (.inr (.inr (by rw [hv.xtSum hx]; exact hsum)))
  rw [hframe]
  exact ⟨_, hrun.trans hexec, rfl, hv.raw, hv.fr, hv.commitCnt⟩

/-! ## Spektrum frames (O39) -/

/-- What a Spektrum frame `f` that carries channels leaves of `s`, its last byte at `t` (R163, R165). -/
structure SpkPublishes (f : List Byte) (t : Tick) (s u : State) : Prop where
  inv : Inv u
  par : u.par = s.par
  proto : u.proto = s.proto
  order : u.order = s.order
  lastByteT : u.lastByteT = t
  commitCnt : u.commitCnt = s.commitCnt + 1
  fr : u.fr = true
  mapped : ∀ (i c : Nat) (ch : Nibble), SpkCarries f i ch → remap s.order ch.toNat = some c →
    u.raw? c = some (spkFrameValue s.par f i)
  other : ∀ c : Nat, (∀ i ch, SpkCarries f i ch → remap s.order ch.toNat ≠ some c) → u.raw? c = s.raw? c

/-- The words in BUF of a frame that BUF holds are the frame's (R161). -/
theorem bufWordBE_of_frame {s : State} {f : List Byte} (h : ∀ a < 16, s.bufRead a = some (f.getD a 0)) {i : Nat}
    (hi : i < 7) : s.bufWordBE (2 + 2 * i) = some (spkFrameWord f i) := by
  refine bufWordBE_eq_some_iff.mpr ⟨_, _, h _ (by omega), h _ (by omega), ?_⟩
  rw [spkFrameWord, show 2 + 2 * i + 1 = 3 + 2 * i by omega]

/-- A word in BUF carries the channel the frame's word carries (R162). -/
theorem spkCarries_iff {s : State} {f : List Byte} (h : ∀ a < 16, s.bufRead a = some (f.getD a 0)) {i : Nat}
    (hi : i < 7) (ch : Nibble) : SpkCarries f i ch ↔ spkWordChannel? s (spkFrameRes11 f) i = some ch := by
  rw [spkWordChannel?_eq_some_iff, bufWordBE_of_frame h hi]
  constructor
  · rintro ⟨-, h15, rfl⟩
    exact ⟨_, rfl, h15, rfl⟩
  · rintro ⟨w, hw, h15, rfl⟩
    obtain rfl := Option.some.inj hw
    exact ⟨hi, h15, rfl⟩

/-- A whole Spektrum frame that carries a channel, and none twice, is published (R158–R163). -/
theorem execAll_spektrumFrame {s : State} {t0 : Tick} {ts : List Tick} {f : List Byte} (hi : Inv s)
    (hp : s.proto = .spektrum) (hf : f.length = 16) (hts : ts.length = 15) (hstart : StartsFrame .spektrum t0 s)
    (hquiet : Unbroken s.par .spektrum t0 ts) (hcarries : ∃ i ch, SpkCarries f i ch)
    (honce : ∀ i j ch, SpkCarries f i ch → SpkCarries f j ch → i = j) :
    ∃ u, execAll (rxTimed f (t0 :: ts)) s = .next u ∧ SpkPublishes f (ts.getLastD t0) s u := by
  obtain ⟨bs, last, rfl⟩ : ∃ bs last, f = bs ++ [last] :=
    (List.eq_nil_or_concat' f).resolve_left fun h => by simp [h] at hf
  have hbs : bs.length = 15 := by simpa using hf
  obtain ⟨v, hv, hc, hrun⟩ := execAll_frame (last := last) hi (by rw [hp]; rfl) hstart hquiet hbs (hts.trans hbs.symm)
  rw [hbs] at hv
  have hx : v.proto = .spektrum := hv.proto.trans hp
  have hcap := hv.inv.parValid.bufCap_ge
  have hbytes : ∀ a < 16, (v.bufWrite 15 last).bufRead a = some ((bs ++ [last]).getD a 0) := fun a ha => by
    rcases Nat.lt_or_eq_of_le (Nat.le_of_lt_succ ha) with hlt | rfl
    · rw [State.bufRead_bufWrite_other last hv.inv.bufWf (Nat.ne_of_lt hlt), hv.bytes a hlt,
        List.getD_append _ _ _ _ (hbs ▸ hlt)]
    · rw [State.bufRead_bufWrite_same last hv.inv.bufWf (by omega),
        List.getD_append_right _ _ _ _ (Nat.le_of_eq hbs), hbs]
      rfl
  have hword {i : Nat} (h7 : i < 7) := bufWordBE_of_frame hbytes h7
  have hchannel {i : Nat} (h7 : i < 7) (ch : Nibble) := spkCarries_iff hbytes h7 ch
  obtain ⟨loss, second, -, hsecond, -, hcommit⟩ := spektrumFrameOutcome last _ v hv.inv hx hc hv.parseDone
    (BitVec.eq_of_toNat_eq hv.count)
  have hres : second.getLsbD 4 = spkFrameRes11 (bs ++ [last]) := by
    rw [hv.bytes 1 (by decide), Option.some.injEq, ← List.getD_append bs [last] 0 1 (by omega)] at hsecond
    rw [← hsecond, spkFrameRes11]
  rw [hres] at hcommit
  obtain ⟨i, ch, hcarry⟩ := hcarries
  obtain ⟨raw, hexec, hrawLen, hmapped, hother⟩ := hcommit ⟨i, hcarry.1, fun hnone =>
    Option.some_ne_none ch (((hchannel hcarry.1 ch).mp hcarry).symm.trans hnone)⟩
  have hu := hrun.trans hexec
  rw [hv.order] at hmapped hother
  refine ⟨_, hu, exec_keeps_inv hv.inv hexec, hv.par, hv.proto, hv.order, rfl, congrArg (· + 1) hv.commitCnt, rfl,
    ?mapped, ?other⟩
  case mapped =>
    intro i c ch hcarry hremap
    have h7 := hcarry.1
    refine raw?_eq_some_iff.mpr ⟨(congrArg Params.nCh hv.par) ▸ remap_lt_nCh hi hremap, ?_⟩
    refine (hmapped i c ch _ h7 ((hchannel h7 ch).mp hcarry) (hword h7) (fun j hij hj7 he => ?_) hremap).trans ?_
    · exact Nat.ne_of_lt hij (honce i j ch hcarry ((hchannel hj7 ch).mpr he))
    · rw [hv.par]
      rfl
  case other =>
    intro c hc
    exact raw?_congr hv.par ((hother c fun i h7 ch he => hc i ch ((hchannel h7 ch).mpr he)).trans (by rw [hv.raw]))

/-- Settles O39: each frame is published by its own run, and leaves the other's channels since the table is valid. -/
theorem spektrumDualFrame : Obligations.SpektrumDualFrame := by
  intro s tA tB tsA tsB fA fB hi hp hA hB htsA htsB hstart hquietA hquietB hsilence hcarA hcarB honceA honceB hdisjoint
  obtain ⟨v, hv, hpubA⟩ := execAll_spektrumFrame hi hp hA htsA hstart hquietA hcarA honceA
  have hstartB : StartsFrame .spektrum tB v := .inl (by rw [hpubA.par, hpubA.lastByteT]; exact hsilence)
  obtain ⟨u, hu, hpubB⟩ := execAll_spektrumFrame hpubA.inv (hpubA.proto.trans hp) hB htsB hstartB
    (hpubA.par.symm ▸ hquietB) hcarB honceB
  have hmappedB := hpubB.mapped
  have hotherB := hpubB.other
  rw [hpubA.par, hpubA.order] at hmappedB
  rw [hpubA.order] at hotherB
  have hvalid : OrderValid s.order := hi.enabledOrderValid (by rw [hp]; decide)
  refine ⟨u, ?run, ?commitCnt, hpubB.fr, fun i c ch hcarry hremap => ?first, hmappedB, fun c hc => ?neither⟩
  case run => rw [execAll_append, hv]; exact hu
  case commitCnt => rw [hpubB.commitCnt, hpubA.commitCnt, add_assoc]; rfl
  case first =>
    rw [hotherB c fun j ch' hcarry' hremap' => ?_, hpubA.mapped i c ch hcarry hremap]
    obtain rfl : ch = ch' := BitVec.eq_of_toNat_eq (remap_inj hvalid hremap hremap')
    exact hdisjoint i j ch hcarry hcarry'
  case neither =>
    rw [hotherB c fun i ch h => hc i ch (.inr h), hpubA.other c fun i ch h => hc i ch (.inl h)]

end Sys2Proof.Machine

/-! # The transforms (O43, O44, O36, O37)

Every law is read off the affine value before truncation: shifting the input by a whole number of scale steps shifts the
value by that number (`affine_add_le`), and truncation keeps the value modulo 65536 (`transform_toNat`). -/

namespace Sys2Proof.Machine

/-- Every scale of valid parameters is valid (R187). -/
theorem ratioOf_valid {par : Params} (hp : par.Valid) (p : Codec) : (ratioOf par p).Valid := by
  cases p with
  | xtreme => exact hp.ratioXtreme_valid
  | sbus => exact hp.ratioSbus_valid
  | spk10 => exact hp.ratioSpk10_valid
  | spk11 => exact hp.ratioSpk11_valid

/-- With valid parameters the floor of R182 divides by a positive number (R187). -/
theorem ratioOf_den_pos {par : Params} (hp : par.Valid) (p : Codec) : (0 : Int) < (ratioOf par p).den :=
  Int.natCast_pos.mpr (ratioOf_valid hp p).2

/-- Truncation keeps the value modulo 65536 (R182). -/
theorem transform_toNat (par : Params) (p : Codec) (v : Nat) :
    ((transform par p v).toNat : Int) = affine par p v % 65536 := by
  rw [transform, BitVec.toNat_ofInt]
  exact Int.toNat_of_nonneg (Int.emod_nonneg _ (by decide))

/-- Two inputs have one pattern exactly if their values agree modulo 65536 (R182). -/
theorem transform_eq_iff {par : Params} {p : Codec} {v w : Nat} :
    transform par p v = transform par p w ↔ affine par p v % 65536 = affine par p w % 65536 := by
  rw [← transform_toNat, ← transform_toNat, Int.natCast_inj, BitVec.toNat_inj]

/-- Inputs that are `k` scale steps apart, or more, have values that are `k` apart, or more. -/
theorem affine_add_le {par : Params} {p : Codec} (hden : (0 : Int) < (ratioOf par p).den) {v w : Nat} {k : Int}
    (h : v * (ratioOf par p).num + k * (ratioOf par p).den ≤ w * (ratioOf par p).num) :
    affine par p v + k ≤ affine par p w := by
  unfold affine
  generalize (ratioOf par p).num = num at h ⊢
  generalize ((ratioOf par p).den : Int) = den at h hden ⊢
  have hscaled : (v - Config.cIn p : Int) * num + k * den ≤ (w - Config.cIn p : Int) * num := by
    rw [sub_mul, sub_mul]
    omega
  have hfloor := Int.ediv_le_ediv hden hscaled
  rw [Int.add_mul_ediv_right _ _ hden.ne'] at hfloor
  omega

/-- The value does not fall when the input rises (R185). -/
theorem affine_mono {par : Params} (hp : par.Valid) (p : Codec) {v w : Nat} (h : v ≤ w) :
    affine par p v ≤ affine par p w := by
  have hscaled : (v : Int) * (ratioOf par p).num ≤ w * (ratioOf par p).num := by gcongr
  simpa using affine_add_le (ratioOf_den_pos hp p) (k := 0) (by simpa using hscaled)

/-- The centre of the input goes to the centre of the output (R185). -/
theorem affine_cIn (par : Params) (p : Codec) : affine par p (Config.cIn p) = 3750 := by
  rw [affine, sub_self, zero_mul, Int.zero_ediv]
  rfl

/-- Settles O43: the quotient is the one of `affine`, since DEN is positive. -/
theorem transformIsAffineFloor : Obligations.TransformIsAffineFloor := by
  intro par p v hp centre r
  have hden := ratioOf_den_pos hp p
  have hcentre : centre = Config.cIn p := by cases p <;> rfl
  refine ⟨(v - centre) * r.num / r.den, Int.ediv_mul_le _ hden.ne', Int.lt_ediv_add_one_mul_self _ hden, ?_⟩
  rw [transform_toNat, hcentre, affine]
  rfl

/-- Settles O44: by the centre's value, and by the monotone value, which truncation leaves as it is. -/
theorem transformCentreAndMonotone : Obligations.TransformCentreAndMonotone := by
  constructor
  · intro par p
    rw [transform, affine_cIn]
    rfl
  · intro par p v w hp hvw hlow hhigh
    have hmono := affine_mono hp p hvw
    have hv := transform_toNat par p v
    have hw := transform_toNat par p w
    rw [Int.emod_eq_of_lt hlow (by omega)] at hv
    rw [Int.emod_eq_of_lt (by omega) hhigh] at hw
    omega

/-- With NUM ≥ DEN and 2047 NUM ≤ 65535 DEN two inputs below 2048 are at least as far apart after the transform as
before, and less than 65536 (R187, log 17). -/
theorem affine_sbus_apart {par : Params} (hp : par.Valid) (hexpands : par.ratioSbus.den ≤ par.ratioSbus.num)
    (hbound : 2047 * par.ratioSbus.num ≤ 65535 * par.ratioSbus.den) {v w : Nat} (hvw : v ≤ w) (hw : w < 2048) :
    affine par .sbus v + (w - v) ≤ affine par .sbus w ∧ affine par .sbus w ≤ affine par .sbus v + 65535 := by
  have hden := ratioOf_den_pos hp .sbus
  obtain ⟨d, rfl⟩ := Nat.exists_eq_add_of_le hvw
  have hlow : d * par.ratioSbus.den ≤ d * par.ratioSbus.num := Nat.mul_le_mul_left d hexpands
  have hhigh : d * par.ratioSbus.num ≤ 65535 * par.ratioSbus.den :=
    (Nat.mul_le_mul_right _ (by omega : d ≤ 2047)).trans hbound
  zify at hlow hhigh
  constructor
  · refine affine_add_le hden ?_
    simp only [ratioOf, Nat.cast_add, add_sub_cancel_left, add_mul]
    omega
  · have hstep := affine_add_le hden (v := v + d) (w := v) (k := -65535) (by
      simp only [ratioOf, Nat.cast_add, add_mul]
      omega)
    omega

/-- Settles O37: values less than 65536 apart that agree modulo 65536 are equal, and so are their inputs. -/
theorem sbusInjectiveUnderTighterBound : Obligations.SbusInjectiveUnderTighterBound := by
  intro par v w hp hexpands hbound hv hw h
  rw [transform_eq_iff] at h
  rcases Nat.le_total v w with hvw | hwv
  · have := affine_sbus_apart hp hexpands hbound hvw hw
    omega
  · have := affine_sbus_apart hp hexpands hbound hwv hv
    omega

/-- Parameters at the edge of R187's condition: 2047 NUM/DEN is just below 65536 (log 17). -/
def edgeScaleParams : Params := { Config.exampleParams with ratioSbus := ⟨3201563, 100000⟩ }

theorem edgeScaleParams_valid : edgeScaleParams.Valid := by constructor <;> decide

/-- The inputs 0 and 2047 are 65536 apart before truncation: the floor rounds the lower one down. -/
theorem affine_edgeScale :
    affine edgeScaleParams .sbus 0 = -29035 ∧ affine edgeScaleParams .sbus 2047 = 36501 := by decide

/-- Refutes O36: at the edge of the condition the inputs 0 and 2047 have one pattern. -/
theorem not_sbusInjectiveUnderStatedBound : ¬ Obligations.SbusInjectiveUnderStatedBound := by
  intro h
  have hsame : transform edgeScaleParams .sbus 0 = transform edgeScaleParams .sbus 2047 := by
    rw [transform_eq_iff, affine_edgeScale.1, affine_edgeScale.2]
    rfl
  exact absurd (h edgeScaleParams 0 2047 edgeScaleParams_valid (by decide) (by decide) (by decide) (by decide) hsame)
    (by decide)

end Sys2Proof.Machine

/-! # The commit in the record (O40)

A step begins with nothing committed (`Uncommitted`). Its parts keep that until one of them commits, and none does more
than record after that (`Accounted`). -/

namespace Sys2Proof.Machine

/-- The step that began in `s` has not committed so far, and `v` shows none (R33, R84, R186). -/
structure Uncommitted (s v : State) : Prop where
  recorded : v.out = some v.record
  strobe : v.record.strobe = false
  tags : v.record.tags.count .commit = 0
  commitCnt : v.commitCnt = s.commitCnt
  fr : v.fr = true → s.fr = true

/-- The step that began in `s` has committed once, and `v` shows it (R33, R84, R186). -/
structure CommittedOnce (s v : State) : Prop where
  recorded : v.out = some v.record
  strobe : v.record.strobe = true
  tags : v.record.tags.count .commit = 1
  commitCnt : v.commitCnt = s.commitCnt + 1
  fr : v.fr = true

/-- What `v` shows of the commits of the step that began in `s` is consistent (R33, R186). -/
def Accounted (s v : State) : Prop := Uncommitted s v ∨ CommittedOnce s v

section
variable {s v u : State}

/-- States with one output have one record. -/
theorem State.record_congr (h : u.out = v.out) : u.record = v.record := congrArg (Option.getD · Output.empty) h

theorem Uncommitted.begin (s : State) : Uncommitted s s.begin := ⟨rfl, rfl, rfl, rfl, id⟩

/-- Only the record, COMMIT_CNT and FR matter. -/
theorem Uncommitted.of_kept (h : Uncommitted s v) (hout : u.out = v.out := by rfl)
    (hcnt : u.commitCnt = v.commitCnt := by rfl) (hfr : u.fr = v.fr := by rfl) : Uncommitted s u := by
  have hrecord := State.record_congr hout
  exact ⟨by rw [hout, hrecord, h.recorded], hrecord ▸ h.strobe, hrecord ▸ h.tags, hcnt.trans h.commitCnt,
    fun hu => h.fr (hfr ▸ hu)⟩

/-- Any tag but COMMIT may be emitted without a commit. -/
theorem Uncommitted.emit (h : Uncommitted s v) {g : Tag} (hg : g ≠ .commit) : Uncommitted s (v.emit g) where
  recorded := rfl
  strobe := h.strobe
  tags := by rw [State.emit_record, List.count_append, h.tags, List.count_singleton, if_neg (by simpa using hg)]
  commitCnt := h.commitCnt
  fr := h.fr

/-- A read's answer is no commit. -/
theorem Uncommitted.answer (h : Uncommitted s v) (r : Ret) : Uncommitted s (v.answer r) :=
  ⟨rfl, h.strobe, h.tags, h.commitCnt, h.fr⟩

/-- FR_CLR lowers FR without a commit (R207). -/
theorem Uncommitted.clearFr (h : Uncommitted s v) : Uncommitted s { v with fr := false } :=
  ⟨h.recorded, h.strobe, h.tags, h.commitCnt, fun hfr => absurd hfr Bool.false_ne_true⟩

/-- A commit shows in the strobe, the count, FR and the tag (R186). -/
theorem Uncommitted.commit (h : Uncommitted s v) (st : Stage) : CommittedOnce s (v.commit st) where
  recorded := rfl
  strobe := rfl
  tags := by rw [State.commit_record, List.count_append, h.tags, List.count_singleton_self]
  commitCnt := congrArg (· + 1) h.commitCnt
  fr := rfl

/-- Only the record, COMMIT_CNT and FR matter. -/
theorem CommittedOnce.of_kept (h : CommittedOnce s v) (hout : u.out = v.out := by rfl)
    (hcnt : u.commitCnt = v.commitCnt := by rfl) (hfr : u.fr = v.fr := by rfl) : CommittedOnce s u := by
  have hrecord := State.record_congr hout
  exact ⟨by rw [hout, hrecord, h.recorded], hrecord ▸ h.strobe, hrecord ▸ h.tags, hcnt.trans h.commitCnt,
    hfr.trans h.fr⟩

/-! ## The parts of a serial byte -/

/-- The completion of an Xtreme frame (R142). -/
theorem xtComplete_accounted {b : Byte} (h : Uncommitted s v) (hc : xtComplete b v = some u) : Accounted s u := by
  rcases xtComplete_cases hc with ⟨-, rfl⟩ | ⟨-, -, rfl⟩ | ⟨-, -, -, rfl⟩ | ⟨-, -, -, st, -, rfl⟩
  · exact .inl (h.emit (by decide))
  · exact .inl (h.emit (by decide))
  · exact .inl (h.emit (by decide))
  · exact .inr (h.commit st)

/-- The completion of an S-Bus frame (R150). -/
theorem sbusComplete_accounted {b : Byte} (h : Uncommitted s v) (hc : sbusComplete b v = some u) : Accounted s u := by
  rcases sbusComplete_cases hc with ⟨-, rfl⟩ | ⟨-, flags, -, ⟨-, rfl⟩ | ⟨-, data, -, rfl⟩⟩
  · exact .inl (h.emit (by decide))
  · exact .inl (h.emit (by decide))
  · exact .inr (h.of_kept.commit _)

/-- The loss counter's part of a Spektrum completion commits nothing (R159). -/
theorem Uncommitted.spkLoss (h : Uncommitted s v) (loss : Byte) : Uncommitted s (spkLoss loss v) := by
  unfold Machine.spkLoss
  split
  · exact h.of_kept.emit (by decide)
  · exact h.of_kept

/-- The completion of a Spektrum frame (R158). -/
theorem spkComplete_accounted (h : Uncommitted s v) (hc : spkComplete v = some u) : Accounted s u := by
  obtain ⟨loss, second, st, any, -, -, -, rfl⟩ := spkComplete_cases hc
  cases any
  · exact .inl ((h.spkLoss loss).of_kept.emit (by decide))
  · exact .inr ((h.spkLoss loss).of_kept.commit st)

/-- A parser commits at most once (R140, R141). -/
theorem parse_accounted {p : SerialProto} {k b : Byte} (h : Uncommitted s v) (hparse : parse p k b v = some u) :
    Accounted s u := by
  cases p with
  | xtreme =>
    rcases parseXtreme_cases hparse with ⟨-, rfl⟩ | ⟨-, -, rfl⟩ | ⟨-, -, hc⟩
    · exact .inl h
    · exact .inl h.of_kept
    · exact xtComplete_accounted (v := { xtHeader k b v with parseDone := true }) h.of_kept hc
  | sbus =>
    rcases parseSbus_cases hparse with ⟨-, rfl⟩ | ⟨-, -, hc⟩
    · exact .inl h
    · exact sbusComplete_accounted (v := { v with parseDone := true }) h.of_kept hc
  | spektrum =>
    rcases parseSpektrum_cases hparse with ⟨-, rfl⟩ | ⟨-, -, hc⟩
    · exact .inl h
    · exact spkComplete_accounted (v := { v with parseDone := true }) h.of_kept hc

/-- The gap test of a byte commits nothing (R121, R122). -/
theorem Uncommitted.frameGap (h : Uncommitted s v) (p : SerialProto) (t : Tick) : Uncommitted s (frameGap p t v) := by
  unfold Machine.frameGap
  split
  · exact h.of_kept.emit (by decide)
  · exact h.of_kept

/-- The append of a byte commits nothing (R123). -/
theorem Uncommitted.appendByte (h : Uncommitted s v) (b : Byte) : Uncommitted s (appendByte b v) := by
  unfold Machine.appendByte
  split
  · exact h.of_kept
  · exact h.emit (by decide)

/-- A byte in a serial mode commits in its parser only (R120). -/
theorem rxByte_accounted {p : SerialProto} {b : Byte} {t : Tick} (h : Uncommitted s v)
    (hrx : rxByte p b t v = some u) : Accounted s u := by
  obtain ⟨parsed, hparse, rfl⟩ := rxByte_eq_some_iff.mp hrx
  exact (parse_accounted ((h.frameGap p t).appendByte b) hparse).imp (·.of_kept) (·.of_kept)

/-! ## The parts of a CPPM edge -/

/-- The slot part commits nothing (R105). -/
theorem Uncommitted.cppmSlot (h : Uncommitted s v) (gap : Tick) : Uncommitted s (cppmSlot gap v) := by
  unfold Machine.cppmSlot
  split
  · exact h.of_kept.emit (by decide)
  split
  · split
    · exact h.of_kept.emit (by decide)
    · exact h
  · exact h

/-- The overdue check commits nothing (R109). -/
theorem Uncommitted.cppmRelearn (h : Uncommitted s v) : Uncommitted s (cppmRelearn v) := by
  unfold Machine.cppmRelearn
  split
  · exact h.of_kept.emit (by decide)
  · exact h

/-- The last part may commit (R110, R111). -/
theorem cppmComplete_accounted (h : Uncommitted s v) (saturated : Bool) : Accounted s (cppmComplete saturated v) := by
  unfold cppmComplete
  split
  · exact .inl (h.emit (by decide))
  split
  · exact .inl (h.of_kept.emit (by decide))
  split
  · exact .inr (h.commit _)
  · exact .inl h

/-- A CPPM edge commits in its last part only (R105). -/
theorem cppmEdge_accounted (h : Uncommitted s v) (t : Tick) : Accounted s (cppmEdge t v) := by
  have hslot : Uncommitted s (cppmSlot (elapsed t v.cppmLast) { v with cppmLast := t }) :=
    Uncommitted.cppmSlot h.of_kept _
  exact cppmComplete_accounted (Uncommitted.cppmRelearn hslot.of_kept) _

end

/-! ## Every operation -/

/-- An operation that completes accounts for its commits (R186). -/
theorem exec_accounted {i : Instr} {s u : State} (h : exec i s = .next u) : Accounted s u := by
  have hbegin : Uncommitted s s.begin := .begin s
  cases i with
  | pwmRise ch t =>
    obtain ⟨-, ⟨-, rfl⟩ | ⟨-, rfl⟩⟩ := execPwmRise_cases h
    · exact .inl (hbegin.of_kept.emit (by decide))
    · exact .inl (hbegin.emit (by decide))
  | pwmFall ch t =>
    obtain ⟨rise, -, ⟨-, -, rfl⟩ | ⟨-, -, rfl⟩ | ⟨-, rfl⟩⟩ := execPwmFall_cases h
    · exact .inr ((hbegin.of_kept.emit (by decide)).commit _)
    · exact .inl (hbegin.of_kept.emit (by decide))
    · exact .inl (hbegin.emit (by decide))
  | cppmEdge t =>
    obtain ⟨-, rfl⟩ | ⟨-, rfl⟩ := execCppmEdge_cases h
    · exact cppmEdge_accounted hbegin t
    · exact .inl (hbegin.emit (by decide))
  | rxByte b t =>
    obtain ⟨-, rfl⟩ | ⟨p, -, hrx⟩ := execRxByte_cases h
    · exact .inl (hbegin.emit (by decide))
    · exact rxByte_accounted hbegin hrx
  | cfg p => obtain ⟨-, rfl⟩ | ⟨-, rfl⟩ := execCfg_cases h <;> exact .inl (hbegin.of_kept.emit (by decide))
  | ordWr w c => obtain ⟨-, rfl⟩ | ⟨-, rfl⟩ := execOrdWr_cases h <;> exact .inl (hbegin.of_kept.emit (by decide))
  | chRd c => obtain ⟨v, -, rfl⟩ := execChRd_cases h; exact .inl (hbegin.answer _)
  | tmrRd t => cases h; exact .inl (hbegin.answer _)
  | ordRd w => cases h; exact .inl (hbegin.answer _)
  | frClr => cases h; exact .inl hbegin.clearFr
  | overdue => cases h; exact .inl hbegin.of_kept
  | stRd => cases h; exact .inl (hbegin.answer _)

/-- Settles O40: the step shows no commit or one, and the strobe says which. -/
theorem strobeCountsCommits : Obligations.StrobeCountsCommits := by
  intro i s t h
  obtain hnone | honce := exec_accounted h
  · exact ⟨_, hnone.recorded, fun hstrobe => absurd (hstrobe.symm.trans hnone.strobe) (by decide),
      fun _ => ⟨hnone.commitCnt, hnone.fr, hnone.tags⟩⟩
  · exact ⟨_, honce.recorded, fun _ => ⟨honce.commitCnt, honce.fr, honce.tags⟩,
      fun hstrobe => absurd (hstrobe.symm.trans honce.strobe) (by decide)⟩

end Sys2Proof.Machine

/-! # The S-Bus round trip (O35)

The packed bytes hold the values' bits in the order of the stream (`sbusStreamBit_sbusPack`), so the field that byte 24's
completion publishes for a wire channel is the value packed for it. -/

namespace Sys2Proof.Machine

/-! ## The packed frame -/

/-- Bit `i` of the stream of sixteen 11-bit values: bit `i mod 11` of value `floor(i/11)` (R52, R188). -/
def sbusValueBit (x : Fin 16 → BitVec 11) (i : Nat) : Bool := (x (Fin.ofNat 16 (i / 11))).getLsbD (i % 11)

theorem sbusPack_length (x : Fin 16 → BitVec 11) : (sbusPack x).length = 22 := by
  rw [sbusPack, List.length_map, List.length_range]

/-- Bit `m` of packed byte `i` is bit `8i + m` of the stream (R188). -/
theorem sbusPack_getLsbD (x : Fin 16 → BitVec 11) {i m : Nat} (hi : i < 22) (hm : m < 8) :
    ((sbusPack x).getD i 0).getLsbD m = sbusValueBit x (8 * i + m) := by
  have hbyte : (sbusPack x).getD i 0 = BitVec.ofNat 8 (Nat.ofBits fun k : Fin 8 => sbusValueBit x (8 * i + k)) := by
    rw [← sum_shiftLeft_eq_ofBits (fun k => sbusValueBit x (8 * i + k)) 8]
    simp only [sbusPack, List.getD_eq_getElem?_getD, List.getElem?_map, List.getElem?_range hi, Option.map_some,
      Option.getD_some, sbusValueBit]
  rw [hbyte, BitVec.getLsbD_ofNat, Nat.testBit_ofBits_lt _ _ hm, decide_eq_true hm, Bool.true_and]

/-- Unpacking inverts packing, bit by bit (R52, R188). -/
theorem sbusStreamBit_sbusPack (x : Fin 16 → BitVec 11) {i : Nat} (hi : i < 176) :
    sbusStreamBit (sbusPack x) i = sbusValueBit x i := by
  rw [sbusStreamBit, sbusPack_getLsbD x (by omega) (Nat.mod_lt _ (by decide)), Nat.div_add_mod]

/-- The stream bits of field `j` are those of value `j` (R52). -/
theorem sbusValueBit_field (x : Fin 16 → BitVec 11) (j : Fin 16) {k : Nat} (hk : k < 11) :
    sbusValueBit x (11 * j + k) = (x j).getLsbD k := by
  have hj : Fin.ofNat 16 ((11 * j + k) / 11) = j := Fin.ext (by simp only [Fin.val_ofNat]; omega)
  rw [sbusValueBit, hj, show (11 * (j : Nat) + k) % 11 = k by omega]

/-- An S-Bus frame without its end byte (R188). -/
def sbusPayload (x : Fin 16 → BitVec 11) : List Byte := 0xF0 :: (sbusPack x ++ [0x00])

theorem sbusFrame_eq (x : Fin 16 → BitVec 11) : sbusFrame x = sbusPayload x ++ [0x00] := by
  rw [sbusFrame, sbusPayload, List.cons_append, List.append_assoc]
  rfl

theorem sbusPayload_length (x : Fin 16 → BitVec 11) : (sbusPayload x).length = 24 := by
  rw [sbusPayload, List.length_cons, List.length_append, sbusPack_length]
  rfl

/-- The data bytes of the frame are BUF[1..22] (R52). -/
theorem sbusPayload_getD_data (x : Fin 16 → BitVec 11) {i : Nat} (hi : i < 22) :
    (sbusPayload x).getD (1 + i) 0 = (sbusPack x).getD i 0 := by
  rw [sbusPayload, Nat.add_comm, List.getD_cons_succ, List.getD_append _ _ _ _ (by rwa [sbusPack_length])]

/-- The flags byte of the frame is BUF[23] (R154, R188). -/
theorem sbusPayload_getD_flags (x : Fin 16 → BitVec 11) : (sbusPayload x).getD 23 0 = 0x00 := by
  have hlen := sbusPack_length x
  rw [sbusPayload, List.getD_cons_succ, List.getD_append_right _ _ _ _ (by omega), hlen]
  rfl

/-- The stream bits of the frame in BUF are those of the values packed into it (R52, R188). -/
theorem Receiving.bufStreamBit {x : Fin 16 → BitVec 11} {s₀ s : State} (h : Receiving s₀ (sbusPayload x) 24 s) {i : Nat}
    (hi : i < 176) : bufStreamBit s i = sbusValueBit x i := by
  rw [Machine.bufStreamBit, h.frameByte (by omega), sbusPayload_getD_data x (by omega), ← sbusStreamBit_sbusPack x hi,
    sbusStreamBit]

/-! ## The frame's run -/

/-- The run of a whole frame after silence, or with the frame open and empty, is the step of its last byte. Here the
Xtreme registers need not be idle (`execAll_frame` asks it): in an open Xtreme frame they follow from the invariant, and
no other parser reads them. -/
theorem execAll_frame_of_empty {p : SerialProto} {s : State} {t0 : Tick} {ts : List Tick} {bs : List Byte} {last : Byte}
    (hi : Inv s) (hp : serialOf s.proto = some p)
    (hstart : silenceTicks s.par p < (elapsed t0 s.lastByteT).toNat ∨ (s.byteCount = 0 ∧ s.parseDone = false))
    (hquiet : Unbroken s.par p t0 ts) (hlast : bs.length = lastIndex p bs) (hlen : ts.length = bs.length) :
    ∃ v, Receiving s bs bs.length v ∧ ContinuesFrame p (ts.getLastD t0) v ∧
      execAll (rxTimed (bs ++ [last]) (t0 :: ts)) s = exec (.rxByte last (ts.getLastD t0)) v := by
  rcases Nat.lt_or_ge (silenceTicks s.par p) (elapsed t0 s.lastByteT).toNat with hsilence | hgap
  · exact execAll_frame hi hp (.inl hsilence) hquiet hlast hlen
  · obtain ⟨hcount, hopen⟩ := hstart.resolve_left (Nat.not_lt.mpr hgap)
    have hempty : Receiving s bs 0 s :=
      ⟨hi, rfl, rfl, rfl, rfl, rfl, rfl, hopen, congrArg BitVec.toNat hcount, fun i h => absurd h (Nat.not_lt_zero i)⟩
    have hrun := hempty.run (ts := t0 :: ts) (last := last) hp hlast (by simp [hlen]) (Nat.zero_le _) ⟨hgap, hquiet⟩
    rwa [List.getLastD_cons, List.drop_zero] at hrun

/-- Settles O35: the end byte's step publishes the fields in BUF, which are the values packed; where the transform is
injective (`sbusInjectiveUnderTighterBound`), each is the only one that its channel can stand for. -/
theorem sbusRoundTrip : Obligations.SbusRoundTrip := by
  intro s t0 ts x hi hp hend hquiet hts hstart
  have hlen := sbusPayload_length x
  obtain ⟨v, hv, hc, hrun⟩ := execAll_frame_of_empty (p := .sbus) (last := 0x00) hi (by rw [hp]; rfl) hstart hquiet hlen
    (hts.trans hlen.symm)
  rw [hlen] at hv
  obtain ⟨-, flags, hflags, -, hgood⟩ := sbusFrameOutcome 0x00 _ v hv.inv (hv.proto.trans hp) hc hv.parseDone
    (BitVec.eq_of_toNat_eq hv.count)
  obtain rfl : 0x00 = flags := by
    rw [← sbusPayload_getD_flags x]
    exact Option.some.inj ((hv.bytes 23 (by decide)).symm.trans hflags)
  obtain ⟨raw, hexec, -, hmapped, -⟩ := hgood (by rw [hv.par, hend]) (by decide)
  have hpublished (j : Fin 16) (c : Nat) (hj : remap s.order j = some c) :
      raw[c]? = some (transform s.par .sbus (x j).toNat) := by
    obtain ⟨f, hf, hbits, hraw⟩ := hmapped j c (by rw [hv.order, hj])
    have hword : BitVec.ofNatLT (w := 11) f hf = x j := BitVec.eq_of_getLsbD_eq fun k hk => by
      rw [BitVec.getLsbD_ofNatLT, hbits k hk, hv.bufStreamBit (by omega), sbusValueBit_field x j hk]
    have hfield : f = (x j).toNat := congrArg BitVec.toNat hword
    rw [hraw, hfield, hv.par]
  have hread (j : Fin 16) (c : Nat) (hj : remap s.order j = some c) :
      State.raw? { v with raw := raw } c = some (transform s.par .sbus (x j).toNat) :=
    raw?_eq_some_iff.mpr ⟨(congrArg Params.nCh hv.par) ▸ remap_lt_nCh hi hj, hpublished j c hj⟩
  refine ⟨_, hrun.trans hexec, congrArg (· + 1) hv.commitCnt, rfl, rfl, hread, fun hexpands hbound j c w hj hw hsame => ?_⟩
  have htransform : transform s.par .sbus w = transform s.par .sbus (x j).toNat :=
    Option.some.inj (hsame.symm.trans (hread j c hj))
  exact sbusInjectiveUnderTighterBound s.par w _ hi.parValid hexpands hbound hw (x j).isLt htransform

end Sys2Proof.Machine

/-! # Inactive sources, sizes and an interleaved CONFIGURE (O10, O12, O56)

Who writes each register is said once (`registerWriters`): an inactive source's registers have no writer left but CFG,
which clears them, and the frame boundary of another serial mode, which clears the Xtreme ones. -/

namespace Sys2Proof.Machine

/-! ## The registers of the inactive sources -/

/-- CFG leaves every source's registers as Flush does, whichever it selects (R203, R204). -/
theorem execCfg_inactiveIdle {p : Proto} {s u : State} (h : exec (.cfg p) s = .next u) : InactiveIdle u := by
  have hflushed : ∀ q err g, InactiveIdle (s.reselected q err g) := fun _ _ _ =>
    ⟨fun _ => ⟨rfl, rfl, rfl⟩, fun _ => ⟨rfl, rfl, rfl, rfl⟩, fun _ => rfl, fun _ => ⟨rfl, rfl, rfl, rfl⟩,
      fun _ => ⟨rfl, rfl, rfl⟩⟩
  obtain ⟨-, rfl⟩ | ⟨-, rfl⟩ := execCfg_cases h <;> rw [flush_eq_reselected] <;> exact hflushed _ _ _

/-- Registers that are kept stay idle (R41). -/
theorem XtremeIdle.of_kept {s t : State} (h : XtremeIdle s) (hk : XtremeKept s t) : XtremeIdle t :=
  ⟨hk.xtSum.trans h.xtSum, hk.xtPoison.trans h.xtPoison, hk.xtMask.trans h.xtMask, hk.xtLen.trans h.xtLen⟩

/-- The reception of a byte up to its parser writes the Xtreme registers by clearing them only (R121–R123). -/
theorem XtremeIdle.received {s : State} (h : XtremeIdle s) (p : SerialProto) (b : Byte) (t : Tick) :
    XtremeIdle (appendByte b (frameGap p t s)) := by
  constructor <;> simp only [appendByte_eq, frameGap_eq, h.xtSum, h.xtPoison, h.xtMask, h.xtLen, ite_self]

/-- A byte of another serial mode leaves idle Xtreme registers idle (R41, R122). -/
theorem rxByte_xtremeIdle {p : SerialProto} {b : Byte} {t : Tick} {s u : State} (hp : p ≠ .xtreme) (hs : XtremeIdle s)
    (h : rxByte p b t s = some u) : XtremeIdle u := by
  obtain ⟨parsed, hparse, rfl⟩ := rxByte_eq_some_iff.mp h
  have hparsed : XtremeIdle parsed :=
    (hs.received p b t).of_kept ((parse_writes hparse).xtreme.resolve_right hp)
  exact ⟨hparsed.xtSum, hparsed.xtPoison, hparsed.xtMask, hparsed.xtLen⟩

/-- RX_BYTE leaves idle Xtreme registers idle outside the Xtreme mode (R232). -/
theorem execRxByte_xtremeIdle {b : Byte} {t : Tick} {s u : State} (hp : s.proto ≠ .xtreme) (hs : XtremeIdle s)
    (h : exec (.rxByte b t) s = .next u) : XtremeIdle u := by
  have hbegin : XtremeIdle s.begin := hs.of_kept ⟨rfl, rfl, rfl, rfl⟩
  obtain ⟨-, rfl⟩ | ⟨p, hserial, hrx⟩ := execRxByte_cases h
  · exact hbegin.of_kept ⟨rfl, rfl, rfl, rfl⟩
  · refine rxByte_xtremeIdle ?_ hbegin hrx
    rintro rfl
    exact hp (by simpa [serialOf_eq_some_iff] using hserial)

section
variable {i : Instr} {s u : State} (hw : WritesByRule i s u) (hcfg : ¬IsCfg i)
include hw hcfg

/-- Outside the serial modes the assembler's registers stay idle (R120, R204). -/
theorem WritesByRule.serialIdle (hp : serialOf s.proto = none) (hs : SerialIdle s) : SerialIdle u := by
  have hserial : ¬IsSerialByte s i := fun ⟨_, hsome, _⟩ => Option.some_ne_none _ (hsome.symm.trans hp)
  have hwriter : ¬(IsCfg i ∨ IsSerialByte s i) := not_or.mpr ⟨hcfg, hserial⟩
  exact ⟨(not_ne_iff.mp (mt hw.lastByteT hwriter)).trans hs.lastByteT,
    (not_ne_iff.mp (mt hw.byteCount hwriter)).trans hs.byteCount,
    eq_false_of_ne_true (mt (hw.parseDoneRises hs.parseDone) hserial)⟩

/-- Outside the S-Bus mode SBUS_FS stays idle (R28). -/
theorem WritesByRule.sbusIdle (hp : s.proto ≠ .sbus) (hs : s.sbusFs = false) : u.sbusFs = false := by
  refine (not_ne_iff.mp (mt hw.sbusFs ?_)).trans hs
  rintro (h | ⟨⟨hserial, -⟩, -⟩)
  · exact hcfg h
  · exact hp (by simpa [serialOf_eq_some_iff] using hserial)

/-- Outside the Spektrum mode the Spektrum registers stay idle (R29, R30, R42). -/
theorem WritesByRule.spektrumIdle (hp : s.proto ≠ .spektrum) (hs : SpektrumIdle s) : SpektrumIdle u := by
  have hwriter : ¬(IsCfg i ∨ CompletesSpektrum s i u) := by
    rintro (h | ⟨⟨hserial, -⟩, -⟩)
    · exact hcfg h
    · exact hp (by simpa [serialOf_eq_some_iff] using hserial)
  exact ⟨(not_ne_iff.mp (mt hw.spkPrev hwriter)).trans hs.spkPrev,
    (not_ne_iff.mp (mt hw.spkPrevValid hwriter)).trans hs.spkPrevValid,
    (not_ne_iff.mp (mt hw.spkDrop hwriter)).trans hs.spkDrop,
    (not_ne_iff.mp (mt hw.spkRes11 hwriter)).trans hs.spkRes11⟩

/-- Outside the CPPM mode the CPPM registers stay idle (R35–R37). -/
theorem WritesByRule.cppmIdle (hp : s.proto ≠ .cppm) (hs : CppmIdle s) : CppmIdle u := by
  have hwriter : ¬(IsCfg i ∨ IsCppmEdge s i) := not_or.mpr ⟨hcfg, fun hedge => hp hedge.1⟩
  exact ⟨(not_ne_iff.mp (mt hw.cppmLast hwriter)).trans hs.cppmLast,
    (not_ne_iff.mp (mt hw.chNum hwriter)).trans hs.chNum,
    (not_ne_iff.mp (mt hw.maxChan hwriter)).trans hs.maxChan⟩

/-- An operation other than RX_BYTE leaves idle Xtreme registers idle (R41). -/
theorem WritesByRule.xtremeIdle (hrx : ¬IsSerialByte s i) (hs : XtremeIdle s) : XtremeIdle u := by
  have hwriter : ¬(IsCfg i ∨ StartsNewFrame s i u ∨ IsByteIn .xtreme s i) := by
    rintro (h | ⟨h, -⟩ | h)
    · exact hcfg h
    · exact hrx h
    · exact hrx ⟨_, h⟩
  exact hs.of_kept ⟨not_ne_iff.mp (mt hw.xtSum hwriter), not_ne_iff.mp (mt hw.xtPoison hwriter),
    not_ne_iff.mp (mt hw.xtMask hwriter), not_ne_iff.mp (mt hw.xtLen hwriter)⟩

end

/-- Every operation keeps the inactive sources' registers idle: CFG flushes them all, and any other operation keeps
PROTO and writes the selected source's registers only (R204, R232). -/
theorem exec_keeps_inactiveIdle {i : Instr} {s u : State} (hs : InactiveIdle s) (h : exec i s = .next u) :
    InactiveIdle u := by
  by_cases hcfg : IsCfg i
  · obtain ⟨p, rfl⟩ := hcfg
    exact execCfg_inactiveIdle h
  have hw : WritesByRule i s u := registerWriters i s u h
  have hproto : u.proto = s.proto := not_ne_iff.mp (mt hw.proto hcfg)
  constructor <;> rw [hproto] <;> intro hp
  case serial => exact hw.serialIdle hcfg hp (hs.serial hp)
  case sbus => exact hw.sbusIdle hcfg hp (hs.sbus hp)
  case spektrum => exact hw.spektrumIdle hcfg hp (hs.spektrum hp)
  case cppm => exact hw.cppmIdle hcfg hp (hs.cppm hp)
  case xtreme =>
    by_cases hrx : IsSerialByte s i
    · obtain ⟨_, -, b, t, rfl⟩ := hrx
      exact execRxByte_xtremeIdle hp (hs.xtreme hp) h
    · exact hw.xtremeIdle hcfg hrx (hs.xtreme hp)

/-- The output record and the words to come are no source's registers. -/
theorem InactiveIdle.of_record {s : State} (h : InactiveIdle s) (out : Option Output) (input : List Word) :
    InactiveIdle { s with out := out, input := input } where
  serial hp := ⟨(h.serial hp).lastByteT, (h.serial hp).byteCount, (h.serial hp).parseDone⟩
  xtreme hp := (h.xtreme hp).of_kept ⟨rfl, rfl, rfl, rfl⟩
  sbus := h.sbus
  spektrum hp :=
    ⟨(h.spektrum hp).spkPrev, (h.spektrum hp).spkPrevValid, (h.spektrum hp).spkDrop, (h.spektrum hp).spkRes11⟩
  cppm hp := ⟨(h.cppm hp).cppmLast, (h.cppm hp).chNum, (h.cppm hp).maxChan⟩

/-- Settles O10: an idle step writes the record only, and every operation keeps the inactive sources idle. -/
theorem stepKeepsInactiveIdle : Obligations.StepKeepsInactiveIdle := by
  intro s t hs h
  obtain ⟨-, rfl⟩ | ⟨w, rest, i, -, -, hexec⟩ := step_cases h
  · exact hs.of_record none s.input
  · exact exec_keeps_inactiveIdle (hs.of_record s.out rest) hexec

/-! ## Parameters and sizes -/

/-- No operation changes the number of pins: only PWM_RISE writes PULSE_START, one entry of it (R23). -/
theorem exec_pulseStart_length {i : Instr} {s u : State} (h : exec i s = .next u) :
    u.pulseStart.length = s.pulseStart.length := by
  by_cases hkept : u.pulseStart = s.pulseStart
  · rw [hkept]
  · obtain ⟨-, ch, t, rfl⟩ := (registerWriters i s u h).pulseStart hkept
    obtain ⟨-, ⟨-, rfl⟩ | ⟨-, rfl⟩⟩ := execPwmRise_cases h
    · exact List.length_set
    · rfl

/-- A byte in a serial mode keeps the number of channels (R120). -/
theorem rxByte_raw_length {p : SerialProto} {b : Byte} {t : Tick} {s u : State} (h : rxByte p b t s = some u) :
    u.raw.length = s.raw.length := by
  obtain ⟨parsed, hparse, rfl⟩ := rxByte_eq_some_iff.mp h
  simpa only [appendByte_eq, frameGap_eq] using (parse_keeps hparse).rawLength

/-- No operation changes the number of channels: the three writers of RAW write entries of it (R22). -/
theorem exec_raw_length {i : Instr} {s u : State} (h : exec i s = .next u) : u.raw.length = s.raw.length := by
  by_cases hkept : u.raw = s.raw
  · rw [hkept]
  obtain ⟨-, ch, t, rfl⟩ | ⟨-, t, rfl⟩ | ⟨⟨_, -, b, t, rfl⟩, -⟩ := (registerWriters i s u h).raw hkept
  · obtain ⟨_, -, ⟨-, -, rfl⟩ | ⟨-, -, rfl⟩ | ⟨-, rfl⟩⟩ := execPwmFall_cases h
    · exact (commit_raw_length _ _).trans List.length_set
    · exact List.length_set
    · rfl
  · obtain ⟨-, rfl⟩ | ⟨-, rfl⟩ := execCppmEdge_cases h
    · exact (cppmEdge_configKept t s.begin).rawLength
    · rfl
  · obtain ⟨-, rfl⟩ | ⟨_, -, hrx⟩ := execRxByte_cases h
    · rfl
    · rw [rxByte_raw_length hrx, State.begin_raw]

/-- Settles O12, by the lemma of each of the four. -/
theorem parametersAndSizesFixed : Obligations.ParametersAndSizesFixed :=
  fun _ _ _ h => ⟨exec_par h, exec_input h, exec_raw_length h, exec_pulseStart_length h⟩

/-! ## CONFIGURE with events between its commands -/

/-- No operation reads the output record of the step before it (R84, log 4). -/
theorem exec_of_out (i : Instr) (s : State) (out : Option Output) : exec i { s with out := out } = exec i s := by
  cases i <;> rfl

/-- A run of at least one operation does not read the output record it begins with. -/
theorem execAll_of_out {is : List Instr} (hne : is ≠ []) (s : State) (out : Option Output) :
    execAll is { s with out := out } = execAll is s := by
  cases is with
  | nil => exact absurd rfl hne
  | cons i is => simp only [execAll, exec_of_out]

/-- No receiver event has its source selected in a disabled block (R232, R238). -/
theorem sourceInactive_of_disabled {i : Instr} {s : State} (hp : s.proto = .disabled)
    (h : i.isReceiverEvent = true) : SourceInactive s i := by
  cases i with
  | pwmRise _ _ | pwmFall _ _ | cppmEdge _ | rxByte _ _ => simp [SourceInactive, hp]
  | tmrRd _ | cfg _ | ordWr _ _ | ordRd _ | frClr | overdue | chRd _ | stRd => cases h

/-- In a disabled block a receiver event or a timer read changes the output record only (R92, R202, R232). -/
theorem exec_of_disabled {i : Instr} {s : State} (hi : Inv s) (hp : s.proto = .disabled)
    (hw : i.wellFormed s.par = true) (h : i.isReceiverEvent = true ∨ ∃ t, i = .tmrRd t) :
    ∃ out, exec i s = .next { s with out := out } := by
  obtain hevent | ⟨t, rfl⟩ := h
  · exact ⟨_, (exec_of_sourceInactive hi hw (sourceInactive_of_disabled hp hevent)).trans (ignored_eq s)⟩
  · exact ⟨_, exec_tmrRd t s⟩

/-- In a disabled block, receiver events and timer reads can be left out of a run of table writes that some last
operation `last` follows (R202). -/
theorem execAll_filter_of_disabled {keep : Instr → Bool} (last : Instr) {mid : List Instr} {s : State} (hi : Inv s)
    (hp : s.proto = .disabled) (hw : ∀ i ∈ mid, i.wellFormed s.par = true)
    (hdropped : ∀ i ∈ mid, keep i = false → i.isReceiverEvent = true ∨ ∃ t, i = .tmrRd t)
    (hkept : ∀ i ∈ mid, keep i = true → ¬IsCfg i) :
    execAll (mid ++ [last]) s = execAll (mid.filter keep ++ [last]) s := by
  induction mid generalizing s with
  | nil => rfl
  | cons i is ih =>
    rw [List.forall_mem_cons] at hw hdropped hkept
    have hrest : ∀ u, exec i s = .next u → u.proto = .disabled →
        execAll (is ++ [last]) u = execAll (is.filter keep ++ [last]) u := fun u hu hpu =>
      ih (exec_keeps_inv hi hu) hpu (exec_par hu ▸ hw.2) hdropped.2 hkept.2
    cases hk : keep i with
    | false =>
      obtain ⟨out, hexec⟩ := exec_of_disabled hi hp hw.1 (hdropped.1 hk)
      calc execAll (i :: is ++ [last]) s
        _ = execAll (is ++ [last]) { s with out := out } := by simp only [List.cons_append, execAll, hexec]
        _ = execAll (is.filter keep ++ [last]) { s with out := out } := hrest _ hexec hp
        _ = execAll (is.filter keep ++ [last]) s := execAll_of_out (by simp) s out
        _ = execAll ((i :: is).filter keep ++ [last]) s := by rw [List.filter_cons_of_neg (by simp [hk])]
    | true =>
      rw [List.filter_cons_of_pos hk, List.cons_append, List.cons_append, execAll, execAll]
      cases hexec : exec i s with
      | fault f => rfl
      | refused r => rfl
      | next u =>
        have hproto : u.proto = s.proto := not_ne_iff.mp (mt (registerWriters i s u hexec).proto (hkept.1 hk))
        exact hrest u hexec (hproto.trans hp)

/-- The commands between the two CFGs of CONFIGURE are no CFG (R83). -/
theorem not_isCfg_of_mem_orderWrites {i : Instr} {o : Vector Byte 16} (h : i ∈ orderWrites o) : ¬IsCfg i := by
  obtain ⟨w, -, rfl⟩ := List.mem_map.mp h
  rintro ⟨p, hp⟩
  cases hp

/-- Settles O56: the first CFG disables the block, in which the events and timer reads can be left out. -/
theorem configureUndisturbedByEvents : Obligations.ConfigureUndisturbedByEvents := by
  intro s p o mid hi hw hmid
  have hdisable : exec (.cfg .disabled) s = .next (s.reselected .disabled false .cfgOk) := exec_cfg_ok (.inl rfl)
  have hundisturbed := execAll_filter_of_disabled (.cfg p) (mid := mid) (exec_keeps_inv hi hdisable) rfl hw
    (fun i _ hdrop => ?_) fun i hmem hkeep => not_isCfg_of_mem_orderWrites (hmid ▸ List.mem_filter.mpr ⟨hmem, hkeep⟩)
  · rw [hmid] at hundisturbed
    simp only [configure, execAll, hdisable, hundisturbed]
  · cases i with
    | pwmRise _ _ | pwmFall _ _ | cppmEdge _ | rxByte _ _ => exact .inl rfl
    | tmrRd t => exact .inr ⟨t, rfl⟩
    | cfg _ | ordWr _ _ | ordRd _ | frClr | overdue | chRd _ | stRd => cases hdrop

end Sys2Proof.Machine

/-! # The host commands (O46, O47, O48, O49, O50, O51)

Each command's step is stated in closed form; the decoder's answer for its OP stands with the encoding. -/

namespace Sys2Proof.Machine

/-- Settles O46: the two answers of CFG are the flushed block with PROTO, CFG_ERR and the record written. -/
theorem cfgSelectsAndFlushes : Obligations.CfgSelectsAndFlushes := by
  refine ⟨fun w p hop hfield => ?_, fun _ hop hcode => decode_reservedProtocol hop hcode, fun p s => ⟨?_, ?_⟩⟩
  · rw [decode_of_op_cfg hop, hfield, decodeCfg_fieldA]
  · exact fun hp hinvalid => exec_cfg_bad hp hinvalid
  · exact fun hok => exec_cfg_ok hok

/-- ORD_RD answers its entry and writes the output record only (R206). -/
theorem exec_ordRd (w : Nibble) (s : State) :
    exec (.ordRd w) s = .next { s with out := answered (.half ((orderAt s.order w).setWidth 16)) } := rfl

/-- Settles O48, by what the decoder and the dispatch answer for the table read. -/
theorem ordRdReturnsEntry : Obligations.OrdRdReturnsEntry := ⟨fun _ hop => decode_ordRd hop, exec_ordRd⟩

/-- Settles O47: an accepted write is `setOrderAt`, which `orderAt_setOrderAt` reads back. -/
theorem ordWrWritesOneEntry : Obligations.OrdWrWritesOneEntry := by
  refine ⟨fun _ hop => decode_ordWr hop, fun w c s => ⟨fun hdrop => ?_, fun hp hc => ?_⟩⟩
  · obtain hp | ⟨hne, hge⟩ := hdrop
    · exact exec_ordWr_dropped (.inl hp)
    · exact refusedWordsExactly.2 w c s hne hge
  · refine ⟨_, exec_ordWr_ok hp (orderValueLegal_iff.mpr hc), fun v => ?_⟩
    rw [exec_ordRd, orderAt_setOrderAt]
    rfl

/-- Settles O49: FR_CLR and OVERDUE write their flag and an empty record in one assignment. -/
theorem frClrAndOverdueWriteOneFlag : Obligations.FrClrAndOverdueWriteOneFlag :=
  ⟨fun _ hop => decode_frClr hop, fun _ hop => decode_overdue hop, fun _ => ⟨rfl, rfl⟩⟩

/-- CH_RD of an existing channel answers its value and writes the output record only (R209). -/
theorem exec_chRd_of_channel {c : Nibble} {s : State} {v : Tick} (h : s.raw? c.toNat = some v) :
    exec (.chRd c) s = .next { s with out := answered (.half v) } := by
  simp only [exec, execChRd, h, begin_answer_eq]

/-- CH_RD of a channel that does not exist is refused (R78(b)). -/
theorem exec_chRd_noSuchChannel {c : Nibble} {s : State} (h : s.raw? c.toNat = none) :
    exec (.chRd c) s = .refused .noSuchChannel := by simp only [exec, execChRd, h]

/-- Settles O50, by the existence of the channel. -/
theorem chRdReturnsChannel : Obligations.ChRdReturnsChannel :=
  ⟨fun _ hop => decode_chRd hop, fun _ _ =>
    ⟨fun hge => exec_chRd_noSuchChannel (raw?_of_ge hge),
      fun _ hlt hv => exec_chRd_of_channel (raw?_eq_some_iff.mpr ⟨hlt, hv⟩)⟩⟩

/-! ## The fields of STATUS -/

/-- A field of STATUS is read off its bits (R34). -/
theorem status_extractLsb' {s : State} {start n : Nat} {v : BitVec n}
    (h : ∀ k < n, s.status.getLsbD (start + k) = v.getLsbD k) : s.status.extractLsb' start n = v :=
  BitVec.eq_of_getLsbD_eq fun k hk => by
    rw [BitVec.getLsbD_extractLsb', h k hk, decide_eq_true hk, Bool.true_and]

/-- ST_RD answers STATUS and writes the output record only (R210). -/
theorem exec_stRd (s : State) : exec .stRd s = .next { s with out := answered (.full s.status) } := rfl

/-- STATUS shows PROTO's code (R34). -/
theorem status_proto (s : State) : s.status.extractLsb' 8 3 = s.proto.code :=
  status_extractLsb' fun k hk => by simp (disch := omega) only [status_getLsbD, if_neg, if_pos, Nat.add_sub_cancel_left]

/-- Settles O51, one field at a time by `status_getLsbD`. -/
theorem stRdReturnsStatusLayout : Obligations.StRdReturnsStatusLayout := by
  refine ⟨fun _ hop => decode_stRd hop, fun s => ⟨s.status, exec_stRd s, ?_⟩⟩
  refine ⟨status_getLsbD s 0, status_getLsbD s 1, status_getLsbD s 2, status_getLsbD s 3, status_getLsbD s 4,
    status_getLsbD s 5, status_extractLsb' fun k hk => ?_, ?_, status_extractLsb' fun k hk => ?_,
    status_extractLsb' fun k hk => ?_, status_extractLsb' fun k hk => ?_⟩
  case refine_2 =>
    rw [status_proto]
    cases s.proto <;> rfl
  all_goals
    simp (disch := omega) only [status_getLsbD, if_neg, if_pos, Nat.add_sub_cancel_left,
      BitVec.ofNat_eq_ofNat, BitVec.getLsbD_zero]
end Sys2Proof.Machine

/-! # No faults, and the order of PWM events (O7, O19)

What an operation does under the invariant is decided by whether its pin or channel exists: it completes or is refused.
A PWM event writes its own pin's entries and, at the frame pin, publishes; events on two pins therefore commute. -/

namespace Sys2Proof.Machine

/-! ## No step faults -/

/-- No operation faults: it completes if its pin or channel exists and is refused otherwise (R78, R236). -/
theorem exec_ne_fault {i : Instr} {s : State} (hi : Inv s) (f : Fault) : exec i s ≠ .fault f := by
  intro hfault
  cases hw : i.wellFormed s.par with
  | true =>
    obtain ⟨u, hu⟩ := exec_completes hi hw
    cases hu.symm.trans hfault
  | false =>
    obtain ⟨why, hwhy⟩ := exec_refused_of_illFormed hw
    cases hwhy.symm.trans hfault

/-- No step faults: it is idle, its word is refused, or it is an operation (R59, R76, R236). -/
theorem step_ne_fault {s : State} (hi : Inv s) (f : Fault) : step s ≠ .fault f := by
  cases hin : s.input with
  | nil => simp [step, hin]
  | cons w rest =>
    cases hdec : decode w with
    | error e => simp [step_of_decode_error hin hdec]
    | ok i =>
      rw [step_of_decode hin hdec]
      exact exec_ne_fault (hi.of_record s.out rest) f

/-- Settles O7: well-formed operations complete by `exec_completes`, and no step faults by `step_ne_fault`. -/
theorem everyLegalWordCompletes : Obligations.EveryLegalWordCompletes :=
  fun _ hi => ⟨fun _ hw => exec_completes hi hw, step_ne_fault hi⟩

/-! ## What a PWM event writes -/

/-- The registers after a rise of pin `ch` in PWM mode (R101). -/
def State.pwmRisen (ch : Nibble) (t : Tick) (s : State) : State :=
  { s with pulseStart := s.pulseStart.set ch.toNat t }

/-- The registers after a fall of pin `ch` in PWM mode; the frame pin publishes (R102). -/
def State.pwmFallen (ch : Nibble) (t : Tick) (s : State) : State :=
  { s with
    raw := s.raw.set ch.toNat (elapsed t (s.pulseStart.getD ch.toNat 0))
    fr := s.fr || decide (ch.toNat = s.par.pwmFrameCh)
    commitCnt := s.commitCnt + if ch.toNat = s.par.pwmFrameCh then 1 else 0 }

/-- The registers after a PWM event, which is ignored outside PWM mode (R101, R102, R232). -/
def State.afterPwm (i : Instr) (s : State) : State :=
  if s.proto = .pwm then
    match i with
    | .pwmRise ch t => s.pwmRisen ch t
    | .pwmFall ch t => s.pwmFallen ch t
    | _ => s
  else s

theorem State.afterPwm_rise {s : State} (hp : s.proto = .pwm) (ch : Nibble) (t : Tick) :
    s.afterPwm (.pwmRise ch t) = s.pwmRisen ch t := if_pos hp

theorem State.afterPwm_fall {s : State} (hp : s.proto = .pwm) (ch : Nibble) (t : Tick) :
    s.afterPwm (.pwmFall ch t) = s.pwmFallen ch t := if_pos hp

theorem State.afterPwm_ignored {s : State} (hp : s.proto ≠ .pwm) (i : Instr) : s.afterPwm i = s := if_neg hp

/-- A PWM event that completes writes `afterPwm` and the output record (R101, R102, R232). -/
theorem afterPwm_of_exec {ch : Nibble} {i : Instr} {s u : State} (h : IsPwmEventOn ch i) (hexec : exec i s = .next u) :
    SameButOutput (s.afterPwm i) u := by
  obtain ⟨t, rfl | rfl⟩ := h
  · obtain ⟨-, ⟨hp, rfl⟩ | ⟨hp, rfl⟩⟩ := execPwmRise_cases hexec
    · rw [s.afterPwm_rise hp]; rfl
    · rw [s.afterPwm_ignored hp]; rfl
  · obtain ⟨rise, hrise, hcases⟩ := execPwmFall_cases hexec
    have hstart : s.pulseStart.getD ch.toNat 0 = rise := by
      rw [List.getD_eq_getElem?_getD, (pulseStart?_eq_some_iff.mp hrise).2, Option.getD_some]
    obtain ⟨hp, hframe, rfl⟩ | ⟨hp, hframe, rfl⟩ | ⟨hp, rfl⟩ := hcases
    · rw [s.afterPwm_fall hp, commit_empty_eq, State.pwmFallen, hstart, if_pos hframe, decide_eq_true hframe,
        Bool.or_true]
      rfl
    · rw [s.afterPwm_fall hp, State.pwmFallen, hstart, if_neg hframe, decide_eq_false hframe, Bool.or_false,
        add_zero]
      rfl
    · rw [s.afterPwm_ignored hp]; rfl

/-- Two PWM events in a row write what the second one writes after the first. -/
theorem afterPwm_of_execAll {a b : Nibble} {i j : Instr} {s u : State} (hi : IsPwmEventOn a i) (hj : IsPwmEventOn b j)
    (hrun : execAll [i, j] s = .next u) : SameButOutput ((s.afterPwm i).afterPwm j) u := by
  obtain ⟨v, hv, hrest⟩ := execAll_cons_next_iff.mp hrun
  have hfirst : { s.afterPwm i with out := v.out } = v := afterPwm_of_exec hi hv
  rw [execAll_singleton, ← hfirst, exec_of_out] at hrest
  exact afterPwm_of_exec hj hrest

/-! ## Two pins -/

section
variable {a b : Nibble} (t t' : Tick) (s : State)

/-- Two rises write different entries of PULSE_START. -/
theorem State.pwmRisen_comm (hab : a ≠ b) : (s.pwmRisen a t).pwmRisen b t' = (s.pwmRisen b t').pwmRisen a t := by
  simp only [State.pwmRisen, List.set_comm _ _ (BitVec.toNat_ne.mp hab)]

/-- A fall reads its own pin's PULSE_START, which a rise of another pin keeps, and writes other registers. -/
theorem State.pwmFallen_pwmRisen (hab : a ≠ b) :
    (s.pwmRisen a t).pwmFallen b t' = (s.pwmFallen b t').pwmRisen a t := by
  have hkept : (s.pulseStart.set a.toNat t).getD b.toNat 0 = s.pulseStart.getD b.toNat 0 := by
    simp only [List.getD_eq_getElem?_getD, List.getElem?_set_ne (BitVec.toNat_ne.mp hab)]
  simp only [State.pwmFallen, State.pwmRisen, hkept]
  rfl

/-- Two falls write different entries of RAW, and what each adds to FR and COMMIT_CNT does not depend on the other. -/
theorem State.pwmFallen_comm (hab : a ≠ b) :
    (s.pwmFallen a t).pwmFallen b t' = (s.pwmFallen b t').pwmFallen a t := by
  simp only [State.pwmFallen, List.set_comm _ _ (BitVec.toNat_ne.mp hab), Bool.or_right_comm,
    add_right_comm]
  rfl

end

/-- PWM events on two pins write the same in either order (R241). -/
theorem State.afterPwm_comm {a b : Nibble} {i j : Instr} (hab : a ≠ b) (hi : IsPwmEventOn a i) (hj : IsPwmEventOn b j)
    (s : State) : (s.afterPwm i).afterPwm j = (s.afterPwm j).afterPwm i := by
  by_cases hp : s.proto = .pwm
  · have hrisen : ∀ ch t, (s.pwmRisen ch t).proto = .pwm := fun _ _ => hp
    have hfallen : ∀ ch t, (s.pwmFallen ch t).proto = .pwm := fun _ _ => hp
    obtain ⟨t, rfl | rfl⟩ := hi <;> obtain ⟨t', rfl | rfl⟩ := hj <;>
      simp only [State.afterPwm_rise, State.afterPwm_fall, hp, hrisen, hfallen]
    · exact s.pwmRisen_comm t t' hab
    · exact s.pwmFallen_pwmRisen t t' hab
    · exact (s.pwmFallen_pwmRisen t' t hab.symm).symm
    · exact s.pwmFallen_comm t t' hab
  · simp only [s.afterPwm_ignored hp]

/-- A PWM event on an existing pin is well formed (R78(a)). -/
theorem IsPwmEventOn.wellFormed {ch : Nibble} {i : Instr} {p : Params} (h : IsPwmEventOn ch i)
    (hch : ch.toNat < p.nPwm) : i.wellFormed p = true := by
  obtain ⟨t, rfl | rfl⟩ := h <;> exact decide_eq_true hch

/-- Settles O19: both runs complete, and both write what the two events write in either order. -/
theorem pwmPinsCommute : Obligations.PwmPinsCommute := by
  intro s a b i j hinv hab hi hj ha hb
  have hwi := hi.wellFormed ha
  have hwj := hj.wellFormed hb
  obtain ⟨u, hu, -⟩ := execAll_completes (is := [i, j]) hinv (by simp [hwi, hwj])
  obtain ⟨v, hv, -⟩ := execAll_completes (is := [j, i]) hinv (by simp [hwi, hwj])
  have hij := afterPwm_of_execAll hi hj hu
  have hji := afterPwm_of_execAll hj hi hv
  rw [State.afterPwm_comm hab hi hj] at hij
  refine ⟨u, v, hu, hv, ?_⟩
  rw [← hij]
  exact hji

end Sys2Proof.Machine

/-! # Reset and the snapshot check (O8, O13, O42)

The reset state satisfies the invariant because the block is disabled and the table is the identity below N_CH; what
holds of a disabled sound state then holds of it. The snapshot check counts the commits of a run and uses that outside
PWM and CPPM an operation that does not commit keeps RAW. -/

namespace Sys2Proof.Machine

/-! ## The reset state -/

/-- The entries of the reset table are logical channels or unmapped (R25). -/
theorem resetOrder_legal (nCh : Nat) (w : Fin 16) :
    (resetOrder nCh)[w] = Config.unmapped ∨ (resetOrder nCh)[w].toNat < nCh := by
  have hentry : (resetOrder nCh)[w] = if w.val < nCh then BitVec.ofNat 8 w.val else Config.unmapped := by
    simp [resetOrder]
  rw [hentry]
  split
  next hw =>
    right
    rw [BitVec.toNat_ofNat]
    exact lt_of_le_of_lt (Nat.mod_le _ _) hw
  next => exact .inl rfl

/-- The reset state satisfies the invariant (R260). What the invariant asks of an enabled block does not arise. -/
theorem inv_resetWith {p : Params} {contents : Memory} (hp : p.Valid) (hbuf : BufContents p contents) :
    Inv (State.resetWith p contents) where
  parValid := hp
  rawLength := hp.defaultFill_length
  pulseLength := List.length_replicate
  orderLegal := resetOrder_legal p.nCh
  enabledOrderValid hne := absurd rfl hne
  bufWf := hbuf.wf
  bufBounded := hbuf.bounded
  xtremeTracks hxtreme := by cases hxtreme

/-- No source's registers are in use after reset (R260). -/
theorem inactiveIdle_resetWith (p : Params) (contents : Memory) : InactiveIdle (State.resetWith p contents) where
  serial _ := ⟨rfl, rfl, rfl⟩
  xtreme _ := ⟨rfl, rfl, rfl, rfl⟩
  sbus _ := rfl
  spektrum _ := ⟨rfl, rfl, rfl, rfl⟩
  cppm _ := ⟨rfl, rfl, rfl⟩

/-- Settles O8, by the lemma of each of the two invariants. -/
theorem resetSatisfiesInvariant : Obligations.ResetSatisfiesInvariant :=
  fun p contents hp hbuf => ⟨inv_resetWith hp hbuf, inactiveIdle_resetWith p contents⟩

/-- In a disabled block no operation reads or writes BUF: RX_BYTE is ignored, and no other one accesses it (R120). -/
theorem exec_withBuf_of_disabled (i : Instr) (m : Memory) {s : State} (hp : s.proto = .disabled) :
    exec i (s.withBuf m) = resultWithBuf m (exec i s) := by
  by_cases hrx : ∃ b t, i = .rxByte b t
  · obtain ⟨b, t, rfl⟩ := hrx
    have hserial : serialOf s.proto = none := by rw [hp]; rfl
    rw [execRxByte_ignored hserial, execRxByte_ignored (s := s.withBuf m) hserial]
    rfl
  · exact exec_withBuf m s fun b t he => hrx ⟨b, t, he⟩

/-- An operation after reset does the same whatever BUF holds (R54, R260). -/
theorem exec_resetWith (i : Instr) (p : Params) (contents : Memory) :
    exec i (State.resetWith p contents) = resultWithBuf contents (exec i (State.resetWith p [])) :=
  exec_withBuf_of_disabled i contents (s := State.resetWith p []) rfl

/-- STATUS reads 0 after reset: every register it shows is 0, and so is the code of DISABLED (R34, R262). -/
theorem status_resetWith (p : Params) (contents : Memory) : (State.resetWith p contents).status = 0x00000000 := by
  refine BitVec.eq_of_getLsbD_eq fun k _ => ?_
  rw [status_getLsbD]
  simp [State.resetWith, Proto.code]

/-- Settles O13: with nothing listed in BUF the reset state is sound and disabled, and other contents make no
difference. -/
theorem resetEntryState : Obligations.ResetEntryState := by
  intro p contents hp
  have hinv : Inv (State.resetWith p []) := inv_resetWith hp ⟨rfl, List.forall_mem_nil _⟩
  refine ⟨rfl, status_resetWith p contents, fun i hw => ?_⟩
  rw [exec_resetWith]
  split
  next hevent =>
    rw [exec_of_sourceInactive hinv hw (sourceInactive_of_disabled rfl hevent), ignored_eq]
    rfl
  next =>
    obtain ⟨u, hu⟩ := exec_completes hinv hw
    rw [hu]
    exact ⟨u.withBuf contents, rfl⟩

/-! ## The commits of a run (O42) -/

/-- The commits of a run whose first operation completes (R186). -/
theorem commitsIn_cons {i : Instr} {is : List Instr} {s v : State} (h : exec i s = .next v) :
    commitsIn (i :: is) s = v.record.strobe.toNat + commitsIn is v := by
  simp only [commitsIn, h]

/-- COMMIT_CNT advances by 1 in a step that commits and is kept by any other (R33, R186). -/
theorem exec_commitCnt {i : Instr} {s u : State} (h : exec i s = .next u) :
    u.commitCnt = s.commitCnt + BitVec.ofNat 8 u.record.strobe.toNat := by
  obtain hnone | honce := exec_accounted h
  · rw [hnone.commitCnt, hnone.strobe]
    exact (BitVec.add_zero _).symm
  · rw [honce.commitCnt, honce.strobe]
    rfl

/-- Over a run COMMIT_CNT advances by the number of commits modulo 256 (R33, R272). -/
theorem execAll_commitCnt {is : List Instr} {s u : State} (h : execAll is s = .next u) :
    u.commitCnt = s.commitCnt + BitVec.ofNat 8 (commitsIn is s) := by
  induction is generalizing s with
  | nil =>
    cases h
    exact (BitVec.add_zero _).symm
  | cons i is ih =>
    obtain ⟨v, hv, hrun⟩ := execAll_cons_next_iff.mp h
    rw [ih hrun, exec_commitCnt hv, commitsIn_cons hv, BitVec.ofNat_add, BitVec.add_assoc]

/-- Fewer than 256 commits are counted without wrapping, so an unchanged COMMIT_CNT means that there was none (R33). -/
theorem commitsIn_eq_zero {is : List Instr} {s u : State} (h : execAll is s = .next u) (hlt : commitsIn is s < 256)
    (hcnt : u.commitCnt = s.commitCnt) : commitsIn is s = 0 := by
  have hzero : BitVec.ofNat 8 (commitsIn is s) = 0 := by
    have hadd := execAll_commitCnt h
    rw [hcnt] at hadd
    exact BitVec.self_eq_add_right.mp hadd
  simpa [Nat.mod_eq_of_lt hlt] using congrArg BitVec.toNat hzero

/-! ## RAW outside PWM and CPPM (O42) -/

/-- Neither source that writes a channel as its pulse ends is selected: RAW is written by frames only (R22). -/
structure NoCapture (p : Proto) : Prop where
  ne_pwm : p ≠ .pwm
  ne_cppm : p ≠ .cppm

/-- An operation other than `CFG PWM` and `CFG CPPM` selects neither (R24, R203). -/
theorem exec_noCapture {i : Instr} {s u : State} (hs : NoCapture s.proto) (hi : i ≠ .cfg .pwm ∧ i ≠ .cfg .cppm)
    (h : exec i s = .next u) : NoCapture u.proto := by
  by_cases hcfg : IsCfg i
  · obtain ⟨p, rfl⟩ := hcfg
    obtain ⟨-, rfl⟩ | ⟨-, rfl⟩ := execCfg_cases h
    · exact ⟨nofun, nofun⟩
    · exact ⟨fun hp => hi.1 (congrArg Instr.cfg hp), fun hp => hi.2 (congrArg Instr.cfg hp)⟩
  · have hproto : u.proto = s.proto := not_ne_iff.mp (mt (registerWriters i s u h).proto hcfg)
    rwa [hproto]

/-- Outside PWM and CPPM an operation that does not commit keeps RAW (R22, R60). -/
theorem exec_raw_of_noCapture {i : Instr} {s u : State} (hs : NoCapture s.proto) (h : exec i s = .next u)
    (hquiet : u.record.strobe = false) : u.raw = s.raw := by
  by_contra hne
  obtain ⟨hpwm, -⟩ | ⟨hcppm, -⟩ | ⟨-, hstrobe⟩ := (registerWriters i s u h).raw hne
  · exact hs.ne_pwm hpwm
  · exact hs.ne_cppm hcppm
  · exact absurd (hquiet.symm.trans hstrobe) Bool.false_ne_true

/-- A run that selects neither PWM nor CPPM and does not commit keeps RAW (R60, R272). -/
theorem execAll_raw_of_noCapture {is : List Instr} {s u : State} (hs : NoCapture s.proto)
    (his : ∀ i ∈ is, i ≠ .cfg .pwm ∧ i ≠ .cfg .cppm) (h : execAll is s = .next u) (hnone : commitsIn is s = 0) :
    u.raw = s.raw := by
  induction is generalizing s with
  | nil => cases h; rfl
  | cons i is ih =>
    rw [List.forall_mem_cons] at his
    obtain ⟨v, hv, hrun⟩ := execAll_cons_next_iff.mp h
    rw [commitsIn_cons hv, Nat.add_eq_zero_iff, Bool.toNat_eq_zero] at hnone
    obtain ⟨hquiet, hrest⟩ := hnone
    calc u.raw = v.raw := ih (exec_noCapture hs his.1 hv) his.2 hrun hrest
      _ = s.raw := exec_raw_of_noCapture hs hv hquiet

/-- Settles O42: the counter counts the commits, and a run without any keeps RAW. -/
theorem unchangedCommitCountMeansSameRaw : Obligations.UnchangedCommitCountMeansSameRaw := by
  intro ops s t h
  refine ⟨execAll_commitCnt h, fun hpwm hcppm hops hlt hcnt => ?_⟩
  exact execAll_raw_of_noCapture ⟨hpwm, hcppm⟩ hops h (commitsIn_eq_zero h hlt hcnt)

end Sys2Proof.Machine
